-- ==== Sys2Proof/Word.lean ====
section
/-!
DEFINITION. The words of TCISP: bytes of the frame buffers, 32-bit binary32 patterns of the
parameter registers, 64-bit command words, and the triples a pixel is made of.
-/

namespace Sys2Proof

/-- A byte of a frame buffer: 8 bits (R40, R41). -/
abbrev Byte := BitVec 8

/-- An IEEE 754 binary32 pattern, the content of a parameter register (R21). -/
abbrev Pattern := BitVec 32

/-- A command word: every command is one 64-bit word (R61). -/
abbrev CommandWord := BitVec 64

/-- A width or height: the W and H fields of APPLY and the registers OUT_W and OUT_H, 16 bits in the
reference instance and the low `DIM_BITS` of them in a narrower copy (R14, R26, R65; log entry 18). -/
abbrev Dim := BitVec 16

/-- Three values in a fixed order: (blue, green, red) for a displayed pixel, (Ls, As, Bs) for a
working pixel (R18).  No implicit reordering is ever performed. -/
structure Triple (α : Type) where
  c0 : α
  c1 : α
  c2 : α
deriving DecidableEq, Repr

end Sys2Proof
end

