-- ==== Sys2Proof/Config.lean ====
section
/-!
DEFINITION. The configuration of one copy of the hardware: the numerics record `NUM` of R213, the
record `CFG` of R14 with the spec's reference defaults, the constraints of R14 and R15, both together
(`Hardware`); the precision of the model's enclosures; and the FREE VALUES: constants without a body,
which nothing in Lean can evaluate, one for each value the spec leaves open.
-/

namespace Sys2Proof

/-- The numerics record `NUM` (R14, R19, R213): a numeric type `F` with the operations every rule is
written over.  A comparison answers `none` where the instance at hand cannot tell; EXACT always can.
`join` is what a piecewise choice gives then, a value that stands for both branches; `undetermined`
is a number of which the instance knows nothing (log entry 11). -/
class Numerics (F : Type) extends Add F, Sub F, Mul F, Div F where
  /-- `ofNat(k)`: injection of a natural number. -/
  nat : Nat → F
  /-- `ofDec(literal)`: the number a decimal literal denotes. -/
  dec : ℚ → F
  /-- `ofPat(p)`: the number a binary32 pattern denotes, for a pattern that denotes one. -/
  pattern : Pattern → F
  /-- `a < b`, and `b > a`. -/
  lt? : F → F → Option Bool
  /-- `a ≤ b`, and `b ≥ a`. -/
  le? : F → F → Option Bool
  /-- The test `a = 0`, which R213 lists and no stage needs: RENORM's test is `mx > 0` (R141). -/
  isZero? : F → Option Bool
  join : F → F → F
  undetermined : F
  /-- `pow(b, e)` for a positive `b`. -/
  pow : F → F → F
  /-- `exp(t)` for `t ≤ 0`. -/
  exp : F → F
  /-- `floor(t)` for `t ≥ 0`. -/
  floor : F → Option Nat

/-- `SH_SHAPE`: the falloff shape of the shadow mask.  LINEAR is the only shape the spec defines
(R14, decision D14); a quadratic one is not representable, which is the refusal I7 asks for. -/
inductive ShadowShape where
  | linear
deriving DecidableEq, Repr

/-- `MASK_BLUR_FN`: which blur the masks use (R14, decision D19). -/
inductive MaskBlurFn where
  | fblur
  | gblur
deriving DecidableEq, Repr

/-- `ROUND_TIE`: what a value exactly halfway between two integers rounds to (R14, I13).  R14 puts no
constraint on it, so every rule that picks one of the two integers is a value of this type. -/
inductive RoundTie where
  /-- A tie goes up: the reference instance (R166, decision D21). -/
  | halfUp
  /-- A tie goes down. -/
  | halfDown
  /-- A tie goes to the even integer. -/
  | halfEven
  /-- Any rule: the tie between `k` and `k + 1` goes up exactly where bit `k` of `up` is 1. -/
  | perTie (up : BitVec 255)
deriving DecidableEq, Repr

/-- A 3×3 matrix as its three rows (R102, R163). -/
structure Matrix3 where
  row0 : Triple ℚ
  row1 : Triple ℚ
  row2 : Triple ℚ
deriving DecidableEq, Repr

/-- The scalar product of two triples of rationals. -/
def dotQ (u v : Triple ℚ) : ℚ := u.c0 * v.c0 + u.c1 * v.c1 + u.c2 * v.c2

/-- The columns of a matrix, as rows. -/
def Matrix3.transpose (m : Matrix3) : Matrix3 where
  row0 := ⟨m.row0.c0, m.row1.c0, m.row2.c0⟩
  row1 := ⟨m.row0.c1, m.row1.c1, m.row2.c1⟩
  row2 := ⟨m.row0.c2, m.row1.c2, m.row2.c2⟩

/-- Three rationals within `tol` of three others. -/
def nearTriple (tol : ℚ) (u v : Triple ℚ) : Bool :=
  decide (|u.c0 - v.c0| ≤ tol) && decide (|u.c1 - v.c1| ≤ tol) && decide (|u.c2 - v.c2| ≤ tol)

/-- `a · b ≈ identity` (R14): every entry of the product within `tol` of the identity's. -/
def Matrix3.nearInverse (tol : ℚ) (a b : Matrix3) : Bool :=
  let c := b.transpose
  let row (r : Triple ℚ) : Triple ℚ := ⟨dotQ r c.row0, dotQ r c.row1, dotQ r c.row2⟩
  nearTriple tol (row a.row0) ⟨1, 0, 0⟩ && nearTriple tol (row a.row1) ⟨0, 1, 0⟩
    && nearTriple tol (row a.row2) ⟨0, 0, 1⟩

/-- What `≈` of R14's constraint on the two matrices means, entry by entry (DESIGN CHOICE, log entry
4): R163 puts the reference product within 2·10⁻⁷. -/
def Config.inverseTolerance : ℚ := 1 / 1000

/-- The configuration `CFG` of R14: constants fixed for one copy of the hardware, which no command
changes.  Every number is the exact rational its decimal literal denotes (R213). -/
structure Cfg where
  /-- `K_DAMP`, the damping constant of the correction. -/
  kDamp : ℚ
  /-- `C_MARGIN`, the margin of the correction clamp. -/
  cMargin : ℚ
  /-- `W1_SHADOW`, the shadow threshold per unit tonal width. -/
  w1Shadow : ℚ
  /-- `W2_FULL`, the fraction of the shadow threshold below which the mask is 1. -/
  w2Full : ℚ
  /-- `SH_SHAPE`, the shadow falloff shape. -/
  shShape : ShadowShape
  /-- `SH_PARTIAL`, the value the shadow falloff reaches at the threshold. -/
  shPartial : ℚ
  /-- `W3_HIGHLIGHT`, the highlight threshold drop per unit tonal width. -/
  w3Highlight : ℚ
  /-- `HL_RAMP_LO`, the start of the highlight ramp as a fraction of the threshold. -/
  hlRampLo : ℚ
  /-- `BLUR_EPS`, the radius above which a mask is blurred. -/
  blurEps : ℚ
  /-- `BLUR_RMAX`, the largest effective mask blur radius. -/
  blurRmax : ℚ
  /-- `MASK_BLUR_FN`, the blur the masks use. -/
  maskBlurFn : MaskBlurFn
  /-- `BLUR_IDENT`, the radius below which GBLUR is the identity. -/
  blurIdent : ℚ
  /-- `FB_T1` and `FB_T2`, the pass-count thresholds of FBLUR. -/
  fbT1 : ℚ
  fbT2 : ℚ
  /-- `XN`, `YN`, `ZN`, the D65 reference white. -/
  xn : ℚ
  yn : ℚ
  zn : ℚ
  /-- `M_FWD`, linear sRGB to XYZ. -/
  mFwd : Matrix3
  /-- `M_INV`, XYZ to linear sRGB. -/
  mInv : Matrix3
  /-- `ROUND_TIE`. -/
  roundTie : RoundTie
  /-- `DIM_BITS`, the width of the W and H fields of APPLY and of OUT_W and OUT_H. -/
  dimBits : Nat
deriving DecidableEq, Repr

/-- The constraints of R14 and R15, under which every rule is total.  I20: outside them the rules
have no meaning; the reference configuration is inside (`Config.defaults_valid`). -/
def Cfg.valid (c : Cfg) : Bool :=
  decide (0 < c.kDamp) && decide (c.kDamp ≤ 1) && decide (0 ≤ c.cMargin) && decide (c.cMargin ≤ 1)
    && decide (0 < c.w1Shadow) && decide (c.w1Shadow ≤ 1)
    && decide (0 ≤ c.w2Full) && decide (c.w2Full < 1)
    && decide (0 ≤ c.shPartial) && decide (c.shPartial ≤ 1)
    && decide (0 ≤ c.w3Highlight) && decide (c.w3Highlight < 1)
    && decide (0 ≤ c.blurEps) && decide (0 < c.blurRmax)
    && decide (c.hlRampLo = 9 / 10) && decide (c.blurIdent = 1 / 10)
    && decide (c.fbT1 = 8) && decide (c.fbT2 = 20)
    && decide (c.xn = 95047 / 100000) && decide (c.yn = 1) && decide (c.zn = 108883 / 100000)
    && c.mInv.nearInverse Config.inverseTolerance c.mFwd && decide (1 ≤ c.dimBits)

/-- One copy of the hardware (R14): its constants and its numerics.  The constraints are a precondition
of the configuration (I20), so a copy that violates them cannot be written down. -/
structure Hardware (F : Type) where
  cfg : Cfg
  /-- `NUM`, the numerics instance (R14, R213). -/
  num : Numerics F
  valid : cfg.valid = true

/-- What MBLUR takes of the stored radius (R140): nothing where it leaves the mask unblurred, else the
radius it blurs with. -/
inductive EffectiveRadius where
  /-- The register holds the pattern of no number; no run reaches that (R22). -/
  | noNumber
  | unblurred
  | blurred (r : ℚ)
deriving DecidableEq, Repr

namespace Config

/-- `M_FWD` of R102, the seven-decimal sRGB (D65) matrix (decision D22). -/
def mFwd : Matrix3 where
  row0 := ⟨4124564 / 10000000, 3575761 / 10000000, 1804375 / 10000000⟩
  row1 := ⟨2126729 / 10000000, 7151522 / 10000000, 721750 / 10000000⟩
  row2 := ⟨193339 / 10000000, 1191920 / 10000000, 9503041 / 10000000⟩

/-- `M_INV` of R163 (decision D22). -/
def mInv : Matrix3 where
  row0 := ⟨32404542 / 10000000, -15371385 / 10000000, -4985314 / 10000000⟩
  row1 := ⟨-9692660 / 10000000, 18760108 / 10000000, 415560 / 10000000⟩
  row2 := ⟨556434 / 10000000, -2040259 / 10000000, 10572252 / 10000000⟩

/-- The reference configuration: the column "default" of R14. -/
def defaults : Cfg where
  kDamp := 3 / 10
  cMargin := 3 / 10
  w1Shadow := 5 / 10
  w2Full := 3 / 10
  shShape := .linear
  shPartial := 0
  w3Highlight := 5 / 10
  hlRampLo := 9 / 10
  blurEps := 1 / 10
  blurRmax := 20
  maskBlurFn := .fblur
  blurIdent := 1 / 10
  fbT1 := 8
  fbT2 := 20
  xn := 95047 / 100000
  yn := 1
  zn := 108883 / 100000
  mFwd := mFwd
  mInv := mInv
  roundTie := .halfUp
  dimBits := 16

/-- R15: the reference configuration meets the constraints. -/
theorem defaults_valid : defaults.valid = true := by decide +kernel

/-- The number of binary places of the model's enclosures of real numbers (DESIGN CHOICE, log
entry 1): every irrational intermediate value of EXACT is held between two neighbouring multiples
of `2 ^ -encBits`.  More places decide more bytes; no number of places makes a decided byte wrong. -/
def encBits : Nat := 128

/-- FREE VALUE (log entry 2): the byte of the output at `offset` where the numerics cannot tell it:
for enclosures, where the enclosure of the unrounded value straddles a rounding boundary.  By R30 it
is a function of the configuration, the parameters, W, H, the bytes of the input image and the
offset; by R140 the radius counts only as MBLUR takes it.  That equal such operands give one byte in a numerics
other than EXACT too is a DESIGN CHOICE, unsafe there.  Nothing else is known of it. -/
opaque undecidedByte {F : Type} (hw : Hardware F) (shadow highlight width : Pattern)
    (radius : EffectiveRadius) (w h : Dim) (image : List Byte) (offset : Nat) : Byte

/-- FREE VALUE (log entry 3): what a byte of IBUF that the host never wrote holds: any value, one
draw per byte, fixed until written (R190, R193, I16). -/
opaque ibufDraw (offset : Nat) : Byte

/-- FREE VALUE (log entry 3): what a byte of OBUF that no APPLY wrote holds.  `epoch` numbers the
fresh draws: a reset that abandons a command leaves all of OBUF unspecified anew (R192, I17). -/
opaque obufDraw (epoch offset : Nat) : Byte

end Config

end Sys2Proof
end

