-- ==== Sys2Proof/Machine/Binary32.lean ====
section
/-!
DEFINITION. IEEE 754 binary32 patterns: the number `val p` a pattern denotes and the pattern
`pat v` of a number (R21), the clamp of a pattern's value to a parameter's range (R22), and the
nearest pattern of a decimal literal (R70), which `pat` also gives.
-/

namespace Sys2Proof.Machine

/-- What a binary32 pattern denotes: a number, an infinity, or no number (R21). -/
inductive FloatVal where
  | nan
  | negInf
  | posInf
  | num (q : ℚ)
deriving DecidableEq, Repr

/-- The sign bit `p[31]` (R21). -/
def signBit (p : Pattern) : Bool := p.getLsbD 31

/-- The exponent field `p[30:23]` (R21). -/
def expField (p : Pattern) : Nat := (p.extractLsb' 23 8).toNat

/-- The fraction field `p[22:0]` (R21). -/
def fracField (p : Pattern) : Nat := (p.extractLsb' 0 23).toNat

/-- A NaN pattern: `p[30:23] = 255` and `p[22:0] ≠ 0` (R21, R67 (d)). -/
def isNaN (p : Pattern) : Bool := expField p == 255 && fracField p != 0

/-- The magnitude `2 ^ (e - 127) * (1 + m / 2 ^ 23)` (normal) or `2 ^ (-126) * (m / 2 ^ 23)`
(subnormal) of R21, written as an integer significand over a power of two: significand
`m + 2 ^ 23` or `m`, exponent `max e 1 - 150`. -/
def magnitude (p : Pattern) : ℚ :=
  let sig := if expField p = 0 then fracField p else fracField p + 2 ^ 23
  let e := max (expField p) 1
  if 150 ≤ e then ((sig * 2 ^ (e - 150) : Nat) : ℚ) else mkRat sig (2 ^ (150 - e))

/-- `val(p)`, the number a pattern denotes (R21). -/
def val (p : Pattern) : FloatVal :=
  if expField p = 255 then
    if fracField p ≠ 0 then .nan else if signBit p then .negInf else .posInf
  else .num (if signBit p then -magnitude p else magnitude p)

/-- `n * 2 ^ e` for a natural `n`, as a numerator and a denominator. -/
def scaled (n : Nat) (e : Int) : Nat × Nat := (n * 2 ^ e.toNat, 2 ^ (-e).toNat)

/-- The largest `e` with `2 ^ e ≤ n / d`, for positive `n` and `d`. -/
def floorLog2 (n d : Nat) : Int :=
  let e : Int := (Nat.log2 n : Int) - Nat.log2 d
  if d * 2 ^ e.toNat ≤ n * 2 ^ (-e).toNat then e else e - 1

/-- `n / d` rounded to the nearest integer, ties to the even one. -/
def roundHalfEven (n d : Nat) : Nat :=
  let k := n / d
  let r := n % d
  if 2 * r < d then k else if d < 2 * r then k + 1 else if k % 2 = 0 then k else k + 1

/-- The magnitude bits (pattern without sign) of the binary32 number nearest to `n / d > 0`, ties
to an even last bit; a magnitude beyond the largest finite number gives the infinity. -/
def patMagnitude (n d : Nat) : Nat :=
  let e := max (floorLog2 n d) (-126)
  let q := scaled n (23 - e)
  let bits := (e + 126).toNat * 2 ^ 23 + roundHalfEven q.1 (d * q.2)
  min bits (255 * 2 ^ 23)

/-- `pat(v)` (R21): the pattern with `val (pat v) = v`, and the pattern 0x00000000 for zero.  On a
number that no pattern denotes it gives the nearest pattern, ties to an even last bit, which is
what the assembler of R70 asks for. -/
def pat (v : ℚ) : Pattern :=
  if v = 0 then 0
  else
    BitVec.ofNat 32 ((if v < 0 then 2 ^ 31 else 0) + patMagnitude v.num.natAbs v.den)

/-- `clamp(v, lo, hi)` on what a pattern denotes (R17, R22): an infinity clamps to the bound on its
side.  A NaN has no clamp (R68, I14): `none`. -/
def clampVal (v : FloatVal) (lo hi : ℚ) : Option ℚ :=
  match v with
  | .nan => none
  | .negInf => some lo
  | .posInf => some hi
  | .num q => some (if q < lo then lo else if hi < q then hi else q)

end Sys2Proof.Machine
end

