-- ==== Sys2Proof/Machine/Numerics.lean ====
section
/-!
DEFINITION. The notions every rule of the pipeline derives from the operations of `NUM` (R17, R213):
`clamp`, `min`, `max`, the piecewise choice, sums, fractions, matrix rows.
-/

namespace Sys2Proof.Machine

/-- The choice a comparison makes between two results of any kind. -/
def choose {α : Type} (answer : Option Bool) (join : α → α → α) (yes no : Unit → α) : α :=
  match answer with
  | some true => yes ()
  | some false => no ()
  | none => join (yes ()) (no ())

variable {F : Type} [num : Numerics F]

/-- `if a < b then yes else no` in `F`. -/
def ifLt (a b yes no : F) : F :=
  choose (num.lt? a b) num.join (fun _ => yes) (fun _ => no)

/-- `if a ≤ b then yes else no` in `F`. -/
def ifLe (a b yes no : F) : F :=
  choose (num.le? a b) num.join (fun _ => yes) (fun _ => no)

/-- `clamp(v, lo, hi)`: `lo` if `v < lo`, else `hi` if `v > hi`, else `v` (R17). -/
def clamp (v lo hi : F) : F := ifLt v lo lo (ifLt hi v hi v)

/-- `min(a, b)` (R17). -/
def minOf (a b : F) : F := ifLt b a b a

/-- `max(a, b)` (R17). -/
def maxOf (a b : F) : F := ifLt a b b a

/-- A sum evaluated from left to right, from its first term (R216). -/
def sumLeft (terms : List F) : F :=
  match terms with
  | [] => num.nat 0
  | t :: ts => ts.foldl (· + ·) t

/-- The fraction `a / b` of two naturals, such as 6/29 (R213: in EXACT the fractions are exact). -/
def frac (a b : Nat) : F := num.nat a / num.nat b

/-- A signed integer, such as a kernel offset, in `F`: `ofNat` injects naturals only (R213). -/
def ofInt (d : Int) : F := if 0 ≤ d then num.nat d.toNat else num.nat 0 - num.nat (-d).toNat

/-- One more term `± |c| · x` of a matrix row, added or subtracted as the row is written (R102, R163,
R216). -/
def addTerm (acc : F) (c : ℚ) (x : F) : F :=
  if c < 0 then acc - num.dec (-c) * x else acc + num.dec c * x

/-- One row of a matrix applied to a vector, the three terms in the order written (R102, R163). -/
def dotRow (row : Triple ℚ) (v : Triple F) : F :=
  addTerm (addTerm (num.dec row.c0 * v.c0) row.c1 v.c1) row.c2 v.c2

/-- A matrix applied to a vector (R102, R163). -/
def matVec (m : Matrix3) (v : Triple F) : Triple F :=
  ⟨dotRow m.row0 v, dotRow m.row1 v, dotRow m.row2 v⟩

end Sys2Proof.Machine
end

