-- ==== Sys2Proof/Machine/Enclosure.lean ====
section
/-!
DEFINITION. The executable numerics of the model: an enclosure stands for ONE real number of EXACT,
either known exactly (a rational) or known to lie between two neighbouring multiples of
`2 ^ -encBits`.  `Laws/EnclosureSound.lean` proves of every operation that it encloses the
operation of real analysis R213 names.  DESIGN CHOICE, safe (log entry 1).
-/

namespace Sys2Proof.Machine

/-- What the model knows of a real number: its value, two bounds in units of `2 ^ -encBits`, or
nothing. -/
inductive Enc where
  | exact (q : ℚ)
  | between (lo hi : Int)
  | unknown
deriving DecidableEq, Repr

/-- One unit of the grid is `1 / gridUnit`. -/
@[irreducible] def gridUnit : Nat := 2 ^ Config.encBits

/-- `n / d` rounded towards plus infinity, for a positive `d`. -/
def ceilDiv (n : Int) (d : Int) : Int := -((-n) / d)

/-- The grid bounds of an enclosure. -/
def encGrid : Enc → Option (Int × Int)
  | .exact q => some ((q.num * gridUnit) / q.den, ceilDiv (q.num * gridUnit) q.den)
  | .between lo hi => some (lo, hi)
  | .unknown => none

/-- An operation on grid bounds, `unknown` where an operand is. -/
def liftGrid (f : Int × Int → Int × Int → Enc) (a b : Enc) : Enc :=
  match encGrid a, encGrid b with
  | some x, some y => f x y
  | _, _ => .unknown

/-- The enclosure of zero is recognised, so that `0 · x` and `0 / x` stay exactly 0. -/
def encIsZero : Enc → Bool
  | .exact q => q.num == 0
  | _ => false

/-- Addition. -/
def encAdd (a b : Enc) : Enc :=
  match a, b with
  | .exact p, .exact q => .exact (p + q)
  | a, b => liftGrid (fun x y => .between (x.1 + y.1) (x.2 + y.2)) a b

/-- Subtraction. -/
def encSub (a b : Enc) : Enc :=
  match a, b with
  | .exact p, .exact q => .exact (p - q)
  | a, b => liftGrid (fun x y => .between (x.1 - y.2) (x.2 - y.1)) a b

/-- Multiplication of grid bounds: the least and the greatest of the four products. -/
def gridMul (x y : Int × Int) : Enc :=
  let a := x.1 * y.1
  let b := x.1 * y.2
  let c := x.2 * y.1
  let d := x.2 * y.2
  .between (min (min a b) (min c d) / gridUnit) (ceilDiv (max (max a b) (max c d)) gridUnit)

/-- Multiplication. -/
def encMul (a b : Enc) : Enc :=
  if encIsZero a || encIsZero b then .exact 0
  else
    match a, b with
    | .exact p, .exact q => .exact (p * q)
    | a, b => liftGrid gridMul a b

/-- Division of grid bounds by a positive divisor. -/
def gridDiv (x y : Int × Int) : Enc :=
  if 0 < y.1 then
    .between ((x.1 * gridUnit) / (if 0 ≤ x.1 then y.2 else y.1))
      (ceilDiv (x.2 * gridUnit) (if 0 ≤ x.2 then y.1 else y.2))
  else .unknown

/-- Division; nothing is known of a quotient whose divisor is not seen to be positive, but for
rationals (every divisor of the pipeline is positive, R176 (b)). -/
def encDiv (a b : Enc) : Enc :=
  if encIsZero a then .exact 0
  else
    match a, b with
    | .exact p, .exact q => if q = 0 then .unknown else .exact (p / q)
    | a, b => liftGrid gridDiv a b

/-- The answer of a comparison from the bounds of both sides: `sure` when it must hold, `never`
when it cannot. -/
def decideFrom (sure never : Bool) : Option Bool :=
  if sure then some true else if never then some false else none

/-- `a < b`. -/
def encLt (a b : Enc) : Option Bool :=
  match a, b with
  | .exact p, .exact q => some (decide (p < q))
  | a, b =>
    match encGrid a, encGrid b with
    | some x, some y => decideFrom (decide (x.2 < y.1)) (decide (y.2 ≤ x.1))
    | _, _ => none

/-- `a ≤ b`. -/
def encLe (a b : Enc) : Option Bool :=
  match a, b with
  | .exact p, .exact q => some (decide (p ≤ q))
  | a, b =>
    match encGrid a, encGrid b with
    | some x, some y => decideFrom (decide (x.2 ≤ y.1)) (decide (y.2 < x.1))
    | _, _ => none

/-- The test for zero. -/
def encIsZero? : Enc → Option Bool
  | .exact q => some (q.num == 0)
  | .between lo hi => decideFrom (lo == 0 && hi == 0) (decide (0 < lo) || decide (hi < 0))
  | .unknown => none

/-- An enclosure of both operands. -/
def encJoin (a b : Enc) : Enc :=
  if a = b then a else liftGrid (fun x y => .between (min x.1 y.1) (max x.2 y.2)) a b

/-- The bits of an integer root, highest first: the largest `r' ≥ r` below `r + 2 ^ bits` that
still has `r' ^ k ≤ n`. -/
def irootBits (k n : Nat) : Nat → Nat → Nat
  | 0, r => r
  | bits + 1, r => irootBits k n bits (if (r + 2 ^ bits) ^ k ≤ n then r + 2 ^ bits else r)

/-- The integer `k`-th root of `n`, rounded down, for `k ≥ 1`. -/
def iroot (k n : Nat) : Nat := irootBits k n (Nat.log2 n / k + 1) 0

/-- A rational exponent `num / den` of `pow`, not negative.  The pipeline uses 2.4 = 12/5, 1/3 and
1/2.4 = 5/12 (R213). -/
structure Exponent where
  num : Nat
  den : Nat
deriving DecidableEq, Repr

/-- `gridUnit ^ den * (x / gridUnit) ^ num` for a grid value `x`, as a numerator and denominator: its
`den`-th root is the grid value of `(x / gridUnit) ^ (num / den)`. -/
def powRadicand (e : Exponent) (x : Nat) : Nat × Nat :=
  (x ^ e.num * gridUnit ^ (e.den - e.num), gridUnit ^ (e.num - e.den))

/-- A lower grid bound of `x ^ e`. -/
def powLo (e : Exponent) (x : Nat) : Nat :=
  let n := powRadicand e x
  iroot e.den (n.1 / n.2)

/-- An upper grid bound of `x ^ e`. -/
def powHi (e : Exponent) (x : Nat) : Nat :=
  let n := powRadicand e x
  let m := (n.1 + n.2 - 1) / n.2
  let r := iroot e.den m
  if r ^ e.den = m then r else r + 1

/-- A power with a known exponent, of a base that is not negative. -/
def encPowExp (b : Enc) (e : Exponent) : Enc :=
  match encGrid b with
  | some x =>
    if 0 ≤ x.1 && e.den != 0 then .between (powLo e x.1.toNat) (powHi e x.2.toNat) else .unknown
  | none => .unknown

/-- `pow(b, e)` for a base that is not negative and an exponent known exactly, as every exponent of
the pipeline is. -/
def encPow (b e : Enc) : Enc :=
  match e with
  | .exact q => if 0 ≤ q.num then encPowExp b ⟨q.num.toNat, q.den⟩ else .unknown
  | _ => .unknown

/-- The number of Taylor terms used for `exp`. -/
def expTerms : Nat := 36

/-- A lower grid bound of `Σ_{i ≤ n} y^i / i!`: the term `t`, then the terms after it. -/
def expSumLo (y : Nat) : Nat → Nat → Nat → Nat
  | 0, _, t => t
  | n + 1, i, t => t + expSumLo y n (i + 1) (t * y / (gridUnit * i))

/-- An upper grid bound of `exp` on [0,1]: the terms rounded up, the last one taken three times for
the remainder. -/
def expSumHi (y : Nat) : Nat → Nat → Nat → Nat
  | 0, _, t => 3 * t
  | n + 1, i, t => t + expSumHi y n (i + 1) ((t * y + gridUnit * i - 1) / (gridUnit * i))

/-- `k` squarings, rounded down. -/
def squareLo : Nat → Nat → Nat
  | 0, s => s
  | k + 1, s => squareLo k (s * s / gridUnit)

/-- `k` squarings, rounded up. -/
def squareHi : Nat → Nat → Nat
  | 0, s => s
  | k + 1, s => squareHi k ((s * s + gridUnit - 1) / gridUnit)

/-- How often `u` is halved to lie in [0,1]. -/
def expHalvings (u : Nat) : Nat := if u ≤ gridUnit then 0 else Nat.log2 (u / gridUnit) + 1

/-- A lower grid bound of `exp (u / gridUnit)`. -/
def expGrowLo (u : Nat) : Nat :=
  squareLo (expHalvings u) (expSumLo (u / 2 ^ expHalvings u) expTerms 1 gridUnit)

/-- An upper grid bound of `exp (u / gridUnit)`. -/
def expGrowHi (u : Nat) : Nat :=
  squareHi (expHalvings u)
    (expSumHi ((u + 2 ^ expHalvings u - 1) / 2 ^ expHalvings u) expTerms 1 gridUnit)

/-- `exp(t)` for `t ≤ 0`, as the reciprocal of `exp(-t)`; `exp(0) = 1` exactly. -/
def encExp (t : Enc) : Enc :=
  if encIsZero t then .exact 1
  else
    match encGrid t with
    | some x =>
      if x.2 ≤ 0 then
        let hi := expGrowLo (-x.2).toNat
        let lo := expGrowHi (-x.1).toNat
        .between ((gridUnit * gridUnit / lo : Nat)) (((gridUnit * gridUnit + hi - 1) / hi : Nat))
      else .unknown
    | none => .unknown

/-- `floor(t)` for `t ≥ 0`, where both bounds give one integer. -/
def encFloor (t : Enc) : Option Nat :=
  match t with
  | .exact q => some (q.num / q.den).toNat
  | .between lo hi =>
    if lo / gridUnit = hi / gridUnit then some (lo / gridUnit).toNat else none
  | .unknown => none

/-- The value of a pattern; nothing is known of the value of a pattern that denotes no number (no
parameter register holds one, R22). -/
def encPattern (p : Pattern) : Enc :=
  match val p with
  | .num q => .exact q
  | _ => .unknown

/-- The numerics record the model runs on: enclosures of the reals of EXACT. -/
@[reducible] def encNumerics : Numerics Enc where
  add := encAdd
  sub := encSub
  mul := encMul
  div := encDiv
  nat n := .exact n
  dec := .exact
  pattern := encPattern
  lt? := encLt
  le? := encLe
  isZero? := encIsZero?
  join := encJoin
  undetermined := .unknown
  pow := encPow
  exp := encExp
  floor := encFloor

/-- The reference instance of R14: the default configuration, and EXACT by its enclosures (log entries
1 and 4).  `exec` and `step` are this copy of the hardware. -/
def referenceHardware : Hardware Enc := ⟨Config.defaults, encNumerics, Config.defaults_valid⟩

end Sys2Proof.Machine
end

