-- ==== Sys2Proof/Syntax.lean ====
section
/-!
DEFINITION. The seven host commands of R63, one constructor per row of the opcode table.
-/

namespace Sys2Proof

/-- A command of TCISP (R60, R63).  The stage operations have no encoding and no constructor: only
APPLY invokes them (R8). -/
inductive Instr where
  /-- INIT: construct with defaults (R80). -/
  | init
  /-- GET_PARAMS: the diagnostic accessor (R85). -/
  | getParams
  /-- SET_SHADOW (R81), operand a binary32 pattern. -/
  | setShadow (p : Pattern)
  /-- SET_HIGHLIGHT (R82), operand a binary32 pattern. -/
  | setHighlight (p : Pattern)
  /-- SET_WIDTH (R83), operand a binary32 pattern. -/
  | setWidth (p : Pattern)
  /-- SET_BLUR (R84), operand a binary32 pattern. -/
  | setBlur (p : Pattern)
  /-- APPLY (R86), operands the width and the height of the image in IBUF. -/
  | apply (w h : Dim)
deriving DecidableEq, Repr

end Sys2Proof
end

