-- ==== Sys2Proof/WellFormed.lean ====
section
/-!
DEFINITION. Well-formed instructions: the operand of a SET command is not a NaN pattern (R64, R68).
Every width and height is a legal operand of APPLY, zero included (R65), but on a copy of the hardware
whose fields are narrower than 16 bits only those its fields hold (R14).
-/

namespace Sys2Proof

/-- The operand check of format F (R64): every pattern but a NaN. -/
def operandLegal (p : Pattern) : Bool := !Machine.isNaN p

/-- A well-formed instruction: one that some legal command word stands for (R67). -/
def Instr.wellFormed : Instr → Bool
  | .init => true
  | .getParams => true
  | .setShadow p => operandLegal p
  | .setHighlight p => operandLegal p
  | .setWidth p => operandLegal p
  | .setBlur p => operandLegal p
  | .apply _ _ => true

/-- A width or height that a field of `DIM_BITS` bits holds (R14). -/
def fitsDim (cfg : Cfg) (d : Dim) : Bool := decide (d.toNat < 2 ^ cfg.dimBits)

/-- The sizes of an instruction fit the fields of a copy of the hardware (R14, R65). -/
def Instr.sizesFit (cfg : Cfg) : Instr → Bool
  | .init => true
  | .getParams => true
  | .setShadow _ => true
  | .setHighlight _ => true
  | .setWidth _ => true
  | .setBlur _ => true
  | .apply w h => fitsDim cfg w && fitsDim cfg h

/-- A well-formed instruction of a copy of the hardware: one that some legal command word of it stands
for (R14, R67). -/
def Instr.wellFormedAt (cfg : Cfg) (i : Instr) : Bool := i.wellFormed && i.sizesFit cfg

end Sys2Proof
end

