-- ==== Sys2Proof/Decode.lean ====
section
/-!
DEFINITION. The command decoder (R61 to R68), total and rejecting by name, of any copy of the hardware
(R14: `DIM_BITS` is the width of APPLY's fields) and of the reference instance; the encoder written from
the same table; the little-endian byte serialisation of R43.
-/

namespace Sys2Proof

/-- Why a command word is illegal (R67).  Every one of them ends as code 4 (R173). -/
inductive DecodeError where
  /-- (a) OPC is not one of the seven codes. -/
  | reservedOpcode
  /-- (b) RSV ≠ 0. -/
  | reservedField
  /-- (c) the format is N and OPD ≠ 0. -/
  | operandNotZero
  /-- (d) the format is F and OPD is a NaN pattern. -/
  | nanOperand
  /-- A serialised command that is not 8 bytes long (R61: there is one length). -/
  | wrongLength
deriving DecidableEq, Repr

/-- The field OPC, bits 63:56 (R62). -/
def opcField (w : CommandWord) : BitVec 8 := w.extractLsb' 56 8

/-- The field RSV, bits 55:32 (R62). -/
def rsvField (w : CommandWord) : BitVec 24 := w.extractLsb' 32 24

/-- The field OPD, bits 31:0 (R62). -/
def opdField (w : CommandWord) : BitVec 32 := w.extractLsb' 0 32

/-- Format N: OPD must be zero (R66, R67 (c)). -/
def decodeN (i : Instr) (opd : BitVec 32) : Except DecodeError Instr :=
  if opd = 0 then .ok i else .error .operandNotZero

/-- Format F: OPD is the operand, refused when it is a NaN (R64, R67 (d), R68). -/
def decodeF (mk : Pattern → Instr) (opd : BitVec 32) : Except DecodeError Instr :=
  if Machine.isNaN opd then .error .nanOperand else .ok (mk opd)

/-- A field of `DIM_BITS` bits that begins at bit `start` of OPD, extended with zeros (R14, R65).  A half
of OPD is 16 bits, so a field has no more of them in any copy (R62; log entry 18). -/
def dimField (cfg : Cfg) (start : Nat) (opd : BitVec 32) : Dim :=
  (opd.extractLsb' start (min cfg.dimBits 16)).setWidth 16

/-- Format D: W in the low half of OPD, H in the high half, each `DIM_BITS` wide; W = OPD[15:0] and
H = OPD[31:16] with 16 (R14, R62, R65). -/
def decodeD (cfg : Cfg) (opd : BitVec 32) : Except DecodeError Instr :=
  .ok (.apply (dimField cfg 0 opd) (dimField cfg 16 opd))

/-- The decoder of a copy of the hardware (R14, R63, R67). -/
def decodeAt (cfg : Cfg) (w : CommandWord) : Except DecodeError Instr :=
  if rsvField w ≠ 0 then .error .reservedField
  else if opcField w = 0x01 then decodeN .init (opdField w)
  else if opcField w = 0x02 then decodeN .getParams (opdField w)
  else if opcField w = 0x10 then decodeF .setShadow (opdField w)
  else if opcField w = 0x11 then decodeF .setHighlight (opdField w)
  else if opcField w = 0x12 then decodeF .setWidth (opdField w)
  else if opcField w = 0x13 then decodeF .setBlur (opdField w)
  else if opcField w = 0x20 then decodeD cfg (opdField w)
  else .error .reservedOpcode

/-- The decoder of the reference instance (R63, R65, R67). -/
def decode (w : CommandWord) : Except DecodeError Instr := decodeAt Config.defaults w

/-- The operation code of an instruction (R63). -/
def Instr.opcode : Instr → BitVec 8
  | .init => 0x01
  | .getParams => 0x02
  | .setShadow _ => 0x10
  | .setHighlight _ => 0x11
  | .setWidth _ => 0x12
  | .setBlur _ => 0x13
  | .apply _ _ => 0x20

/-- The operand field of an instruction (R62): zero, the pattern, or H above W. -/
def Instr.operand : Instr → BitVec 32
  | .init => 0
  | .getParams => 0
  | .setShadow p => p
  | .setHighlight p => p
  | .setWidth p => p
  | .setBlur p => p
  | .apply w h => h ++ w

/-- The encoder: OPC, a zero RSV, and OPD (R62). -/
def encode (i : Instr) : CommandWord := i.opcode ++ (0 : BitVec 24) ++ i.operand

/-- A word as bytes, the least significant first (R43, decision D28). -/
def wordBytes : (count : Nat) → Nat → List Byte
  | 0, _ => []
  | n + 1, w => BitVec.ofNat 8 w :: wordBytes n (w / 256)

/-- The number whose bytes, least significant first, are given (R43). -/
def bytesToNat : List Byte → Nat
  | [] => 0
  | b :: bs => b.toNat + 256 * bytesToNat bs

/-- The decoder on a serialised command: 8 bytes, little-endian (R43, R61). -/
def decodeBytes (bs : List Byte) : Except DecodeError Instr :=
  if bs.length = 8 then decode (BitVec.ofNat 64 (bytesToNat bs)) else .error .wrongLength

/-- The instruction the decoder reads from table bits: `w` as `nbits` bits, the bits above zero, laid
out as bytes. -/
def decodeTableWord (nbits w : Nat) : Option Instr :=
  match decodeBytes (wordBytes (max 8 ((nbits + 7) / 8)) (w % 2 ^ nbits)) with
  | .ok i => some i
  | .error _ => none

end Sys2Proof
end

