-- ==== Sys2Proof/Machine/State.lean ====
section
/-!
DEFINITION. The state of one TCISP engine (R7, R21 to R32) as plain data, with its reset value
(R190), and the reasons a step can stop.
-/

namespace Sys2Proof.Machine

/-- The index of a parameter register: `x[0]` to `x[3]` (R17, R21). -/
inductive Param where
  | shadow
  | highlight
  | width
  | radius
deriving DecidableEq, Repr

/-- The four parameter registers (R21), each a binary32 pattern. -/
structure Params where
  /-- `x[0]` P_SHADOW. -/
  shadow : Pattern
  /-- `x[1]` P_HIGHLIGHT. -/
  highlight : Pattern
  /-- `x[2]` P_WIDTH. -/
  width : Pattern
  /-- `x[3]` P_RADIUS. -/
  radius : Pattern
deriving DecidableEq, Repr

/-- The 10-bit status register (R25): ERR in bits 7:0, OUT_VALID in bit 8, BUSY in bit 9.  It has no
other bit; `statusWord` gives the 10 bits the host sees. -/
structure Status where
  err : BitVec 8
  outValid : Bool
  busy : Bool
deriving DecidableEq, Repr

/-- The response of a command (R69). -/
structure Response where
  code : BitVec 8
  data : BitVec 128
deriving DecidableEq, Repr

/-- A frame buffer: the bytes written so far, addresses strictly rising (R27, R28, R40). -/
abbrev Memory := List Host.Cell

/-- What the host does to the engine (R13, R190, R194): a command on the command port, a byte
written into IBUF, or the reset input. -/
inductive HostMove where
  | command (w : CommandWord)
  | writeIbuf (offset : Nat) (b : Byte)
  | reset
deriving DecidableEq, Repr

/-- Faults.  There is none: every accepted command produces a response and nothing is stuck (R88,
R176 (b), `93_implementation_defined.md`); the errors of R170 are next states with an outcome code.
Raised by nobody; safe. -/
inductive Fault where
deriving DecidableEq, Repr

/-- Refusals: what the model gives no meaning. -/
inductive Refusal where
  /-- Raised by `exec` for an instruction without a meaning.  Safe: the run stops.  No arm uses it. -/
  | notModelled (mnemonic : String)
  /-- Raised by the host moves `command` and `writeIbuf`, and by a host read of OBUF, while
  STATUS.BUSY = 1: D00 calls it undefined and I1, I2 say `refuse` (R50, R184, R195).  Safe: the run
  stops.  No run from an idle engine meets it. -/
  | engineBusy
deriving DecidableEq, Repr

/-- The state (R7). -/
structure State where
  /-- The parameter registers `x[0]` to `x[3]` (R21). -/
  x : Params
  /-- STATUS (R25). -/
  status : Status
  /-- OUT_W and OUT_H (R26). -/
  outW : Dim
  outH : Dim
  /-- IBUF: the bytes the host wrote (R27). -/
  ibuf : Memory
  /-- OBUF: the bytes APPLY wrote (R28). -/
  obuf : Memory
  /-- The response most recently delivered, none before the first (R69). -/
  response : Option Response
  /-- The MODEL's own: the host moves still to come, oldest first (log entry 5). -/
  port : List HostMove
  /-- The MODEL's own: which draw of unspecified OBUF contents is in force (log entry 3). -/
  obufEpoch : Nat
deriving DecidableEq, Repr

/-- The constructor defaults (0.3, 0.3, 0.5, 15.0) as binary32 patterns (R21, R80, R190). -/
def defaultParams : Params := ⟨0x3E99999A, 0x3E99999A, 0x3F000000, 0x41700000⟩

/-- The state after reset (R190): the default parameters, STATUS, OUT_W and OUT_H zero, no byte of
either buffer specified, no response and no host move pending. -/
def State.reset : State where
  x := defaultParams
  status := ⟨0, false, false⟩
  outW := 0
  outH := 0
  ibuf := []
  obuf := []
  response := none
  port := []
  obufEpoch := 0

end Sys2Proof.Machine
end

