-- ==== Sys2Proof/Machine/Flags.lean ====
section
/-!
DEFINITION. STATUS, its fields and its outcome codes (R25, R170).  There is no arithmetic flag: no
stage operation records overflow, inexactness or a comparison (R25, R215 (f)).
-/

namespace Sys2Proof.Machine

/-- The outcome codes of R170. -/
inductive Code where
  | ok
  | emptyImage
  | channelCount
  | planeCount
  | illegalCommand
deriving DecidableEq, Repr

/-- The number of an outcome code (R170). -/
def codeBits : Code → BitVec 8
  | .ok => 0
  | .emptyImage => 1
  | .channelCount => 2
  | .planeCount => 3
  | .illegalCommand => 4

/-- STATUS as the ten bits of the status output: BUSY, OUT_VALID, ERR (R25). -/
def statusWord (s : Status) : BitVec 10 :=
  BitVec.ofBool s.busy ++ BitVec.ofBool s.outValid ++ s.err

/-- STATUS.ERR ← c (R25). -/
def setErr (c : Code) (s : Status) : Status := { s with err := codeBits c }

/-- STATUS.OUT_VALID ← b (R25). -/
def setOutValid (b : Bool) (s : Status) : Status := { s with outValid := b }

/-- STATUS.BUSY ← b (R25). -/
def setBusy (b : Bool) (s : Status) : Status := { s with busy := b }

end Sys2Proof.Machine
end

