-- ==== Sys2Proof/Machine/Plane.lean ====
section
/-!
DEFINITION. Planes and images as values (R18): a W×H plane holds one value per pixel, row by row,
row 0 first (R41); the image type of SPLIT carries its channel count (R110).
-/

namespace Sys2Proof.Machine

/-- A plane of size `w × h` (R18): its values in row-major order.  The length is part of the value,
so planes of unequal size cannot meet (R111, decision D30). -/
structure Plane (α : Type) (w h : Nat) where
  px : List α
  size : px.length = w * h

/-- An image of `channels` values per pixel (R110: an image type that carries its channel count). -/
structure Image (α : Type) (w h : Nat) where
  channels : Nat
  plane : Plane (List α) w h
  uniform : ∀ v ∈ plane.px, v.length = channels

variable {α β γ δ : Type} {w h : Nat}

/-- A pointwise operation on one plane (R217). -/
def mapPlane (f : α → β) (p : Plane α w h) : Plane β w h :=
  ⟨p.px.map f, by rw [List.length_map, p.size]⟩

/-- A pointwise operation on two planes of one size (R217). -/
def zipPlane (f : α → β → γ) (p : Plane α w h) (q : Plane β w h) : Plane γ w h :=
  ⟨List.zipWith f p.px q.px, by rw [List.length_zipWith, p.size, q.size, Nat.min_self]⟩

/-- The plane whose value at column `x`, row `y` is `f x y`. -/
def tabulate (w h : Nat) (f : Nat → Nat → α) : Plane α w h :=
  ⟨(List.range (w * h)).map fun i => f (i % w) (i / w), by simp⟩

/-- The value at column `x` and row `y`, `d` outside the plane (no rule reads outside it). -/
def planeAt (p : Plane α w h) (d : α) (x y : Nat) : α := p.px.getD (y * w + x) d

/-- A three-channel image from a plane of triples. -/
def imageOfTriples (p : Plane (Triple α) w h) : Image α w h :=
  ⟨3, mapPlane (fun t => [t.c0, t.c1, t.c2]) p, fun v hv => by
    obtain ⟨t, _, rfl⟩ := List.mem_map.mp hv; rfl⟩

/-- The plane with its columns in the opposite order. -/
def mirrorColumns (p : Plane α w h) (d : α) : Plane α w h :=
  tabulate w h fun x y => planeAt p d (w - 1 - x) y

/-- The plane with its rows in the opposite order. -/
def mirrorRows (p : Plane α w h) (d : α) : Plane α w h :=
  tabulate w h fun x y => planeAt p d x (h - 1 - y)

/-- The plane with columns and rows exchanged. -/
def transposePlane (p : Plane α w h) (d : α) : Plane α h w :=
  tabulate h w fun x y => planeAt p d y x

/-- A plane of one value. -/
def constPlane (w h : Nat) (v : α) : Plane α w h := tabulate w h fun _ _ => v

/-- The choice between two planes that a comparison makes: a plane-level branch of R88. -/
def choosePlane {F : Type} [num : Numerics F] (answer : Option Bool)
    (yes no : Unit → Plane F w h) : Plane F w h :=
  choose answer (zipPlane num.join) yes no

end Sys2Proof.Machine
end

