-- ==== Sys2Proof/Machine/ColourForward.lean ====
section
/-!
DEFINITION. Unit U1, the sRGB→Lab converter: stage operation TOLAB (R100 to R107), over any
numerics record.
-/

namespace Sys2Proof.Machine

variable {F : Type} [num : Numerics F]

/-- The inverse sRGB gamma `lin(c)` of R101; the comparison `c > 0.04045` is strict. -/
def lin (c : F) : F :=
  ifLt (num.dec (4045 / 100000)) c
    (num.pow ((c + num.dec (55 / 1000)) / num.dec (1055 / 1000)) (num.dec (24 / 10)))
    (c / num.dec (1292 / 100))

/-- A channel byte normalised from [0,255] to [0,1]: `v / 255` (R101). -/
def normByte (v : Byte) : F := num.nat v.toNat / num.nat 255

/-- Linear sRGB to XYZ (R102): each coefficient meets its own channel, red first. -/
def toXyz (cfg : Cfg) (rgb : Triple F) : Triple F := matVec cfg.mFwd rgb

/-- The threshold `(6/29)^3` of R104. -/
def labThreshold : F := frac 6 29 * frac 6 29 * frac 6 29

/-- The slope `3·(6/29)^2` of R104 and R162. -/
def labSlope : F := num.nat 3 * (frac 6 29 * frac 6 29)

/-- The Lab nonlinearity `f(t)` of R104. -/
def labF (t : F) : F :=
  ifLt labThreshold t (num.pow t (frac 1 3)) (t / labSlope + frac 4 29)

/-- The storage convention of R20 and R106: `(L·255/100, a + 128, b + 128)`. -/
def storeLab (lab : Triple F) : Triple F :=
  ⟨lab.c0 * num.nat 255 / num.nat 100, lab.c1 + num.nat 128, lab.c2 + num.nat 128⟩

/-- Canonical Lab from XYZ (R103, R105). -/
def xyzToLab (cfg : Cfg) (xyz : Triple F) : Triple F :=
  let fx := labF (xyz.c0 / num.dec cfg.xn)
  let fy := labF (xyz.c1 / num.dec cfg.yn)
  let fz := labF (xyz.c2 / num.dec cfg.zn)
  ⟨num.nat 116 * fy - num.nat 16, num.nat 500 * (fx - fy), num.nat 200 * (fy - fz)⟩

/-- `tolab_px` of R100: one (blue, green, red) pixel to its stored Lab triple. -/
def tolabPx (cfg : Cfg) (p : Triple Byte) : Triple F :=
  let r : F := lin (normByte p.c2)
  let g : F := lin (normByte p.c1)
  let b : F := lin (normByte p.c0)
  storeLab (xyzToLab cfg (toXyz cfg ⟨r, g, b⟩))

/-- Stage operation TOLAB (R100), pointwise. -/
def toLab {w h : Nat} (cfg : Cfg) (img : Plane (Triple Byte) w h) : Plane (Triple F) w h :=
  mapPlane (tolabPx cfg) img

end Sys2Proof.Machine
end

