-- ==== Sys2Proof/Machine/ColourInverse.lean ====
section
/-!
DEFINITION. Unit U6, the Lab→sRGB converter: stage operation TOBGR (R160 to R168), with the one
rounding to 8 bits of the pipeline (R166, R212).
-/

namespace Sys2Proof.Machine

variable {F : Type} [num : Numerics F] {w h : Nat}

/-- Undoing the storage convention (R161): `L = Ls·100/255`, `a = As - 128`, `b = Bs - 128`. -/
def loadLab (s : Triple F) : Triple F :=
  ⟨s.c0 * num.nat 100 / num.nat 255, s.c1 - num.nat 128, s.c2 - num.nat 128⟩

/-- The inverse Lab nonlinearity `finv(t)` of R162; the comparison `t > 6/29` is strict. -/
def labFinv (t : F) : F :=
  ifLt (frac 6 29) t (t * t * t) (labSlope * (t - frac 4 29))

/-- XYZ from canonical Lab (R162). -/
def labToXyz (cfg : Cfg) (lab : Triple F) : Triple F :=
  let fy := (lab.c0 + num.nat 16) / num.nat 116
  let fx := fy + lab.c1 / num.nat 500
  let fz := fy - lab.c2 / num.nat 200
  ⟨num.dec cfg.xn * labFinv fx, num.dec cfg.yn * labFinv fy, num.dec cfg.zn * labFinv fz⟩

/-- XYZ to linear (red, green, blue) (R163). -/
def toRgb (cfg : Cfg) (xyz : Triple F) : Triple F := matVec cfg.mInv xyz

/-- The forward sRGB gamma `gam(c)` of R164; the comparison `c > 0.0031308` is strict. -/
def gam (c : F) : F :=
  ifLt (num.dec (31308 / 10000000)) c
    (num.dec (1055 / 1000) * num.pow c (num.nat 1 / num.dec (24 / 10)) - num.dec (55 / 1000))
    (num.dec (1292 / 100) * c)

/-- The value before rounding, `clamp(t, 0, 1) · 255` (R165). -/
def level (t : F) : F := clamp t (num.nat 0) (num.nat 1) * num.nat 255

/-- Whether `ROUND_TIE` sends the tie between `k` and `k + 1` up (R14). -/
def tieGoesUp (r : RoundTie) (k : Nat) : Bool :=
  match r with
  | .halfUp => true
  | .halfDown => false
  | .halfEven => k % 2 == 1
  | .perTie up => up.getLsbD k

/-- The nearest integer to `v` (R166): `n = floor(v + 1/2)`, but `k = n - 1` where `v` is no more than the
tie `k + 1/2` and `ROUND_TIE` sends that tie down (R14).  `none` where the instance cannot tell. -/
def roundNearest (cfg : Cfg) (v : F) : Option Nat :=
  (num.floor (v + frac 1 2)).bind fun n =>
    let k := n - 1
    if tieGoesUp cfg.roundTie k then some n
    else (num.le? v (num.nat k + frac 1 2)).map fun tie => if tie then k else n

/-- Saturation to 0..255, never a wrap (R166, R212). -/
def saturate (q : Nat) : Byte := BitVec.ofNat 8 (min q 255)

/-- `to_u8(t)` of R166: `none` where the instance cannot tell the integer. -/
def toU8 (cfg : Cfg) (t : F) : Option Byte := (roundNearest cfg (level t)).map saturate

/-- `tobgr_px` of R160 before the rounding: the gamma-encoded (blue, green, red) values. -/
def tobgrLevels (cfg : Cfg) (s : Triple F) : Triple F :=
  let rgb := toRgb cfg (labToXyz cfg (loadLab s))
  ⟨gam rgb.c2, gam rgb.c1, gam rgb.c0⟩

/-- `tobgr_px` of R160: a stored Lab triple to its (blue, green, red) bytes. -/
def tobgrPx (cfg : Cfg) (s : Triple F) : Triple (Option Byte) :=
  let e := tobgrLevels cfg s
  ⟨toU8 cfg e.c0, toU8 cfg e.c1, toU8 cfg e.c2⟩

/-- Stage operation TOBGR (R160), pointwise. -/
def toBgr (cfg : Cfg) (lab : Plane (Triple F) w h) : Plane (Triple (Option Byte)) w h :=
  mapPlane (tobgrPx cfg) lab

end Sys2Proof.Machine
end

