-- ==== Sys2Proof/Machine/Correct.lean ====
section
/-!
DEFINITION. Unit U5, the masked luminance corrector: stage operation CORRECT (R150 to R155).
-/

namespace Sys2Proof.Machine

variable {F : Type} [num : Numerics F] {w h : Nat}

/-- `correct(v, s, h, sa, ha)` of R150, products left to right. -/
def correctPx (cfg : Cfg) (sa ha v s hl : F) : F :=
  let c := v + sa * s * (num.nat 1 - v) * num.dec cfg.kDamp - ha * hl * v * num.dec cfg.kDamp
  let lo := v * num.dec cfg.cMargin
  let hi := num.nat 1 - (num.nat 1 - v) * num.dec cfg.cMargin
  clamp c lo hi

/-- Stage operation CORRECT (R150), pointwise on three planes of one size. -/
def correct (cfg : Cfg) (lum s hl : Plane F w h) (sa ha : F) : Plane F w h :=
  zipPlane (fun v m => correctPx cfg sa ha v m.1 m.2) lum (zipPlane Prod.mk s hl)

end Sys2Proof.Machine
end

