-- ==== Sys2Proof/Machine/Luma.lean ====
section
/-!
DEFINITION. Unit U2, the luminance extractor: stage operations SPLIT, MERGE, NORM and DENORM
(R110 to R114), with the two invalid-input causes of R172.
-/

namespace Sys2Proof.Machine

/-- The invalid-input causes a stage operation can raise (R170, R172). -/
inductive StageError where
  /-- The image does not have exactly 3 channels (R110). -/
  | channelCount
  /-- The list does not hold exactly 3 planes (R111). -/
  | planeCount
deriving DecidableEq, Repr

variable {F : Type} [num : Numerics F] {w h : Nat}

/-- The plane of channel `c` of an image. -/
def channelPlane (im : Image F w h) (c : Nat) : Plane F w h :=
  mapPlane (fun v => v.getD c (num.nat 0)) im.plane

/-- Stage operation SPLIT (R110): channel 0 first, values copied unchanged. -/
def split (im : Image F w h) : Except StageError (List (Plane F w h)) :=
  if im.channels = 3 then .ok [channelPlane im 0, channelPlane im 1, channelPlane im 2]
  else .error .channelCount

/-- Stage operation MERGE (R111).  The three planes have one size by their type (decision D30). -/
def merge (ps : List (Plane F w h)) : Except StageError (Plane (Triple F) w h) :=
  match ps with
  | [l, a, b] => .ok (zipPlane (fun x bc => ⟨x, bc.1, bc.2⟩) l (zipPlane Prod.mk a b))
  | _ => .error .planeCount

/-- Stage operation NORM (R112): division by 255. -/
def normLum (lp : Plane F w h) : Plane F w h := mapPlane (fun v => v / num.nat 255) lp

/-- Stage operation DENORM (R113): multiplication by 255, no clamp and no rounding. -/
def denormLum (cor : Plane F w h) : Plane F w h := mapPlane (fun v => v * num.nat 255) cor

end Sys2Proof.Machine
end

