-- ==== Sys2Proof/Machine/Blur.lean ====
section
/-!
DEFINITION. Unit U3, the adaptive-blur mask generator: stage operations GBLUR and FBLUR (R120 to
R128), and the separable form of R124.
-/

namespace Sys2Proof.Machine

variable {F : Type} [num : Numerics F] {w h : Nat}

/-- The kernel size `max(3, round(2·r + 1) | 1)` of R121, `round` to the nearest integer, ties up
(decision D20).  `none` only where the instance cannot tell the integer. -/
def ksize (r : F) : Option Nat :=
  (num.floor (num.nat 2 * r + num.nat 1 + frac 1 2)).map fun m => max 3 (m ||| 1)

/-- The signed offsets `-half, …, half` of a kernel, ascending (R122, R210). -/
def offsets (half : Nat) : List Int :=
  (List.range (2 * half + 1)).map fun i => (i : Int) - half

/-- The cells `(dx, dy)` of a square kernel, `dy` outermost, both ascending (R216). -/
def cells (half : Nat) : List (Int × Int) :=
  (offsets half).flatMap fun dy => (offsets half).map fun dx => (dx, dy)

/-- The un-normalised weight `g(dx, dy) = exp(-(dx·dx + dy·dy) / (2·r·r))` of R122. -/
def gauss (r : F) (dx dy : Int) : F :=
  let x : F := ofInt dx
  let y : F := ofInt dy
  num.exp ((num.nat 0 - (x * x + y * y)) / (num.nat 2 * r * r))

/-- A kernel cell and its weight. -/
structure Tap (F : Type) where
  dx : Int
  dy : Int
  weight : F

/-- The kernel of R122: the weights `g(dx, dy) / S`, which sum to 1. -/
def kernel (r : F) (half : Nat) : List (Tap F) :=
  let raw := (cells half).map fun c => Tap.mk c.1 c.2 (gauss r c.1 c.2)
  let total := sumLeft (raw.map Tap.weight)
  raw.map fun t => ⟨t.dx, t.dy, t.weight / total⟩

/-- The neighbour test of R123 on signed integers (R210): `0 ≤ x + dx < W` and `0 ≤ y + dy < H`. -/
def inBounds (w h x y : Nat) (dx dy : Int) : Bool :=
  decide (0 ≤ (x : Int) + dx) && decide ((x : Int) + dx < w)
    && decide (0 ≤ (y : Int) + dy) && decide ((y : Int) + dy < h)

/-- The taps of `N(x, y)`: a neighbour outside the plane is left out (R123). -/
def nearTaps (taps : List (Tap F)) (w h x y : Nat) : List (Tap F) :=
  taps.filter fun t => inBounds w h x y t.dx t.dy

/-- The value under a tap. -/
def tapValue (p : Plane F w h) (x y : Nat) (t : Tap F) : F :=
  planeAt p (num.nat 0) ((x : Int) + t.dx).toNat ((y : Int) + t.dy).toNat

/-- The border-renormalised average of R123. -/
def conv (taps : List (Tap F)) (p : Plane F w h) (x y : Nat) : F :=
  let near := nearTaps taps w h x y
  sumLeft (near.map fun t => t.weight * tapValue p x y t) / sumLeft (near.map Tap.weight)

/-- One convolution pass with a kernel of half size `half`: every output pixel is computed from the
input plane (R120, R123). -/
def convPlane (r : F) (half : Nat) (p : Plane F w h) : Plane F w h :=
  let taps := kernel r half
  tabulate w h (conv taps p)

/-- Stage operation GBLUR (R120): the identity below `BLUR_IDENT`, one pass otherwise. -/
def gblur (cfg : Cfg) (p : Plane F w h) (r : F) : Plane F w h :=
  choosePlane (num.lt? r (num.dec cfg.blurIdent)) (fun _ => p) fun _ =>
    match ksize r with
    | some n => convPlane r ((n - 1) / 2) p
    | none => mapPlane (fun _ => num.undetermined) p

/-- Stage operation FBLUR (R126): one pass at `r`, two at `r/2`, or three at `r/3`. -/
def fblur (cfg : Cfg) (p : Plane F w h) (r : F) : Plane F w h :=
  choosePlane (num.le? r (num.dec cfg.fbT1)) (fun _ => gblur cfg p r) fun _ =>
    choosePlane (num.le? r (num.dec cfg.fbT2))
      (fun _ => gblur cfg (gblur cfg p (r / num.nat 2)) (r / num.nat 2))
      fun _ => gblur cfg (gblur cfg (gblur cfg p (r / num.nat 3)) (r / num.nat 3)) (r / num.nat 3)

/-- The one-dimensional weight `g1(d) = exp(-d·d / (2·r·r))` of R124. -/
def gauss1 (r : F) (d : Int) : F :=
  let x : F := ofInt d
  num.exp ((num.nat 0 - x * x) / (num.nat 2 * r * r))

/-- The offsets `d` of `offsets half` with `0 ≤ at + d < size`: `Nx(x)` and `Ny(y)` of R124. -/
def nearOffsets (half size at' : Nat) : List Int :=
  (offsets half).filter fun d =>
    decide (0 ≤ (at' : Int) + d) && decide ((at' : Int) + d < size)

/-- The horizontal pass `row(p)` of R124. -/
def rowPass (r : F) (half : Nat) (p : Plane F w h) : Plane F w h :=
  tabulate w h fun x y =>
    sumLeft ((nearOffsets half w x).map fun d =>
        gauss1 r d * planeAt p (num.nat 0) ((x : Int) + d).toNat y)
      / sumLeft ((nearOffsets half w x).map (gauss1 r))

/-- The vertical pass of R124. -/
def columnPass (r : F) (half : Nat) (p : Plane F w h) : Plane F w h :=
  tabulate w h fun x y =>
    sumLeft ((nearOffsets half h y).map fun d =>
        gauss1 r d * planeAt p (num.nat 0) x ((y : Int) + d).toNat)
      / sumLeft ((nearOffsets half h y).map (gauss1 r))

/-- The separable form of one pass (R124): equal to `convPlane` in EXACT; the square form is the
definition in any other instance. -/
def separablePlane (r : F) (half : Nat) (p : Plane F w h) : Plane F w h :=
  columnPass r half (rowPass r half p)

end Sys2Proof.Machine
end

