-- ==== Sys2Proof/Machine/Masks.lean ====
section
/-!
DEFINITION. Unit U4, the shadow and highlight mask builder: stage operations SMASK0, HMASK0, MBLUR
and RENORM (R135 to R143).
-/

namespace Sys2Proof.Machine

variable {F : Type} [num : Numerics F] {w h : Nat}

/-- The falloff of the shadow mask from 1 at `lo` to P at `t` (R135, `SH_SHAPE`). -/
def shadowFalloff (cfg : Cfg) (v lo t : F) : F :=
  match cfg.shShape with
  | .linear => num.nat 1 - (num.nat 1 - num.dec cfg.shPartial) * (v - lo) / (t - lo)

/-- `smask0(v, tw)` of R135; both comparisons are non-strict. -/
def smask0Px (cfg : Cfg) (tw v : F) : F :=
  let t := num.dec cfg.w1Shadow * tw
  let lo := t * num.dec cfg.w2Full
  ifLe v lo (num.nat 1) (ifLe v t (shadowFalloff cfg v lo t) (num.nat 0))

/-- Stage operation SMASK0 (R135). -/
def smask0 (cfg : Cfg) (lum : Plane F w h) (tw : F) : Plane F w h := mapPlane (smask0Px cfg tw) lum

/-- `hmask0(v, tw)` of R137; both comparisons are non-strict. -/
def hmask0Px (cfg : Cfg) (tw v : F) : F :=
  let t := num.nat 1 - num.dec cfg.w3Highlight * tw
  let lo := num.dec cfg.hlRampLo * t
  ifLe t v (num.nat 1) (ifLe lo v ((v - lo) / (t - lo)) (num.nat 0))

/-- Stage operation HMASK0 (R137). -/
def hmask0 (cfg : Cfg) (lum : Plane F w h) (tw : F) : Plane F w h := mapPlane (hmask0Px cfg tw) lum

/-- `MASK_BLUR_FN` (R14, decision D19). -/
def maskBlur (cfg : Cfg) (m : Plane F w h) (r : F) : Plane F w h :=
  match cfg.maskBlurFn with
  | .fblur => fblur cfg m r
  | .gblur => gblur cfg m r

/-- Stage operation MBLUR (R140): blurred with `min(br, BLUR_RMAX)` when `br > BLUR_EPS`. -/
def mblur (cfg : Cfg) (m : Plane F w h) (br : F) : Plane F w h :=
  choosePlane (num.lt? (num.dec cfg.blurEps) br)
    (fun _ => maskBlur cfg m (minOf br (num.dec cfg.blurRmax))) fun _ => m

/-- The largest value of a plane (R141); 0 for a plane without pixels, which no rule forms. -/
def planeMax (m : Plane F w h) : F :=
  match m.px with
  | [] => num.nat 0
  | v :: vs => vs.foldl maxOf v

/-- Stage operation RENORM (R141): division by the maximum, skipped when the maximum is 0. -/
def renorm (m : Plane F w h) : Plane F w h :=
  let mx := planeMax m
  choosePlane (num.lt? (num.nat 0) mx) (fun _ => mapPlane (fun v => v / mx) m) fun _ => m

/-- The shadow mask of APPLY: `RENORM(MBLUR(SMASK0(lum, tw), br))` (R86). -/
def shadowMask (cfg : Cfg) (lum : Plane F w h) (tw br : F) : Plane F w h :=
  renorm (mblur cfg (smask0 cfg lum tw) br)

/-- The highlight mask of APPLY: `RENORM(MBLUR(HMASK0(lum, tw), br))` (R86). -/
def highlightMask (cfg : Cfg) (lum : Plane F w h) (tw br : F) : Plane F w h :=
  renorm (mblur cfg (hmask0 cfg lum tw) br)

end Sys2Proof.Machine
end

