-- ==== Sys2Proof/Machine/Pipeline.lean ====
section
/-!
DEFINITION. The stage sequence of APPLY (R86, R88, R89), over any numerics record and any
configuration: from an input image and the four parameter values to the output image.
-/

namespace Sys2Proof.Machine

/-- The values of the four parameters, sampled once when APPLY is accepted (R23, R86, R197). -/
structure ParamValues (F : Type) where
  sa : F
  ha : F
  tw : F
  br : F

variable {F : Type} [num : Numerics F] {w h : Nat}

/-- The corrected luminance plane, stages NORM to DENORM of R86.  Both masks are built from the
luminance of the input. -/
def correctedLuma (cfg : Cfg) (v : ParamValues F) (lp : Plane F w h) : Plane F w h :=
  let lum := normLum lp
  let s := shadowMask cfg lum v.tw v.br
  let hl := highlightMask cfg lum v.tw v.br
  denormLum (correct cfg lum s hl v.sa v.ha)

/-- The working image with its L plane replaced: SPLIT to MERGE of R86.  An error of SPLIT or MERGE
ends the call (R172, R175). -/
def correctLab (cfg : Cfg) (v : ParamValues F) (lab : Image F w h) :
    Except StageError (Plane (Triple F) w h) :=
  match split lab with
  | .ok [lp, ap, bp] => merge [correctedLuma cfg v lp, ap, bp]
  | .ok _ => .error .planeCount
  | .error e => .error e

/-- The stages of APPLY from TOLAB to TOBGR (R86). -/
def applyImage (cfg : Cfg) (v : ParamValues F) (img : Plane (Triple Byte) w h) :
    Except StageError (Plane (Triple (Option Byte)) w h) :=
  match correctLab cfg v (imageOfTriples (toLab cfg img)) with
  | .ok lab2 => .ok (toBgr cfg lab2)
  | .error e => .error e

end Sys2Proof.Machine
end

