-- ==== Sys2Proof/Machine/Operands.lean ====
section
/-!
DEFINITION. The operands of the commands: parameter registers and their ranges (R21, R22), the
clamped operand of a SET command, the size operands of APPLY (R65), pixel offsets (R41) and the
parameter values APPLY samples (R23, R86).
-/

namespace Sys2Proof.Machine

/-- `x[i]`, the pattern a parameter register holds (R17). -/
def Params.get (x : Params) : Param → Pattern
  | .shadow => x.shadow
  | .highlight => x.highlight
  | .width => x.width
  | .radius => x.radius

/-- `x[i] <- v` (R17).  The four registers do not alias (R21). -/
def Params.set (x : Params) (i : Param) (v : Pattern) : Params :=
  match i with
  | .shadow => { x with shadow := v }
  | .highlight => { x with highlight := v }
  | .width => { x with width := v }
  | .radius => { x with radius := v }

/-- The lower end of a parameter's range, `P_MIN` (R14, R21). -/
def paramLo : Param → ℚ
  | .shadow => 0
  | .highlight => 0
  | .width => 0
  | .radius => 0

/-- The upper end of a parameter's range, `P_MAX` (R14, R21). -/
def paramHi : Param → ℚ
  | .shadow => 1
  | .highlight => 1
  | .width => 1
  | .radius => 50

/-- What a write of pattern `p` to register `i` stores: `pat(clamp(val(p), lo_i, hi_i))` (R22);
nothing for a NaN (R68). -/
def clampedOperand (i : Param) (p : Pattern) : Option Pattern :=
  (clampVal (val p) (paramLo i) (paramHi i)).map pat

/-- What a parameter register always holds (R22): the pattern of a real number in its range, never
0x80000000. -/
def legalParam (i : Param) (p : Pattern) : Bool :=
  match val p with
  | .num q => decide (paramLo i ≤ q) && decide (q ≤ paramHi i) && p != 0x80000000
  | _ => false

/-- What MBLUR takes of a stored radius, in exact numbers (R140): nothing up to `BLUR_EPS`, and
`min(val(p), BLUR_RMAX)` above it, whichever of the two constants is the larger (log entry 2). -/
def effectiveRadius (cfg : Cfg) (p : Pattern) : EffectiveRadius :=
  match val p with
  | .num q =>
    if cfg.blurEps < q then .blurred (if cfg.blurRmax < q then cfg.blurRmax else q) else .unblurred
  | _ => .noNumber

/-- `off(x, y, c) = 3·(y·W + x) + c` (R41). -/
def off (w x y c : Nat) : Nat := 3 * (y * w + x) + c

/-- `val(x[i])` of the four registers in a numerics record (R86). -/
def paramValues {F : Type} [num : Numerics F] (x : Params) : ParamValues F :=
  ⟨num.pattern x.shadow, num.pattern x.highlight, num.pattern x.width, num.pattern x.radius⟩

/-- The response data of GET_PARAMS: `x[3] ++ x[2] ++ x[1] ++ x[0]` (R69, R85). -/
def paramsData (x : Params) : BitVec 128 := x.radius ++ x.width ++ x.highlight ++ x.shadow

end Sys2Proof.Machine
end

