-- ==== Sys2Proof/Machine/Ops.lean ====
section
/-!
DEFINITION. The operations every meaning is made of: reading and writing the frame buffers (R40 to
R46), delivering a response (R69), taking an error (R174, the whole of this hardware's exception
entry; there is no return, R178), accepting a command (R195) and reset (R190, R192).
-/

namespace Sys2Proof.Machine

/-- The canonical form of a buffer: addresses strictly rising.  An unlisted address holds no written
byte, so no entry can equal what an unlisted address reads as. -/
def Memory.wf : Memory → Bool
  | [] => true
  | [_] => true
  | a :: b :: m => decide (a.1 < b.1) && Memory.wf (b :: m)

/-- The byte written at an address, if one was. -/
def memLookup : Memory → Nat → Option Byte
  | [], _ => none
  | c :: m, a => if c.1 = a then some c.2 else memLookup m a

/-- One byte written (R42), keeping the canonical form. -/
def memWrite : Memory → Nat → Byte → Memory
  | [], a, b => [(a, b)]
  | c :: m, a, b =>
    if a < c.1 then (a, b) :: c :: m
    else if a = c.1 then (a, b) :: m
    else c :: memWrite m a b

/-- Bytes numbered from an address upwards. -/
def cellsFrom : Nat → List Byte → Memory
  | _, [] => []
  | a, b :: bs => (a, b) :: cellsFrom (a + 1) bs

/-- The bytes 0 to `bytes.length - 1` of a buffer written with `bytes`, the others kept (R28, R45). -/
def memStore (m : Memory) (bytes : List Byte) : Memory :=
  cellsFrom 0 bytes ++ m.filter fun c => decide (bytes.length ≤ c.1)

/-- `MemRead(IBUF, a, 1)` (R17, R42): a byte the host never wrote is a free draw, fixed until written
(R193, I16). -/
def readIbuf (s : State) (a : Nat) : Byte := (memLookup s.ibuf a).getD (Config.ibufDraw a)

/-- The byte of OBUF at an address; a byte that no APPLY wrote is a free draw (R190, I16). -/
def readObuf (s : State) (a : Nat) : Byte :=
  (memLookup s.obuf a).getD (Config.obufDraw s.obufEpoch a)

/-- The host's read of OBUF, a move it has only while the engine is idle (R13, R195, I2). -/
def hostReadObuf (s : State) (a : Nat) : Except Refusal Byte :=
  if s.status.busy then .error .engineBusy else .ok (readObuf s a)

/-- `pixel_in(x, y)`, blue first (R42). -/
def pixelIn (s : State) (w x y : Nat) : Triple Byte :=
  ⟨readIbuf s (off w x y 0), readIbuf s (off w x y 1), readIbuf s (off w x y 2)⟩

/-- The W×H image in IBUF (R86). -/
def loadImage (s : State) (w h : Nat) : Plane (Triple Byte) w h := tabulate w h (pixelIn s w)

/-- The bytes of an image in buffer order: pixels row by row, blue, green, red (R41). -/
def imageBytes {α : Type} {w h : Nat} (p : Plane (Triple α) w h) : List α :=
  p.px.flatMap fun t => [t.c0, t.c1, t.c2]

/-- The output bytes of APPLY: each the byte the numerics decides, else the free value of the
operands and the offset (log entry 2). -/
def outputBytes {F : Type} {w h : Nat} (hw : Hardware F) (x : Params) (wd hd : Dim) (img : Plane (Triple Byte) w h)
    (out : Plane (Triple (Option Byte)) w h) : List Byte :=
  (imageBytes out).zipIdx.map fun b =>
    b.1.getD (Config.undecidedByte hw x.shadow x.highlight x.width (effectiveRadius hw.cfg x.radius)
      wd hd (imageBytes img) b.2)

/-- `STATUS.ERR <- c; respond(c, data)`: the one response of a command, after which the engine is
idle (R25, R69, R195). -/
def respond (c : Code) (data : BitVec 128) (s : State) : State :=
  { s with
    status := setBusy false (setErr c s.status)
    response := some ⟨codeBits c, data⟩ }

/-- Taking an error (R174): ERR ← c, OUT_VALID ← 0 if the command is APPLY, the response (c, 0), and
nothing else changes.  No handler runs, no state is saved and no mode changes, so there is nothing
to return from (R178). -/
def raise (c : Code) (isApply : Bool) (s : State) : Host.Outcome State Fault Refusal :=
  .next (respond c 0
    { s with status := if isApply then setOutValid false s.status else s.status })

/-- A command that ends well: the response (0, data) (R170). -/
def succeed (data : BitVec 128) (s : State) : Host.Outcome State Fault Refusal :=
  .next (respond .ok data s)

/-- Acceptance of a command: BUSY ← 1 (R25, R195). -/
def accept (s : State) : State := { s with status := setBusy true s.status }

/-- A SET command (R22, R81 to R84): the clamped operand into register `i`.  A NaN operand is an
illegal command (R67 (d), R68), which the decoder refuses before this is reached. -/
def setParam (i : Param) (p : Pattern) (s : State) : Host.Outcome State Fault Refusal :=
  match clampedOperand i p with
  | some v => succeed 0 { s with x := s.x.set i v }
  | none => raise .illegalCommand false s

/-- The outcome code of a stage error (R170). -/
def stageCode : StageError → Code
  | .channelCount => .channelCount
  | .planeCount => .planeCount

/-- The end of a successful APPLY (R86): the output bytes, OUT_W, OUT_H and OUT_VALID. -/
def commitOutput (w h : Dim) (bytes : List Byte) (s : State) : State :=
  { s with
    obuf := memStore s.obuf bytes
    outW := w
    outH := h
    status := setOutValid true s.status }

/-- The reset input (R190): parameters, STATUS, OUT_W and OUT_H at their reset values, the buffers
kept (I23).  A reset that abandons a command leaves OBUF unspecified (R192, I17): nothing written
and a fresh draw.  No response is delivered for an abandoned command. -/
def hostReset (s : State) : State :=
  { State.reset with
    ibuf := s.ibuf
    obuf := if s.status.busy then [] else s.obuf
    obufEpoch := if s.status.busy then s.obufEpoch + 1 else s.obufEpoch
    port := s.port }

/-- The host's write of one byte of IBUF (R13, R27). -/
def hostWrite (a : Nat) (b : Byte) (s : State) : State := { s with ibuf := memWrite s.ibuf a b }

end Sys2Proof.Machine
end

