-- ==== Sys2Proof/Machine/Apply.lean ====
section
/-!
DEFINITION. The APPLY command (R86, R87), of any copy of the hardware and of the reference instance.
-/

namespace Sys2Proof.Machine

/-- The output plane of APPLY on the image in IBUF with the parameters in the registers, of a copy of
the hardware: its configuration and its numerics (R14, R86). -/
def applyOutputWith {F : Type} (hw : Hardware F) (w h : Dim) (s : State) :
    Except StageError (Plane (Triple (Option Byte)) w.toNat h.toNat) :=
  applyImage (num := hw.num) hw.cfg (paramValues (num := hw.num) s.x) (loadImage s w.toNat h.toNat)

/-- The output plane of APPLY of the reference instance. -/
def applyOutput (w h : Dim) (s : State) :
    Except StageError (Plane (Triple (Option Byte)) w.toNat h.toNat) :=
  applyOutputWith referenceHardware w h s

/-- APPLY (R86) of a copy of the hardware: EMPTY_IMAGE for an image without pixels, before anything is
read (R171); else the pipeline, whose stage errors end the call with their own code (R172) and no
partial result (R87). -/
def applyWith {F : Type} (hw : Hardware F) (w h : Dim) (s : State) :
    Host.Outcome State Fault Refusal :=
  if w = 0 ∨ h = 0 then raise .emptyImage true s
  else
    match applyOutputWith hw w h s with
    | .ok out =>
      succeed 0
        (commitOutput w h (outputBytes hw s.x w h (loadImage s w.toNat h.toNat) out) s)
    | .error e => raise (stageCode e) true s

/-- APPLY (R86) of the reference instance (log entry 4). -/
def execApply (w h : Dim) (s : State) : Host.Outcome State Fault Refusal :=
  applyWith referenceHardware w h s

end Sys2Proof.Machine
end

