-- ==== Sys2Proof/Machine/Commands.lean ====
section
/-!
DEFINITION. The parameter commands: INIT, SET_SHADOW, SET_HIGHLIGHT, SET_WIDTH, SET_BLUR and
GET_PARAMS (R80 to R85).
-/

namespace Sys2Proof.Machine

/-- INIT (R80): the four registers at their defaults; OUT_VALID, OUT_W, OUT_H and OBUF kept. -/
def execInit (s : State) : Host.Outcome State Fault Refusal := succeed 0 { s with x := defaultParams }

/-- GET_PARAMS (R85): the stored patterns in the response, no register changed. -/
def execGetParams (s : State) : Host.Outcome State Fault Refusal := succeed (paramsData s.x) s

/-- SET_SHADOW (R81). -/
def execSetShadow (p : Pattern) (s : State) : Host.Outcome State Fault Refusal := setParam .shadow p s

/-- SET_HIGHLIGHT (R82). -/
def execSetHighlight (p : Pattern) (s : State) : Host.Outcome State Fault Refusal :=
  setParam .highlight p s

/-- SET_WIDTH (R83). -/
def execSetWidth (p : Pattern) (s : State) : Host.Outcome State Fault Refusal := setParam .width p s

/-- SET_BLUR (R84). -/
def execSetBlur (p : Pattern) (s : State) : Host.Outcome State Fault Refusal := setParam .radius p s

end Sys2Proof.Machine
end

