-- ==== Sys2Proof/Machine/Dispatch.lean ====
section
/-! DEFINITION. One arm per command, each one direct call of its meaning. -/

namespace Sys2Proof.Machine

def exec (i : Instr) (s : State) : Host.Outcome State Fault Refusal :=
  match i with
  | .init => Sys2Proof.Machine.execInit s
  | .getParams => Sys2Proof.Machine.execGetParams s
  | .setShadow p => Sys2Proof.Machine.execSetShadow p s
  | .setHighlight p => Sys2Proof.Machine.execSetHighlight p s
  | .setWidth p => Sys2Proof.Machine.execSetWidth p s
  | .setBlur p => Sys2Proof.Machine.execSetBlur p s
  | .apply w h => Sys2Proof.Machine.execApply w h s

end Sys2Proof.Machine
end

