-- ==== Sys2Proof/Machine/Port.lean ====
section
/-!
DEFINITION. The command port: what the engine does with the next host move (R13, R173, R195).
-/

namespace Sys2Proof.Machine

/-- `exec` of any copy of the hardware (R14: the step function takes `CFG`, `NUM` in it): of the commands
only APPLY reads the configuration (R31). -/
def execAt {F : Type} (hw : Hardware F) (i : Instr) (s : State) :
    Host.Outcome State Fault Refusal :=
  match i with
  | .init => execInit s
  | .getParams => execGetParams s
  | .setShadow p => execSetShadow p s
  | .setHighlight p => execSetHighlight p s
  | .setWidth p => execSetWidth p s
  | .setBlur p => execSetBlur p s
  | .apply w h => applyWith hw w h s

/-- What an instance does with an accepted instruction. -/
abbrev Executor := Instr → State → Host.Outcome State Fault Refusal

/-- A delivered command word: accepted, decoded by the copy at hand (R14), and executed or refused as
illegal (R173, R195).  The decoder comes before any rule of the command itself (R175). -/
def runCommand (cfg : Cfg) (run : Executor) (w : CommandWord) (s : State) :
    Host.Outcome State Fault Refusal :=
  match decodeAt cfg w with
  | .ok i => run i (accept s)
  | .error _ => raise .illegalCommand false (accept s)

/-- One host move on a state whose port no longer holds it.  While BUSY = 1 the host has no move but
reset (R192, R195, I1, I2). -/
def hostMove (cfg : Cfg) (run : Executor) (m : HostMove) (s : State) :
    Host.Outcome State Fault Refusal :=
  match m with
  | .reset => .next (hostReset s)
  | .command w => if s.status.busy then .refused .engineBusy else runCommand cfg run w s
  | .writeIbuf a b => if s.status.busy then .refused .engineBusy else .next (hostWrite a b s)

/-- The next host move, or an idle step when none is pending (R186). -/
def nextMove (cfg : Cfg) (run : Executor) (s : State) : Host.Outcome State Fault Refusal :=
  match s.port with
  | [] => .next s
  | m :: rest => hostMove cfg run m { s with port := rest }

/-- One step of any copy of the hardware (R14). -/
def stepAt {F : Type} (hw : Hardware F) (s : State) : Host.Outcome State Fault Refusal :=
  nextMove hw.cfg (execAt hw) s

/-- `s` idle, with a table word as the next command on the port. -/
def offerWord (s : State) (nbits w : Nat) : State :=
  { s with
    status := setBusy false s.status
    port := .command (BitVec.ofNat 64 (w % 2 ^ nbits)) :: s.port }

end Sys2Proof.Machine
end

