-- ==== Sys2Proof/Machine/Step.lean ====
section
/-!
DEFINITION. One step of the machine: one host move, a command from acceptance to response (R24, R48).
-/

namespace Sys2Proof.Machine

/-- One step: the next host move (R48: commands take effect in order, each completely). -/
def step (s : State) : Host.Outcome State Fault Refusal := nextMove Config.defaults exec s

/-- `s` with a table word placed where the next step fetches its command: at the head of the command
port of an idle engine. -/
def State.withFetchWord (s : State) (nbits w : Nat) : State := offerWord s nbits w

end Sys2Proof.Machine
end

