-- ==== Sys2Proof/Machine/Exact.lean ====
section
/-!
DEFINITION. EXACT, the reference numerics of R19 and R213: the real numbers with the functions of
real analysis.  It is a specification, not a program (R213): `step` does not use it; claims compare
the enclosures `step` computes with it.
-/

namespace Sys2Proof.Machine

/-- EXACT (R19, R213). -/
@[reducible] noncomputable def exactNumerics : Numerics ℝ where
  add a b := a + b
  sub a b := a - b
  mul a b := a * b
  div a b := a / b
  nat n := (n : ℝ)
  dec q := (q : ℝ)
  pattern p := match val p with
    | .num q => (q : ℝ)
    | _ => 0
  lt? a b := some (@decide (a < b) (Classical.propDecidable _))
  le? a b := some (@decide (a ≤ b) (Classical.propDecidable _))
  isZero? a := some (@decide (a = 0) (Classical.propDecidable _))
  join a _ := a
  undetermined := 0
  pow b e := b ^ e
  exp t := Real.exp t
  floor t := some ⌊t⌋₊

/-- The output image of APPLY in EXACT with a configuration. -/
noncomputable def exactOutput {w h : Nat} (cfg : Cfg) (x : Params) (img : Plane (Triple Byte) w h) :
    Except StageError (Plane (Triple (Option Byte)) w h) :=
  applyImage (num := exactNumerics) cfg (paramValues (num := exactNumerics) x) img

/-- An enclosure stands for a real number: the number it names exactly, or one between its bounds
in units of `2 ^ -encBits`, or any number. -/
def encloses : Enc → ℝ → Prop
  | .exact q, x => x = (q : ℝ)
  | .between lo hi, x => (lo : ℝ) ≤ x * (gridUnit : ℝ) ∧ x * (gridUnit : ℝ) ≤ (hi : ℝ)
  | .unknown, _ => True

end Sys2Proof.Machine
end

