-- ==== Sys2Proof/Laws/Numerics.lean ====
section
/-!
SUPPORT. The operations of EXACT are those of the real numbers, and the piecewise notions reduce to
their plain real forms (R19, R213).
-/

namespace Sys2Proof.Machine

@[simp] theorem exact_nat (n : Nat) : exactNumerics.nat n = (n : ℝ) := rfl
@[simp] theorem exact_dec (q : ℚ) : exactNumerics.dec q = (q : ℝ) := rfl
@[simp] theorem exact_pow (b e : ℝ) : exactNumerics.pow b e = b ^ e := rfl
@[simp] theorem exact_exp (t : ℝ) : exactNumerics.exp t = Real.exp t := rfl
@[simp] theorem exact_floor (t : ℝ) : exactNumerics.floor t = some ⌊t⌋₊ := rfl
@[simp] theorem exact_add (a b : ℝ) :
    @HAdd.hAdd ℝ ℝ ℝ (@instHAdd ℝ exactNumerics.toAdd) a b = a + b := rfl
@[simp] theorem exact_sub (a b : ℝ) :
    @HSub.hSub ℝ ℝ ℝ (@instHSub ℝ exactNumerics.toSub) a b = a - b := rfl
@[simp] theorem exact_mul (a b : ℝ) :
    @HMul.hMul ℝ ℝ ℝ (@instHMul ℝ exactNumerics.toMul) a b = a * b := rfl
@[simp] theorem exact_div (a b : ℝ) :
    @HDiv.hDiv ℝ ℝ ℝ (@instHDiv ℝ exactNumerics.toDiv) a b = a / b := rfl

theorem exact_pattern {p : Pattern} {q : ℚ} (h : val p = .num q) :
    exactNumerics.pattern p = (q : ℝ) := by
  show (match val p with | .num q => (q : ℝ) | _ => 0) = _
  rw [h]

/-- The test for zero in EXACT. -/
theorem exact_isZero (a : ℝ) [Decidable (a = 0)] :
    exactNumerics.isZero? a = some (decide (a = 0)) := by
  show some (@decide (a = 0) (Classical.propDecidable _)) = _
  congr

/-- A choice in EXACT takes the branch the comparison names. -/
theorem exact_choose_lt {α : Type} (a b : ℝ) (j : α → α → α) (yes no : Unit → α)
    [Decidable (a < b)] :
    choose (exactNumerics.lt? a b) j yes no = if a < b then yes () else no () := by
  show choose (some (@decide (a < b) (Classical.propDecidable _))) j yes no = _
  by_cases h : a < b <;> simp [choose, h]

theorem exact_choose_le {α : Type} (a b : ℝ) (j : α → α → α) (yes no : Unit → α)
    [Decidable (a ≤ b)] :
    choose (exactNumerics.le? a b) j yes no = if a ≤ b then yes () else no () := by
  show choose (some (@decide (a ≤ b) (Classical.propDecidable _))) j yes no = _
  by_cases h : a ≤ b <;> simp [choose, h]

theorem exact_ifLt (a b yes no : ℝ) [Decidable (a < b)] :
    ifLt (num := exactNumerics) a b yes no = if a < b then yes else no :=
  exact_choose_lt a b _ _ _

theorem exact_ifLe (a b yes no : ℝ) [Decidable (a ≤ b)] :
    ifLe (num := exactNumerics) a b yes no = if a ≤ b then yes else no :=
  exact_choose_le a b _ _ _

@[simp] theorem exact_frac (a b : Nat) : frac (num := exactNumerics) a b = (a : ℝ) / b := rfl

theorem exact_clamp (v lo hi : ℝ) (h : lo ≤ hi) :
    clamp (num := exactNumerics) v lo hi = max lo (min v hi) := by
  classical
  unfold clamp
  rw [exact_ifLt, exact_ifLt]
  split
  · next h1 => rw [min_eq_left (h1.le.trans h), max_eq_left h1.le]
  · next h1 =>
    split
    · next h2 => rw [min_eq_right h2.le, max_eq_right h]
    · next h2 => rw [min_eq_left (not_lt.mp h2), max_eq_right (not_lt.mp h1)]

theorem exact_minOf (a b : ℝ) : minOf (num := exactNumerics) a b = min a b := by
  classical
  unfold minOf
  rw [exact_ifLt]
  split
  · next h => exact (min_eq_right h.le).symm
  · next h => exact (min_eq_left (not_lt.mp h)).symm

theorem exact_maxOf (a b : ℝ) : maxOf (num := exactNumerics) a b = max a b := by
  classical
  unfold maxOf
  rw [exact_ifLt]
  split
  · next h => exact (max_eq_right h.le).symm
  · next h => exact (max_eq_left (not_lt.mp h)).symm

theorem exact_sumLeft (l : List ℝ) : sumLeft (num := exactNumerics) l = l.sum := by
  have h : ∀ (l : List ℝ) (a : ℝ),
      l.foldl (fun x y => @HAdd.hAdd ℝ ℝ ℝ (@instHAdd ℝ exactNumerics.toAdd) x y) a = a + l.sum := by
    intro l
    induction l with
    | nil => intro a; simp
    | cons x l ih => intro a; rw [List.foldl_cons, ih, exact_add, List.sum_cons, add_assoc]
  cases l with
  | nil => simp [sumLeft]
  | cons x l => rw [List.sum_cons]; exact h l x

/-- With ties going up the rounding is the pseudocode of R166, in any numerics record. -/
theorem roundNearest_halfUp {F : Type} [num : Numerics F] {cfg : Cfg} (h : cfg.roundTie = .halfUp)
    (v : F) : roundNearest cfg v = num.floor (v + frac 1 2) := by
  unfold roundNearest
  rw [h]
  cases num.floor (v + frac 1 2) <;> rfl

/-- The rounding in EXACT, by any rule for ties (R14, R166). -/
theorem exact_roundNearest (cfg : Cfg) (v : ℝ) [Decidable (v ≤ ((⌊v + 1 / 2⌋₊ - 1 : Nat) : ℝ) + 1 / 2)] :
    roundNearest (num := exactNumerics) cfg v
      = some (if tieGoesUp cfg.roundTie (⌊v + 1 / 2⌋₊ - 1) = false
            ∧ v ≤ ((⌊v + 1 / 2⌋₊ - 1 : Nat) : ℝ) + 1 / 2
          then ⌊v + 1 / 2⌋₊ - 1 else ⌊v + 1 / 2⌋₊) := by
  have hle : ∀ a b : ℝ, exactNumerics.le? a b = some (@decide (a ≤ b) (Classical.propDecidable _)) :=
    fun _ _ => rfl
  unfold roundNearest
  simp only [exact_add, exact_frac, exact_floor, exact_nat, Option.bind_some, hle, Nat.cast_one,
    Nat.cast_ofNat, Option.map_some]
  cases tieGoesUp cfg.roundTie (⌊v + 1 / 2⌋₊ - 1)
  · by_cases v ≤ ((⌊v + 1 / 2⌋₊ - 1 : Nat) : ℝ) + 1 / 2 <;> simp
  · simp

/-- A kernel offset in EXACT is the integer it is. -/
@[simp] theorem exact_ofInt (d : Int) : ofInt (num := exactNumerics) d = (d : ℝ) := by
  have cast : ∀ e : Int, 0 ≤ e → ((e.toNat : Nat) : ℝ) = (e : ℝ) := fun e he => by
    exact_mod_cast congrArg (fun z : Int => (z : ℝ)) (Int.toNat_of_nonneg he)
  unfold ofInt
  split
  · next h => rw [exact_nat, cast d h]
  · next h => rw [exact_sub, exact_nat, exact_nat, cast (-d) (by omega)]; push_cast; ring

theorem exact_addTerm (acc : ℝ) (c : ℚ) (x : ℝ) :
    addTerm (num := exactNumerics) acc c x = acc + (c : ℝ) * x := by
  unfold addTerm
  split
  · rw [exact_sub, exact_mul, exact_dec]; push_cast; ring
  · rw [exact_add, exact_mul, exact_dec]

/-- A matrix row in EXACT is the scalar product. -/
theorem exact_dotRow (row : Triple ℚ) (v : Triple ℝ) :
    dotRow (num := exactNumerics) row v
      = (row.c0 : ℝ) * v.c0 + (row.c1 : ℝ) * v.c1 + (row.c2 : ℝ) * v.c2 := by
  unfold dotRow
  rw [exact_addTerm, exact_addTerm, exact_mul, exact_dec]

/-- The fractions of R104 in EXACT: `(6/29)^3 = 216/24389` and `3·(6/29)^2 = 108/841`. -/
theorem exact_labThreshold : labThreshold (num := exactNumerics) = (216 / 24389 : ℝ) := by
  unfold labThreshold
  rw [exact_mul, exact_mul, exact_frac]; norm_num

theorem exact_labSlope : labSlope (num := exactNumerics) = (108 / 841 : ℝ) := by
  unfold labSlope
  rw [exact_mul, exact_mul, exact_frac, exact_nat]; norm_num

end Sys2Proof.Machine
end

