-- ==== Sys2Proof/Laws/Binary32.lean ====
section
/-!
SUPPORT. `val` and `pat` are inverse on every pattern of a number but the negative zero (R21), and a
clamped operand is a legal register value (R22).
-/

namespace Sys2Proof.Machine

theorem expField_lt (p : Pattern) : expField p < 256 := by
  have := (p.extractLsb' 23 8).isLt; simpa [expField] using this

theorem fracField_lt (p : Pattern) : fracField p < 2 ^ 23 := by
  have := (p.extractLsb' 0 23).isLt; simpa [fracField] using this

theorem expField_eq (p : Pattern) : expField p = p.toNat / 2 ^ 23 % 2 ^ 8 := by
  simp [expField, BitVec.extractLsb'_toNat, Nat.shiftRight_eq_div_pow]

theorem fracField_eq (p : Pattern) : fracField p = p.toNat % 2 ^ 23 := by
  simp [fracField, BitVec.extractLsb'_toNat]

theorem signBit_eq (p : Pattern) : signBit p = decide (2 ^ 31 ≤ p.toNat) := by
  have h := p.isLt
  rw [signBit, BitVec.getLsbD, Nat.testBit_eq_decide_div_mod_eq]
  congr 1
  apply propext
  constructor <;> intro _ <;> omega

/-- A pattern from its three fields (R21). -/
theorem pattern_fields (p : Pattern) :
    p.toNat = (if signBit p then 2 ^ 31 else 0) + expField p * 2 ^ 23 + fracField p := by
  have h := p.isLt
  rw [signBit_eq, expField_eq, fracField_eq]
  by_cases hs : 2 ^ 31 ≤ p.toNat
  · rw [if_pos (by simpa using hs)]; omega
  · rw [if_neg (by simpa using hs)]; omega

/-- The significand of a finite pattern. -/
def significand (p : Pattern) : Nat :=
  if expField p = 0 then fracField p else fracField p + 2 ^ 23

theorem magnitude_eq (p : Pattern) :
    magnitude p = (significand p : ℚ) * 2 ^ ((max (expField p) 1 : Int) - 150) := by
  unfold magnitude
  simp only
  rw [show (if expField p = 0 then fracField p else fracField p + 2 ^ 23) = significand p from rfl]
  have hz : ∀ e : Int, 0 ≤ e → (2 : ℚ) ^ e.toNat = 2 ^ e := fun e he => by
    rw [← zpow_natCast, Int.toNat_of_nonneg he]
  generalize expField p = x
  split
  · next h =>
    have e1 : max x 1 - 150 = ((max (x : Int) 1) - 150).toNat := by omega
    push_cast
    rw [e1, hz _ (by omega)]
  · next h =>
    have e1 : 150 - max x 1 = (-((max (x : Int) 1) - 150)).toNat := by omega
    rw [Rat.mkRat_eq_div, div_eq_mul_inv]
    push_cast
    rw [e1, hz _ (by omega), ← zpow_neg, neg_neg]

theorem magnitude_nonneg (p : Pattern) : 0 ≤ magnitude p := by
  rw [magnitude_eq]; positivity

/-- The integer logarithm: `2 ^ e ≤ n / d < 2 ^ (e + 1)`. -/
theorem floorLog2_spec {n d : Nat} (hn : 0 < n) (hd : 0 < d) :
    (2 : ℚ) ^ floorLog2 n d ≤ (n : ℚ) / d ∧ (n : ℚ) / d < 2 ^ (floorLog2 n d + 1) := by
  have hd' : (0 : ℚ) < d := by exact_mod_cast hd
  have two : (2 : ℚ) ≠ 0 := by norm_num
  have n1 : (2 : ℚ) ^ (Nat.log2 n : Int) ≤ n := by
    rw [zpow_natCast]; exact_mod_cast Nat.log2_self_le hn.ne'
  have n2 : (n : ℚ) < 2 ^ ((Nat.log2 n : Int) + 1) := by
    rw [← Nat.cast_succ, zpow_natCast]; exact_mod_cast Nat.lt_log2_self
  have d1 : (2 : ℚ) ^ (Nat.log2 d : Int) ≤ d := by
    rw [zpow_natCast]; exact_mod_cast Nat.log2_self_le hd.ne'
  have d2 : (d : ℚ) < 2 ^ ((Nat.log2 d : Int) + 1) := by
    rw [← Nat.cast_succ, zpow_natCast]; exact_mod_cast Nat.lt_log2_self
  set e : Int := (Nat.log2 n : Int) - Nat.log2 d with he
  have test : d * 2 ^ e.toNat ≤ n * 2 ^ (-e).toNat ↔ (2 : ℚ) ^ e ≤ (n : ℚ) / d := by
    rw [le_div_iff₀ hd']
    rcases le_total 0 e with h | h
    · have e1 : (-e).toNat = 0 := by omega
      have e2 : (2 : ℚ) ^ e = 2 ^ e.toNat := by
        rw [← zpow_natCast, Int.toNat_of_nonneg h]
      rw [e1, e2, pow_zero, Nat.mul_one, mul_comm d]
      exact_mod_cast Iff.rfl
    · have e1 : e.toNat = 0 := by omega
      have e2 : (2 : ℚ) ^ e = ((2 : ℚ) ^ (-e).toNat)⁻¹ := by
        rw [← zpow_natCast, Int.toNat_of_nonneg (by omega), ← zpow_neg, neg_neg]
      have hp : (0 : ℚ) < (2 : ℚ) ^ (-e).toNat := by positivity
      rw [e1, e2, pow_zero, Nat.mul_one, inv_mul_le_iff₀ hp, mul_comm n]
      exact_mod_cast Iff.rfl
  have up : (n : ℚ) / d < 2 ^ (e + 1) := by
    rw [div_lt_iff₀ hd']
    refine lt_of_lt_of_le n2 ?_
    calc (2 : ℚ) ^ ((Nat.log2 n : Int) + 1) = 2 ^ (e + 1) * 2 ^ (Nat.log2 d : Int) := by
          rw [← zpow_add₀ two]; congr 1; omega
      _ ≤ 2 ^ (e + 1) * d := mul_le_mul_of_nonneg_left d1 (by positivity)
  have low : (2 : ℚ) ^ (e - 1) ≤ (n : ℚ) / d := by
    rw [le_div_iff₀ hd']
    refine le_trans ?_ n1
    calc (2 : ℚ) ^ (e - 1) * d ≤ 2 ^ (e - 1) * 2 ^ ((Nat.log2 d : Int) + 1) :=
          mul_le_mul_of_nonneg_left d2.le (by positivity)
      _ = 2 ^ (Nat.log2 n : Int) := by rw [← zpow_add₀ two]; congr 1; omega
  unfold floorLog2
  simp only
  rw [← he]
  split
  · next h => exact ⟨test.mp h, up⟩
  · next h =>
    have h' := not_le.mp (mt test.mpr h)
    exact ⟨low, by rwa [sub_add_cancel]⟩

theorem floorLog2_unique {n d : Nat} (hn : 0 < n) (hd : 0 < d) {e : Int}
    (h1 : (2 : ℚ) ^ e ≤ (n : ℚ) / d) (h2 : (n : ℚ) / d < 2 ^ (e + 1)) : floorLog2 n d = e := by
  obtain ⟨f1, f2⟩ := floorLog2_spec hn hd
  have a := (zpow_lt_zpow_iff_right₀ (by norm_num : (1 : ℚ) < 2)).mp (lt_of_le_of_lt h1 f2)
  have b := (zpow_lt_zpow_iff_right₀ (by norm_num : (1 : ℚ) < 2)).mp (lt_of_le_of_lt f1 h2)
  omega

theorem floorLog2_le {n d : Nat} (hn : 0 < n) (hd : 0 < d) {e : Int}
    (h : (n : ℚ) / d < 2 ^ (e + 1)) : floorLog2 n d ≤ e := by
  obtain ⟨f1, _⟩ := floorLog2_spec hn hd
  have := (zpow_lt_zpow_iff_right₀ (by norm_num : (1 : ℚ) < 2)).mp (lt_of_le_of_lt f1 h)
  omega

/-- An exact quotient rounds to itself. -/
theorem roundHalfEven_exact {k d : Nat} (hd : 0 < d) : roundHalfEven (k * d) d = k := by
  unfold roundHalfEven
  simp [Nat.mul_div_cancel _ hd, hd]

theorem scaled_ratio (n d : Nat) (e : Int) :
    ((scaled n e).1 : ℚ) / ((d * (scaled n e).2 : Nat) : ℚ) = (n : ℚ) / d * 2 ^ e := by
  unfold scaled
  push_cast
  rcases le_total 0 e with h | h
  · have e1 : (-e).toNat = 0 := by omega
    rw [e1, pow_zero, mul_one, ← zpow_natCast, Int.toNat_of_nonneg h]; ring
  · have e1 : e.toNat = 0 := by omega
    have e2 : (2 : ℚ) ^ e = ((2 : ℚ) ^ (-e).toNat)⁻¹ := by
      rw [← zpow_natCast, Int.toNat_of_nonneg (by omega), ← zpow_neg, neg_neg]
    rw [e1, pow_zero, mul_one, e2, div_mul_eq_div_div, div_eq_mul_inv (_ / _)]

theorem scaled_round {n d k : Nat} {e : Int} (hd : 0 < d) (h : (n : ℚ) / d * 2 ^ e = k) :
    roundHalfEven (scaled n e).1 (d * (scaled n e).2) = k := by
  have hpos : 0 < d * (scaled n e).2 := Nat.mul_pos hd (Nat.two_pow_pos _)
  have hq : ((scaled n e).1 : ℚ) = ((k * (d * (scaled n e).2) : Nat) : ℚ) := by
    have := scaled_ratio n d e
    rw [h, div_eq_iff (by exact_mod_cast hpos.ne')] at this
    rw [this]; push_cast; ring
  have hn : (scaled n e).1 = k * (d * (scaled n e).2) := by exact_mod_cast hq
  rw [hn, roundHalfEven_exact hpos]

/-- The magnitude bits of a finite non-zero pattern's value are its own. -/
theorem patMagnitude_of_pattern {p : Pattern} (hfin : expField p < 255) {n d : Nat} (hn : 0 < n)
    (hd : 0 < d) (h : (n : ℚ) / d = magnitude p) :
    patMagnitude n d = expField p * 2 ^ 23 + fracField p := by
  have two : (2 : ℚ) ≠ 0 := by norm_num
  have hf := fracField_lt p
  rw [magnitude_eq] at h
  unfold patMagnitude
  simp only
  by_cases h0 : expField p = 0
  · have hsig : significand p = fracField p := by simp [significand, h0]
    rw [hsig, h0, show (max ((0 : Nat) : Int) 1 - 150 : Int) = -149 by decide] at h
    have hlt : (n : ℚ) / d < 2 ^ ((-127 : Int) + 1) := by
      rw [h]
      have : (fracField p : ℚ) < 2 ^ (23 : Int) := by rw [zpow_ofNat]; exact_mod_cast hf
      calc (fracField p : ℚ) * 2 ^ (-149 : Int) < 2 ^ (23 : Int) * 2 ^ (-149 : Int) :=
            mul_lt_mul_of_pos_right this (by positivity)
        _ = 2 ^ ((-127 : Int) + 1) := by rw [← zpow_add₀ two]; norm_num
    have hE : max (floorLog2 n d) (-126) = -126 := by
      have := floorLog2_le hn hd hlt; omega
    rw [hE, scaled_round hd (k := fracField p)]
    · rw [h0]; norm_num; omega
    · rw [h, mul_assoc, ← zpow_add₀ two, show (-149 + (23 - -126) : Int) = 0 by decide, zpow_zero,
        mul_one]
  · have hsig : significand p = fracField p + 2 ^ 23 := by simp [significand, h0]
    have hmax : max (expField p : Int) 1 = expField p := by omega
    rw [hsig, hmax] at h
    have s1 : (2 : ℚ) ^ (23 : Int) ≤ ((fracField p + 2 ^ 23 : Nat) : ℚ) := by
      rw [zpow_ofNat]; push_cast; linarith [Nat.cast_nonneg (α := ℚ) (fracField p)]
    have s2 : ((fracField p + 2 ^ 23 : Nat) : ℚ) < (2 : ℚ) ^ (24 : Int) := by
      rw [zpow_ofNat]
      have : fracField p + 2 ^ 23 < 2 ^ 24 := by omega
      exact_mod_cast this
    have hL : floorLog2 n d = (expField p : Int) - 127 := by
      refine floorLog2_unique hn hd ?_ ?_
      · rw [h]
        calc (2 : ℚ) ^ ((expField p : Int) - 127)
            = 2 ^ (23 : Int) * 2 ^ ((expField p : Int) - 150) := by
              rw [← zpow_add₀ two, show (23 : Int) + ((expField p : Int) - 150) = (expField p : Int) - 127 by ring]
          _ ≤ _ := mul_le_mul_of_nonneg_right s1 (by positivity)
      · rw [h]
        calc _ < (2 : ℚ) ^ (24 : Int) * 2 ^ ((expField p : Int) - 150) :=
              mul_lt_mul_of_pos_right s2 (by positivity)
          _ = 2 ^ ((expField p : Int) - 127 + 1) := by
            rw [← zpow_add₀ two, show (24 : Int) + ((expField p : Int) - 150) = (expField p : Int) - 127 + 1 by ring]
    have hE : max (floorLog2 n d) (-126) = (expField p : Int) - 127 := by rw [hL]; omega
    rw [hE, scaled_round hd (k := fracField p + 2 ^ 23)]
    · have : ((expField p : Int) - 127 + 126).toNat = expField p - 1 := by omega
      rw [this]
      have : (expField p - 1) * 2 ^ 23 + (fracField p + 2 ^ 23) = expField p * 2 ^ 23 + fracField p := by
        have : expField p = expField p - 1 + 1 := by omega
        omega
      rw [this, Nat.min_eq_left]
      omega
    · rw [h, mul_assoc, ← zpow_add₀ two]
      have : (expField p : Int) - 150 + (23 - ((expField p : Int) - 127)) = 0 := by omega
      rw [this, zpow_zero, mul_one]

theorem val_num {p : Pattern} {q : ℚ} (h : val p = .num q) :
    expField p < 255 ∧ q = if signBit p then -magnitude p else magnitude p := by
  have hlt := expField_lt p
  unfold val at h
  split at h
  · split at h
    · simp at h
    · split at h <;> simp at h
  · next hne => exact ⟨by omega, by simpa using h.symm⟩

/-- `pat(val(p)) = p` for a pattern of a number other than zero (R21). -/
theorem pat_of_val {p : Pattern} {q : ℚ} (h : val p = .num q) (hq : q ≠ 0) : pat q = p := by
  obtain ⟨hfin, hqe⟩ := val_num h
  have hm := magnitude_nonneg p
  have habs : (q.num.natAbs : ℚ) / q.den = magnitude p := by
    have h1 : |q| = magnitude p := by
      rw [hqe]; split
      · rw [abs_neg, abs_of_nonneg hm]
      · rw [abs_of_nonneg hm]
    rw [← h1, Nat.cast_natAbs, Int.cast_abs]
    nth_rewrite 3 [← Rat.num_div_den q]
    rw [abs_div, Nat.abs_cast]
  have hmpos : 0 < magnitude p := by
    rcases hm.lt_or_eq with h1 | h1
    · exact h1
    · exfalso; apply hq; rw [hqe, ← h1]; simp
  have hnum : 0 < q.num.natAbs := Int.natAbs_pos.mpr (by simpa using hq)
  have hneg : q < 0 ↔ signBit p = true := by
    rw [hqe]; split
    · next hs => simp [hs, hmpos]
    · next hs => simp only [Bool.not_eq_true] at hs; simp [hs, hm]
  unfold pat
  rw [if_neg hq, patMagnitude_of_pattern hfin hnum q.den_pos habs]
  apply BitVec.eq_of_toNat_eq
  have hlt := p.isLt
  have hf := pattern_fields p
  rw [BitVec.toNat_ofNat]
  by_cases hs : signBit p = true
  · rw [if_pos (hneg.mpr hs)]
    rw [if_pos hs] at hf
    omega
  · rw [if_neg (mt hneg.mp hs)]
    rw [if_neg hs] at hf
    omega

theorem pat_zero : pat 0 = 0x00000000 := rfl

/-- `val(p) = 0` for the two zero patterns and no other. -/
theorem val_zero_iff (p : Pattern) : val p = .num 0 ↔ p = 0x00000000 ∨ p = 0x80000000 := by
  constructor
  · intro h
    obtain ⟨hfin, hqe⟩ := val_num h
    have hm : magnitude p = 0 := by
      split at hqe
      · linarith
      · exact hqe.symm
    rw [magnitude_eq] at hm
    have hs : significand p = 0 := by
      have h2 : (2 : ℚ) ^ ((max (expField p) 1 : Int) - 150) ≠ 0 := by positivity
      have := (mul_eq_zero.mp hm).resolve_right h2
      exact_mod_cast this
    unfold significand at hs
    split at hs
    · next he =>
      have hf := pattern_fields p
      rw [he, hs] at hf
      by_cases hsg : signBit p = true
      · right; apply BitVec.eq_of_toNat_eq; rw [hf, if_pos hsg]; rfl
      · left; apply BitVec.eq_of_toNat_eq; rw [hf, if_neg hsg]; rfl
    · omega
  · rintro (rfl | rfl) <;> decide +kernel

theorem val_one : val 0x3F800000 = .num 1 := by decide +kernel
theorem val_fifty : val 0x42480000 = .num 50 := by decide +kernel
theorem pat_one : pat 1 = 0x3F800000 := by decide +kernel
theorem pat_fifty : pat 50 = 0x42480000 := by decide +kernel

end Sys2Proof.Machine
end

