-- ==== Sys2Proof/Laws/Memory.lean ====
section
/-!
SUPPORT. The frame buffers: what a read gives after each write, and that every write keeps the
canonical form.
-/

namespace Sys2Proof.Machine

/-- Read after one write: the byte written, and every other address as before. -/
theorem memLookup_memWrite (m : Memory) (a b : Nat) (v : Byte) :
    memLookup (memWrite m a v) b = if b = a then some v else memLookup m b := by
  induction m with
  | nil => simp [memWrite, memLookup, eq_comm]
  | cons c m ih =>
    unfold memWrite
    split
    · simp only [memLookup, eq_comm]
    · split
      · next h => subst h; by_cases hb : b = c.1 <;> simp [memLookup, hb, eq_comm]
      · next h1 h2 =>
        simp only [memLookup, ih]
        by_cases hc : c.1 = b
        · have : b ≠ a := by omega
          simp [hc, this]
        · simp [hc]

theorem memLookup_append (m n : Memory) (a : Nat) :
    memLookup (m ++ n) a = (memLookup m a).or (memLookup n a) := by
  induction m with
  | nil => simp [memLookup]
  | cons c m ih =>
    simp only [List.cons_append, memLookup, ih]
    split <;> simp

theorem memLookup_cellsFrom (bytes : List Byte) (k a : Nat) :
    memLookup (cellsFrom k bytes) a = if k ≤ a then bytes[a - k]? else none := by
  induction bytes generalizing k with
  | nil => simp [cellsFrom, memLookup]
  | cons b bs ih =>
    simp only [cellsFrom, memLookup, ih]
    by_cases h : k = a
    · subst h; simp
    · by_cases h1 : k ≤ a
      · have h2 : k + 1 ≤ a := by omega
        obtain ⟨d, rfl⟩ := Nat.exists_eq_add_of_le h2
        have e1 : k + 1 + d - (k + 1) = d := by omega
        have e2 : k + 1 + d - k = d + 1 := by omega
        rw [if_neg h, if_pos h2, if_pos h1, e1, e2, List.getElem?_cons_succ]
      · have h2 : ¬ k + 1 ≤ a := by omega
        simp [h, h1, h2]

theorem memLookup_filter (m : Memory) (n a : Nat) (h : n ≤ a) :
    memLookup (m.filter fun c => decide (n ≤ c.1)) a = memLookup m a := by
  induction m with
  | nil => rfl
  | cons c m ih =>
    by_cases hc : n ≤ c.1
    · simp only [List.filter_cons, hc, decide_true, if_true, memLookup, ih]
    · have : c.1 ≠ a := by omega
      rw [List.filter_cons_of_neg (by simpa using hc), ih, memLookup, if_neg this]

theorem memLookup_filter_below (m : Memory) (n a : Nat) (h : a < n) :
    memLookup (m.filter fun c => decide (n ≤ c.1)) a = none := by
  induction m with
  | nil => rfl
  | cons c m ih =>
    by_cases hc : n ≤ c.1
    · have : c.1 ≠ a := by omega
      simp only [List.filter_cons, hc, decide_true, if_true, memLookup, this, if_false, ih]
    · rwa [List.filter_cons_of_neg (by simpa using hc)]

/-- After storing bytes from address 0: those bytes there, every address beyond them as before (R28). -/
theorem memLookup_memStore (m : Memory) (bytes : List Byte) (a : Nat) :
    memLookup (memStore m bytes) a = if a < bytes.length then bytes[a]? else memLookup m a := by
  unfold memStore
  rw [memLookup_append, memLookup_cellsFrom]
  simp only [Nat.zero_le, if_true, Nat.sub_zero]
  by_cases h : a < bytes.length
  · rw [memLookup_filter_below _ _ _ h]; simp [h]
  · rw [memLookup_filter _ _ _ (not_lt.mp h)]
    simp [h]

/-! ### The canonical form -/

/-- The canonical form as a pairwise order. -/
theorem memory_wf_iff (m : Memory) : Memory.wf m = true ↔ m.Pairwise fun c d => c.1 < d.1 := by
  induction m with
  | nil => simp [Memory.wf]
  | cons c m ih =>
    cases m with
    | nil => simp [Memory.wf]
    | cons d m =>
      rw [Memory.wf, Bool.and_eq_true, ih, List.pairwise_cons (a := c), decide_eq_true_iff]
      constructor
      · rintro ⟨h1, h2⟩
        refine ⟨?_, h2⟩
        intro e he
        rcases List.mem_cons.mp he with rfl | he
        · exact h1
        · exact h1.trans ((List.pairwise_cons.mp h2).1 e he)
      · rintro ⟨h1, h2⟩
        exact ⟨h1 d (List.mem_cons_self ..), h2⟩

theorem mem_memWrite {m : Memory} {a : Nat} {v : Byte} {c : Host.Cell}
    (h : c ∈ memWrite m a v) : c.1 = a ∨ c ∈ m := by
  induction m with
  | nil => simp only [memWrite, List.mem_singleton] at h; exact .inl (by rw [h])
  | cons d m ih =>
    unfold memWrite at h
    split at h
    · rcases List.mem_cons.mp h with rfl | h
      · exact .inl rfl
      · exact .inr h
    · split at h
      · rcases List.mem_cons.mp h with rfl | h
        · exact .inl rfl
        · exact .inr (List.mem_cons_of_mem _ h)
      · rcases List.mem_cons.mp h with rfl | h
        · exact .inr (List.mem_cons_self ..)
        · exact (ih h).imp id (List.mem_cons_of_mem _)

/-- A write of one byte keeps the canonical form. -/
theorem memWrite_wf {m : Memory} (h : Memory.wf m = true) (a : Nat) (v : Byte) :
    Memory.wf (memWrite m a v) = true := by
  rw [memory_wf_iff] at *
  induction m with
  | nil => simp [memWrite]
  | cons d m ih =>
    have hd := List.pairwise_cons.mp h
    unfold memWrite
    split
    · next hlt =>
      refine List.pairwise_cons.mpr ⟨?_, h⟩
      intro e he
      rcases List.mem_cons.mp he with rfl | he
      · exact hlt
      · exact hlt.trans (hd.1 e he)
    · split
      · next he =>
        refine List.pairwise_cons.mpr ⟨?_, hd.2⟩
        intro e hm
        exact he ▸ hd.1 e hm
      · refine List.pairwise_cons.mpr ⟨?_, ih hd.2⟩
        intro e hm
        rcases mem_memWrite hm with h1 | h1
        · rw [h1]; omega
        · exact hd.1 e h1

theorem mem_cellsFrom {bytes : List Byte} {k : Nat} {c : Host.Cell} (h : c ∈ cellsFrom k bytes) :
    k ≤ c.1 ∧ c.1 < k + bytes.length := by
  induction bytes generalizing k with
  | nil => simp [cellsFrom] at h
  | cons b bs ih =>
    rcases List.mem_cons.mp h with rfl | h
    · simp
    · have := ih h
      simp only [List.length_cons]
      omega

theorem cellsFrom_pairwise (bytes : List Byte) (k : Nat) :
    (cellsFrom k bytes).Pairwise fun c d => c.1 < d.1 := by
  induction bytes generalizing k with
  | nil => exact List.Pairwise.nil
  | cons b bs ih =>
    refine List.pairwise_cons.mpr ⟨?_, ih _⟩
    intro e he
    exact (mem_cellsFrom he).1

/-- Storing an image keeps the canonical form. -/
theorem memStore_wf {m : Memory} (h : Memory.wf m = true) (bytes : List Byte) :
    Memory.wf (memStore m bytes) = true := by
  rw [memory_wf_iff] at *
  unfold memStore
  refine List.pairwise_append.mpr ⟨cellsFrom_pairwise _ _, h.filter _, ?_⟩
  intro c hc d hd
  have h1 := (mem_cellsFrom hc).2
  have h2 := of_decide_eq_true (List.mem_filter.mp hd).2
  omega

theorem reset_memory_wf : Memory.wf State.reset.ibuf = true ∧ Memory.wf State.reset.obuf = true :=
  ⟨rfl, rfl⟩

end Sys2Proof.Machine
end

