-- ==== Sys2Proof/Laws/State.lean ====
section
/-!
SUPPORT. Each field of the state after each update: true by rfl, tagged for simp, so that no proof
unfolds a record update.
-/

namespace Sys2Proof.Machine

variable (s : State) (c : Code) (d : BitVec 128) (b : Bool) (w h : Dim) (bytes : List Byte)
  (a : Nat) (v : Byte)

@[simp] theorem setErr_err (t : Status) : (setErr c t).err = codeBits c := rfl
@[simp] theorem setErr_outValid (t : Status) : (setErr c t).outValid = t.outValid := rfl
@[simp] theorem setErr_busy (t : Status) : (setErr c t).busy = t.busy := rfl
@[simp] theorem setOutValid_err (t : Status) : (setOutValid b t).err = t.err := rfl
@[simp] theorem setOutValid_outValid (t : Status) : (setOutValid b t).outValid = b := rfl
@[simp] theorem setOutValid_busy (t : Status) : (setOutValid b t).busy = t.busy := rfl
@[simp] theorem setBusy_err (t : Status) : (setBusy b t).err = t.err := rfl
@[simp] theorem setBusy_outValid (t : Status) : (setBusy b t).outValid = t.outValid := rfl
@[simp] theorem setBusy_busy (t : Status) : (setBusy b t).busy = b := rfl

@[simp] theorem respond_x : (respond c d s).x = s.x := rfl
@[simp] theorem respond_err : (respond c d s).status.err = codeBits c := rfl
@[simp] theorem respond_outValid : (respond c d s).status.outValid = s.status.outValid := rfl
@[simp] theorem respond_busy : (respond c d s).status.busy = false := rfl
@[simp] theorem respond_outW : (respond c d s).outW = s.outW := rfl
@[simp] theorem respond_outH : (respond c d s).outH = s.outH := rfl
@[simp] theorem respond_ibuf : (respond c d s).ibuf = s.ibuf := rfl
@[simp] theorem respond_obuf : (respond c d s).obuf = s.obuf := rfl
@[simp] theorem respond_response : (respond c d s).response = some ⟨codeBits c, d⟩ := rfl
@[simp] theorem respond_port : (respond c d s).port = s.port := rfl
@[simp] theorem respond_obufEpoch : (respond c d s).obufEpoch = s.obufEpoch := rfl

@[simp] theorem accept_x : (accept s).x = s.x := rfl
@[simp] theorem accept_err : (accept s).status.err = s.status.err := rfl
@[simp] theorem accept_outValid : (accept s).status.outValid = s.status.outValid := rfl
@[simp] theorem accept_busy : (accept s).status.busy = true := rfl
@[simp] theorem accept_outW : (accept s).outW = s.outW := rfl
@[simp] theorem accept_outH : (accept s).outH = s.outH := rfl
@[simp] theorem accept_ibuf : (accept s).ibuf = s.ibuf := rfl
@[simp] theorem accept_obuf : (accept s).obuf = s.obuf := rfl
@[simp] theorem accept_response : (accept s).response = s.response := rfl
@[simp] theorem accept_port : (accept s).port = s.port := rfl
@[simp] theorem accept_obufEpoch : (accept s).obufEpoch = s.obufEpoch := rfl

@[simp] theorem commitOutput_x : (commitOutput w h bytes s).x = s.x := rfl
@[simp] theorem commitOutput_err : (commitOutput w h bytes s).status.err = s.status.err := rfl
@[simp] theorem commitOutput_outValid : (commitOutput w h bytes s).status.outValid = true := rfl
@[simp] theorem commitOutput_busy : (commitOutput w h bytes s).status.busy = s.status.busy := rfl
@[simp] theorem commitOutput_outW : (commitOutput w h bytes s).outW = w := rfl
@[simp] theorem commitOutput_outH : (commitOutput w h bytes s).outH = h := rfl
@[simp] theorem commitOutput_ibuf : (commitOutput w h bytes s).ibuf = s.ibuf := rfl
@[simp] theorem commitOutput_obuf : (commitOutput w h bytes s).obuf = memStore s.obuf bytes := rfl
@[simp] theorem commitOutput_response : (commitOutput w h bytes s).response = s.response := rfl
@[simp] theorem commitOutput_port : (commitOutput w h bytes s).port = s.port := rfl
@[simp] theorem commitOutput_obufEpoch : (commitOutput w h bytes s).obufEpoch = s.obufEpoch := rfl

@[simp] theorem hostWrite_x : (hostWrite a v s).x = s.x := rfl
@[simp] theorem hostWrite_status : (hostWrite a v s).status = s.status := rfl
@[simp] theorem hostWrite_outW : (hostWrite a v s).outW = s.outW := rfl
@[simp] theorem hostWrite_outH : (hostWrite a v s).outH = s.outH := rfl
@[simp] theorem hostWrite_ibuf : (hostWrite a v s).ibuf = memWrite s.ibuf a v := rfl
@[simp] theorem hostWrite_obuf : (hostWrite a v s).obuf = s.obuf := rfl
@[simp] theorem hostWrite_response : (hostWrite a v s).response = s.response := rfl
@[simp] theorem hostWrite_port : (hostWrite a v s).port = s.port := rfl
@[simp] theorem hostWrite_obufEpoch : (hostWrite a v s).obufEpoch = s.obufEpoch := rfl

@[simp] theorem hostReset_x : (hostReset s).x = defaultParams := rfl
@[simp] theorem hostReset_status : (hostReset s).status = ⟨0, false, false⟩ := rfl
@[simp] theorem hostReset_outW : (hostReset s).outW = 0 := rfl
@[simp] theorem hostReset_outH : (hostReset s).outH = 0 := rfl
@[simp] theorem hostReset_ibuf : (hostReset s).ibuf = s.ibuf := rfl
@[simp] theorem hostReset_response : (hostReset s).response = none := rfl
@[simp] theorem hostReset_port : (hostReset s).port = s.port := rfl

@[simp] theorem params_get_set_same (x : Params) (i : Param) (p : Pattern) :
    (x.set i p).get i = p := by cases i <;> rfl

@[simp] theorem params_get_set_other (x : Params) {i j : Param} (hij : j ≠ i) (p : Pattern) :
    (x.set i p).get j = x.get j := by cases i <;> cases j <;> first | rfl | exact absurd rfl hij

end Sys2Proof.Machine
end

