-- ==== Sys2Proof/Laws/Ops.lean ====
section
/-!
SUPPORT. Each shared operation once: everything it can do (R22, R174, R195).
-/

namespace Sys2Proof.Machine

theorem isNaN_iff (p : Pattern) : isNaN p = true ↔ val p = .nan := by
  unfold isNaN val
  by_cases h : expField p = 255
  · by_cases hf : fracField p = 0
    · simp [h, hf]; split <;> simp
    · simp [h, hf]
  · simp [h]

/-- A SET operand has a clamp exactly when it is no NaN (R68). -/
theorem clampedOperand_eq_none (i : Param) (p : Pattern) :
    clampedOperand i p = none ↔ isNaN p = true := by
  rw [isNaN_iff]
  unfold clampedOperand clampVal
  cases val p <;> simp

/-- Everything a SET command can do. -/
theorem setParam_cases (i : Param) (p : Pattern) (s : State) :
    (∃ v, clampedOperand i p = some v ∧
        setParam i p s = .next (respond .ok 0 { s with x := s.x.set i v })) ∨
      (isNaN p = true ∧ setParam i p s = .next (respond .illegalCommand 0 s)) := by
  unfold setParam
  cases h : clampedOperand i p with
  | some v => exact .inl ⟨v, rfl, rfl⟩
  | none => exact .inr ⟨(clampedOperand_eq_none i p).mp h, rfl⟩

/-- Taking an error on a state (R174): one next state, with the code, the response, and OUT_VALID
cleared only for APPLY. -/
theorem raise_eq (c : Code) (b : Bool) (s : State) :
    raise c b s = .next
      { s with
        status := ⟨codeBits c, if b then false else s.status.outValid, false⟩
        response := some ⟨codeBits c, 0⟩ } := by
  cases b <;> rfl

/-- A command that ends well, on a state. -/
theorem succeed_eq (d : BitVec 128) (s : State) :
    succeed d s = .next
      { s with status := ⟨0, s.status.outValid, false⟩, response := some ⟨0, d⟩ } := rfl

/-- Everything an empty APPLY does, and the two ways a non-empty one can go. -/
theorem execApply_cases (w h : Dim) (s : State) :
    ((w = 0 ∨ h = 0) ∧ execApply w h s = raise .emptyImage true s) ∨
      (w ≠ 0 ∧ h ≠ 0 ∧ ∃ out, applyOutput w h s = .ok out ∧
        execApply w h s = succeed 0
          (commitOutput w h (outputBytes referenceHardware s.x w h (loadImage s w.toNat h.toNat) out) s)) ∨
      (w ≠ 0 ∧ h ≠ 0 ∧ ∃ e, applyOutput w h s = .error e ∧
        execApply w h s = raise (stageCode e) true s) := by
  unfold execApply applyWith
  split
  · next hz => exact .inl ⟨hz, rfl⟩
  · next hz =>
    obtain ⟨hw, hh⟩ := not_or.mp hz
    unfold applyOutput
    cases ho : applyOutputWith referenceHardware w h s with
    | ok out => exact .inr (.inl ⟨hw, hh, out, rfl, rfl⟩)
    | error e => exact .inr (.inr ⟨hw, hh, e, rfl, rfl⟩)

theorem imageBytes_length {α : Type} {w h : Nat} (p : Plane (Triple α) w h) :
    (imageBytes p).length = 3 * (w * h) := by
  unfold imageBytes
  rw [← p.size]
  induction p.px with
  | nil => rfl
  | cons t l ih => simp only [List.flatMap_cons, List.length_append, ih, List.length_cons,
      List.length_nil]; omega

theorem outputBytes_length {F : Type} {w h : Nat} (hw : Hardware F) (x : Params) (wd hd : Dim) (img : Plane (Triple Byte) w h)
    (out : Plane (Triple (Option Byte)) w h) :
    (outputBytes hw x wd hd img out).length = 3 * (w * h) := by
  simp [outputBytes, imageBytes_length]

/-- Up to `BLUR_EPS` a radius counts as none (R140). -/
theorem effectiveRadius_unblurred {cfg : Cfg} {p : Pattern} {q : ℚ} (h : val p = .num q)
    (hq : q ≤ cfg.blurEps) : effectiveRadius cfg p = .unblurred := by
  simp [effectiveRadius, h, not_lt.mpr hq]

/-- Above `BLUR_EPS` a radius counts as `min(radius, BLUR_RMAX)` (R140). -/
theorem effectiveRadius_blurred {cfg : Cfg} {p : Pattern} {q : ℚ} (h : val p = .num q)
    (hq : cfg.blurEps < q) : effectiveRadius cfg p = .blurred (min q cfg.blurRmax) := by
  unfold effectiveRadius
  rw [h]
  simp only [hq, if_true]
  split
  · next hr => rw [min_eq_right hr.le]
  · next hr => rw [min_eq_left (not_lt.mp hr)]

end Sys2Proof.Machine
end

