-- ==== Sys2Proof/Laws/PerInstr.lean ====
section
/-!
SUPPORT. The fields of every instruction's encoding, constructor by constructor (R62).
-/

namespace Sys2Proof

theorem encode_opcField (i : Instr) : opcField (encode i) = i.opcode := by
  apply BitVec.eq_of_getLsbD_eq
  intro k hk
  simp only [opcField, encode, BitVec.getLsbD_extractLsb', BitVec.getLsbD_append, hk, decide_true,
    Bool.true_and]
  rw [if_neg (by omega), if_neg (by omega)]
  congr 1
  omega

theorem encode_rsvField (i : Instr) : rsvField (encode i) = 0 := by
  apply BitVec.eq_of_getLsbD_eq
  intro k hk
  simp only [rsvField, encode, BitVec.getLsbD_extractLsb', BitVec.getLsbD_append, hk, decide_true,
    Bool.true_and]
  rw [if_neg (by omega), if_pos (by omega)]
  simp

theorem encode_opdField (i : Instr) : opdField (encode i) = i.operand := by
  apply BitVec.eq_of_getLsbD_eq
  intro k hk
  simp only [opdField, encode, BitVec.getLsbD_extractLsb', BitVec.getLsbD_append, hk, decide_true,
    Bool.true_and]
  rw [if_pos (by omega)]
  congr 1
  omega

/-! ### The size fields of APPLY on any copy of the hardware (R14, R65) -/

/-- A size field is the low `DIM_BITS` bits of its half of OPD. -/
theorem dimField_toNat (cfg : Cfg) (start : Nat) (opd : BitVec 32) :
    (dimField cfg start opd).toNat = opd.toNat / 2 ^ start % 2 ^ min cfg.dimBits 16 := by
  have h : opd.toNat / 2 ^ start % 2 ^ min cfg.dimBits 16 < 2 ^ 16 :=
    (Nat.mod_lt _ (Nat.two_pow_pos _)).trans_le
      (Nat.pow_le_pow_right (by decide) (Nat.min_le_right _ _))
  rw [dimField, BitVec.toNat_setWidth, BitVec.extractLsb'_toNat, Nat.shiftRight_eq_div_pow,
    Nat.mod_eq_of_lt h]

/-- A size field holds `DIM_BITS` bits. -/
@[simp] theorem fitsDim_dimField (cfg : Cfg) (start : Nat) (opd : BitVec 32) :
    fitsDim cfg (dimField cfg start opd) = true := by
  unfold fitsDim
  rw [dimField_toNat]
  exact decide_eq_true ((Nat.mod_lt _ (Nat.two_pow_pos _)).trans_le
    (Nat.pow_le_pow_right (by decide) (Nat.min_le_left _ _)))

/-- A field of 16 bits, or of more, is the whole half. -/
theorem dimField_wide {cfg : Cfg} (h : 16 ≤ cfg.dimBits) (start : Nat) (opd : BitVec 32) :
    dimField cfg start opd = opd.extractLsb' start 16 := by
  apply BitVec.eq_of_toNat_eq
  rw [dimField_toNat, Nat.min_eq_right h, BitVec.extractLsb'_toNat, Nat.shiftRight_eq_div_pow]

/-- Every size fits a field of 16 bits, or of more. -/
theorem fitsDim_wide {cfg : Cfg} (h : 16 ≤ cfg.dimBits) (d : Dim) : fitsDim cfg d = true :=
  decide_eq_true (d.isLt.trans_le (Nat.pow_le_pow_right (by decide) h))

/-- In the reference instance no size is too wide. -/
@[simp] theorem wellFormedAt_defaults (i : Instr) :
    i.wellFormedAt Config.defaults = i.wellFormed := by
  cases i <;> simp [Instr.wellFormedAt, Instr.sizesFit, fitsDim_wide (cfg := Config.defaults) (le_refl 16)]

namespace Laws.EncodingFields

/-- The encoding of an instruction holds its opcode, a zero reserved field and its operand. -/
def Statement (i : Instr) : Prop :=
  opcField (encode i) = i.opcode ∧ rsvField (encode i) = 0 ∧ opdField (encode i) = i.operand

theorem init : Statement .init := ⟨encode_opcField _, encode_rsvField _, encode_opdField _⟩
theorem getParams : Statement .getParams := ⟨encode_opcField _, encode_rsvField _, encode_opdField _⟩
theorem setShadow (p : Pattern) : Statement (.setShadow p) :=
  ⟨encode_opcField _, encode_rsvField _, encode_opdField _⟩
theorem setHighlight (p : Pattern) : Statement (.setHighlight p) :=
  ⟨encode_opcField _, encode_rsvField _, encode_opdField _⟩
theorem setWidth (p : Pattern) : Statement (.setWidth p) :=
  ⟨encode_opcField _, encode_rsvField _, encode_opdField _⟩
theorem setBlur (p : Pattern) : Statement (.setBlur p) :=
  ⟨encode_opcField _, encode_rsvField _, encode_opdField _⟩
theorem apply (w h : Dim) : Statement (.apply w h) :=
  ⟨encode_opcField _, encode_rsvField _, encode_opdField _⟩

end Laws.EncodingFields

end Sys2Proof
end

