-- ==== Sys2Proof/Laws/Plane.lean ====
section
/-!
SUPPORT. What each plane operation gives at a pixel.
-/

namespace Sys2Proof.Machine

variable {α β γ : Type} {w h : Nat}

/-- A pixel's index lies inside the plane. -/
theorem index_lt {x y : Nat} (hx : x < w) (hy : y < h) : y * w + x < w * h := by
  calc y * w + x < y * w + w := by omega
    _ = (y + 1) * w := by ring
    _ ≤ h * w := Nat.mul_le_mul_right _ hy
    _ = w * h := Nat.mul_comm _ _

theorem planeAt_mapPlane (f : α → β) (p : Plane α w h) (d : α) (e : β) {x y : Nat} (hx : x < w)
    (hy : y < h) : planeAt (mapPlane f p) e x y = f (planeAt p d x y) := by
  have hi : y * w + x < p.px.length := by rw [p.size]; exact index_lt hx hy
  simp [planeAt, mapPlane, List.getD, hi]

theorem planeAt_zipPlane (f : α → β → γ) (p : Plane α w h) (q : Plane β w h) (d : α) (e : β) (g : γ)
    {x y : Nat} (hx : x < w) (hy : y < h) :
    planeAt (zipPlane f p q) g x y = f (planeAt p d x y) (planeAt q e x y) := by
  have hi : y * w + x < p.px.length := by rw [p.size]; exact index_lt hx hy
  have hj : y * w + x < q.px.length := by rw [q.size]; exact index_lt hx hy
  simp [planeAt, zipPlane, List.getD, hi, hj]

theorem planeAt_tabulate (f : Nat → Nat → α) (d : α) {x y : Nat} (hx : x < w) (hy : y < h) :
    planeAt (tabulate w h f) d x y = f x y := by
  have hi : y * w + x < w * h := index_lt hx hy
  have h1 : (y * w + x) % w = x := by rw [Nat.mul_comm, Nat.mul_add_mod, Nat.mod_eq_of_lt hx]
  have h2 : (y * w + x) / w = y := by
    rw [Nat.mul_comm, Nat.mul_add_div (by omega), Nat.div_eq_of_lt hx, Nat.add_zero]
  simp [planeAt, tabulate, List.getD, hi, h1, h2]

@[ext] theorem plane_ext {p q : Plane α w h} (e : p.px = q.px) : p = q := by
  cases p; cases q; simp_all

/-- Two planes that agree at every pixel are equal. -/
theorem plane_eq_of_planeAt {p q : Plane α w h} (d : α)
    (e : ∀ x y, x < w → y < h → planeAt p d x y = planeAt q d x y) : p = q := by
  refine plane_ext (List.ext_getElem (by rw [p.size, q.size]) ?_)
  intro i h1 h2
  have hi : i < w * h := by rw [← p.size]; exact h1
  have hw : 0 < w := Nat.pos_of_ne_zero (by rintro rfl; simp at hi)
  have hx : i % w < w := Nat.mod_lt _ hw
  have hy : i / w < h := (Nat.div_lt_iff_lt_mul hw).mpr (by rwa [Nat.mul_comm])
  have hidx : i / w * w + i % w = i := by rw [Nat.mul_comm]; exact Nat.div_add_mod i w
  have := e _ _ hx hy
  simpa [planeAt, hidx, List.getD, h1, h2] using this

end Sys2Proof.Machine
end

