-- ==== Sys2Proof/Laws/EnclosureSound.lean ====
section
/-!
SUPPORT. Every operation of the enclosures encloses the operation of real analysis that R213 names.
-/

namespace Sys2Proof.Machine

theorem gridUnit_pos : 0 < gridUnit := by unfold gridUnit; exact Nat.two_pow_pos _

theorem gridUnit_posR : (0 : ℝ) < (gridUnit : ℝ) := by exact_mod_cast gridUnit_pos

theorem ediv_le_real {n d : Int} (hd : 0 < d) : ((n / d : Int) : ℝ) ≤ (n : ℝ) / (d : ℝ) := by
  have hd' : (0 : ℝ) < (d : ℝ) := by exact_mod_cast hd
  rw [le_div_iff₀ hd']
  exact_mod_cast Int.ediv_mul_le n (ne_of_gt hd)

theorem real_le_ceilDiv {n d : Int} (hd : 0 < d) : (n : ℝ) / (d : ℝ) ≤ ((ceilDiv n d : Int) : ℝ) := by
  have h := ediv_le_real (n := -n) hd
  unfold ceilDiv
  push_cast at h ⊢
  rw [neg_div] at h
  linarith

theorem natDiv_le_real (n d : Nat) : ((n / d : Nat) : ℝ) ≤ (n : ℝ) / (d : ℝ) := Nat.cast_div_le

theorem real_le_natCeil (n : Nat) {d : Nat} (hd : 0 < d) :
    (n : ℝ) / (d : ℝ) ≤ (((n + d - 1) / d : Nat) : ℝ) := by
  have hd' : (0 : ℝ) < (d : ℝ) := by exact_mod_cast hd
  rw [div_le_iff₀ hd']
  have h1 := Nat.div_add_mod (n + d - 1) d
  have h2 := Nat.mod_lt (n + d - 1) hd
  have h3 : n ≤ (n + d - 1) / d * d := by
    have : (n + d - 1) / d * d = d * ((n + d - 1) / d) := Nat.mul_comm _ _
    omega
  exact_mod_cast h3

/-- The grid bounds of an enclosure bound what it stands for. -/
theorem encGrid_sound {e : Enc} {x : ℝ} {b : Int × Int} (hb : encGrid e = some b)
    (hx : encloses e x) :
    (b.1 : ℝ) ≤ x * (gridUnit : ℝ) ∧ x * (gridUnit : ℝ) ≤ (b.2 : ℝ) := by
  cases e with
  | exact q =>
    simp only [encGrid, Option.some.injEq] at hb
    subst hb
    have hden : (0 : Int) < (q.den : Int) := by exact_mod_cast q.den_pos
    have hval : x * (gridUnit : ℝ) = ((q.num * gridUnit : Int) : ℝ) / ((q.den : Int) : ℝ) := by
      have hq : x = (q.num : ℝ) / (q.den : ℝ) := by
        rw [show x = (q : ℝ) from hx]; exact Rat.cast_def q
      rw [hq]; push_cast; ring
    rw [hval]
    exact ⟨ediv_le_real hden, real_le_ceilDiv hden⟩
  | between lo hi =>
    simp only [encGrid, Option.some.injEq] at hb
    subst hb
    exact hx
  | unknown => simp [encGrid] at hb

/-- A lifted operation encloses what its grid form encloses. -/
theorem liftGrid_sound {f : Int × Int → Int × Int → Enc} {op : ℝ → ℝ → ℝ}
    (hf : ∀ (a b : Int × Int) (x y : ℝ),
      (a.1 : ℝ) ≤ x * gridUnit ∧ x * gridUnit ≤ (a.2 : ℝ) →
      (b.1 : ℝ) ≤ y * gridUnit ∧ y * gridUnit ≤ (b.2 : ℝ) → encloses (f a b) (op x y))
    {a b : Enc} {x y : ℝ} (ha : encloses a x) (hb : encloses b y) :
    encloses (liftGrid f a b) (op x y) := by
  unfold liftGrid
  split
  · next u v hu hv => exact hf _ _ _ _ (encGrid_sound hu ha) (encGrid_sound hv hb)
  · trivial

theorem encAdd_sound {a b : Enc} {x y : ℝ} (ha : encloses a x) (hb : encloses b y) :
    encloses (encAdd a b) (x + y) := by
  have key : encloses (liftGrid (fun x y => .between (x.1 + y.1) (x.2 + y.2)) a b) (x + y) := by
    refine liftGrid_sound (op := (· + ·)) ?_ ha hb
    intro a b x y h1 h2
    simp only [encloses]
    push_cast
    constructor <;> nlinarith [h1.1, h1.2, h2.1, h2.2]
  unfold encAdd
  split
  · next p q =>
    simp only [encloses] at *
    rw [ha, hb]; push_cast; rfl
  · exact key

theorem encSub_sound {a b : Enc} {x y : ℝ} (ha : encloses a x) (hb : encloses b y) :
    encloses (encSub a b) (x - y) := by
  have key : encloses (liftGrid (fun x y => .between (x.1 - y.2) (x.2 - y.1)) a b) (x - y) := by
    refine liftGrid_sound (op := (· - ·)) ?_ ha hb
    intro a b x y h1 h2
    simp only [encloses]
    push_cast
    constructor <;> nlinarith [h1.1, h1.2, h2.1, h2.2]
  unfold encSub
  split
  · next p q =>
    simp only [encloses] at *
    rw [ha, hb]; push_cast; rfl
  · exact key

theorem encIsZero_sound {a : Enc} {x : ℝ} (ha : encloses a x) (hz : encIsZero a = true) : x = 0 := by
  cases a with
  | exact q =>
    simp only [encIsZero, beq_iff_eq] at hz
    rw [show x = (q : ℝ) from ha, Rat.num_eq_zero.mp hz]; simp
  | between lo hi => simp [encIsZero] at hz
  | unknown => simp [encIsZero] at hz

/-- A product lies between the least and the greatest of the four products of the bounds. -/
theorem mul_between {a b c d x y : ℝ} (hx : a ≤ x ∧ x ≤ b) (hy : c ≤ y ∧ y ≤ d) :
    min (min (a * c) (a * d)) (min (b * c) (b * d)) ≤ x * y ∧
      x * y ≤ max (max (a * c) (a * d)) (max (b * c) (b * d)) := by
  have inner : ∀ z, min (z * c) (z * d) ≤ z * y ∧ z * y ≤ max (z * c) (z * d) := by
    intro z
    rcases le_total 0 z with hz | hz
    · exact ⟨(min_le_left _ _).trans (mul_le_mul_of_nonneg_left hy.1 hz),
        (mul_le_mul_of_nonneg_left hy.2 hz).trans (le_max_right _ _)⟩
    · exact ⟨(min_le_right _ _).trans (mul_le_mul_of_nonpos_left hy.2 hz),
        (mul_le_mul_of_nonpos_left hy.1 hz).trans (le_max_left _ _)⟩
  rcases le_total 0 y with hy0 | hy0
  · exact ⟨(min_le_left _ _).trans ((inner a).1.trans (mul_le_mul_of_nonneg_right hx.1 hy0)),
      ((mul_le_mul_of_nonneg_right hx.2 hy0).trans (inner b).2).trans (le_max_right _ _)⟩
  · exact ⟨(min_le_right _ _).trans ((inner b).1.trans (mul_le_mul_of_nonpos_right hx.2 hy0)),
      ((mul_le_mul_of_nonpos_right hx.1 hy0).trans (inner a).2).trans (le_max_left _ _)⟩

theorem gridMul_sound (a b : Int × Int) (x y : ℝ)
    (h1 : (a.1 : ℝ) ≤ x * gridUnit ∧ x * gridUnit ≤ (a.2 : ℝ))
    (h2 : (b.1 : ℝ) ≤ y * gridUnit ∧ y * gridUnit ≤ (b.2 : ℝ)) :
    encloses (gridMul a b) (x * y) := by
  have hU := gridUnit_posR
  have hUi : (0 : Int) < (gridUnit : Int) := by exact_mod_cast gridUnit_pos
  have hm := mul_between h1 h2
  have hxy : x * y * (gridUnit : ℝ) = x * gridUnit * (y * gridUnit) / ((gridUnit : Int) : ℝ) := by
    push_cast; field_simp
  unfold gridMul
  simp only [encloses]
  rw [hxy]
  constructor
  · refine (ediv_le_real hUi).trans ?_
    push_cast
    exact div_le_div_of_nonneg_right hm.1 hU.le
  · refine le_trans ?_ (real_le_ceilDiv hUi)
    push_cast
    exact div_le_div_of_nonneg_right hm.2 hU.le

theorem encMul_sound {a b : Enc} {x y : ℝ} (ha : encloses a x) (hb : encloses b y) :
    encloses (encMul a b) (x * y) := by
  unfold encMul
  split
  · next hz =>
    rcases Bool.or_eq_true _ _ |>.mp hz with h | h
    · simp [encloses, encIsZero_sound ha h]
    · simp [encloses, encIsZero_sound hb h]
  · split
    · simp only [encloses] at *
      rw [ha, hb]; push_cast; rfl
    · exact liftGrid_sound (op := (· * ·)) gridMul_sound ha hb

theorem gridDiv_sound (a b : Int × Int) (x y : ℝ)
    (h1 : (a.1 : ℝ) ≤ x * gridUnit ∧ x * gridUnit ≤ (a.2 : ℝ))
    (h2 : (b.1 : ℝ) ≤ y * gridUnit ∧ y * gridUnit ≤ (b.2 : ℝ)) :
    encloses (gridDiv a b) (x / y) := by
  unfold gridDiv
  split
  · next hpos =>
    have hU := gridUnit_posR
    have hb1 : (0 : ℝ) < (b.1 : ℝ) := by exact_mod_cast hpos
    have hy : (0 : ℝ) < y * gridUnit := lt_of_lt_of_le hb1 h2.1
    have hb2 : (0 : ℝ) < (b.2 : ℝ) := lt_of_lt_of_le hy h2.2
    have hb2i : (0 : Int) < b.2 := by exact_mod_cast hb2
    have hval : x / y * (gridUnit : ℝ) = x * gridUnit * gridUnit / (y * gridUnit) := by
      have : y ≠ 0 := by rintro rfl; simp at hy
      field_simp
    simp only [encloses]
    rw [hval]
    constructor
    · split
      · next h0 =>
        have h0' : (0 : ℝ) ≤ (a.1 : ℝ) := by exact_mod_cast h0
        refine (ediv_le_real hb2i).trans ?_
        push_cast
        rw [div_le_div_iff₀ hb2 hy]
        have hA : (a.1 : ℝ) * gridUnit ≤ x * gridUnit * gridUnit :=
          mul_le_mul_of_nonneg_right h1.1 hU.le
        have hA0 : (0 : ℝ) ≤ (a.1 : ℝ) * gridUnit := mul_nonneg h0' hU.le
        exact mul_le_mul hA h2.2 hy.le (hA0.trans hA)
      · next h0 =>
        have h0' : (a.1 : ℝ) ≤ 0 := by exact_mod_cast (not_le.mp h0).le
        refine (ediv_le_real hpos).trans ?_
        push_cast
        rw [div_le_div_iff₀ hb1 hy]
        have hA : (a.1 : ℝ) * gridUnit ≤ x * gridUnit * gridUnit :=
          mul_le_mul_of_nonneg_right h1.1 hU.le
        have hA0 : (a.1 : ℝ) * gridUnit ≤ 0 := mul_nonpos_of_nonpos_of_nonneg h0' hU.le
        exact (mul_le_mul_of_nonpos_left h2.1 hA0).trans (mul_le_mul_of_nonneg_right hA hb1.le)
    · split
      · next h0 =>
        have h0' : (0 : ℝ) ≤ (a.2 : ℝ) := by exact_mod_cast h0
        refine le_trans ?_ (real_le_ceilDiv hpos)
        push_cast
        rw [div_le_div_iff₀ hy hb1]
        have hA : x * gridUnit * gridUnit ≤ (a.2 : ℝ) * gridUnit :=
          mul_le_mul_of_nonneg_right h1.2 hU.le
        have hA0 : (0 : ℝ) ≤ (a.2 : ℝ) * gridUnit := mul_nonneg h0' hU.le
        exact (mul_le_mul_of_nonneg_right hA hb1.le).trans (mul_le_mul_of_nonneg_left h2.1 hA0)
      · next h0 =>
        have h0' : (a.2 : ℝ) ≤ 0 := by exact_mod_cast (not_le.mp h0).le
        refine le_trans ?_ (real_le_ceilDiv hb2i)
        push_cast
        rw [div_le_div_iff₀ hy hb2]
        have hA : x * gridUnit * gridUnit ≤ (a.2 : ℝ) * gridUnit :=
          mul_le_mul_of_nonneg_right h1.2 hU.le
        have hA0 : (a.2 : ℝ) * gridUnit ≤ 0 := mul_nonpos_of_nonpos_of_nonneg h0' hU.le
        exact (mul_le_mul_of_nonneg_right hA hb2.le).trans (mul_le_mul_of_nonpos_left h2.2 hA0)
  · trivial

theorem encDiv_sound {a b : Enc} {x y : ℝ} (ha : encloses a x) (hb : encloses b y) :
    encloses (encDiv a b) (x / y) := by
  unfold encDiv
  split
  · next hz => simp [encloses, encIsZero_sound ha hz]
  · split
    · split
      · trivial
      · simp only [encloses] at *
        rw [ha, hb]; push_cast; rfl
    · exact liftGrid_sound (op := (· / ·)) gridDiv_sound ha hb

/-- A comparison that answers, answers as the real numbers do. -/
theorem encLt_sound {a b : Enc} {x y : ℝ} {t : Bool} (ha : encloses a x) (hb : encloses b y)
    (h : encLt a b = some t) : t = true ↔ x < y := by
  have hU := gridUnit_posR
  unfold encLt at h
  split at h
  · next p q =>
    simp only [encloses] at ha hb
    simp only [Option.some.injEq] at h
    rw [← h, ha, hb, decide_eq_true_iff]; exact_mod_cast Iff.rfl
  · split at h
    · next u v hu hv =>
      have h1 := encGrid_sound hu ha
      have h2 := encGrid_sound hv hb
      unfold decideFrom at h
      split at h
      · next c =>
        have c' : (u.2 : ℝ) < (v.1 : ℝ) := by exact_mod_cast of_decide_eq_true c
        have : x * gridUnit < y * gridUnit := by linarith [h1.2, h2.1]
        have := lt_of_mul_lt_mul_right this hU.le
        simp only [Option.some.injEq] at h; simp [← h, this]
      · split at h
        · next c =>
          have c' : (v.2 : ℝ) ≤ (u.1 : ℝ) := by exact_mod_cast of_decide_eq_true c
          have : y * gridUnit ≤ x * gridUnit := by linarith [h1.1, h2.2]
          have := le_of_mul_le_mul_right this hU
          simp only [Option.some.injEq] at h; simp [← h, this]
        · simp at h
    · simp at h

theorem encLe_sound {a b : Enc} {x y : ℝ} {t : Bool} (ha : encloses a x) (hb : encloses b y)
    (h : encLe a b = some t) : t = true ↔ x ≤ y := by
  have hU := gridUnit_posR
  unfold encLe at h
  split at h
  · next p q =>
    simp only [encloses] at ha hb
    simp only [Option.some.injEq] at h
    rw [← h, ha, hb, decide_eq_true_iff]; exact_mod_cast Iff.rfl
  · split at h
    · next u v hu hv =>
      have h1 := encGrid_sound hu ha
      have h2 := encGrid_sound hv hb
      unfold decideFrom at h
      split at h
      · next c =>
        have c' : (u.2 : ℝ) ≤ (v.1 : ℝ) := by exact_mod_cast of_decide_eq_true c
        have : x * gridUnit ≤ y * gridUnit := by linarith [h1.2, h2.1]
        have := le_of_mul_le_mul_right this hU
        simp only [Option.some.injEq] at h; simp [← h, this]
      · split at h
        · next c =>
          have c' : (v.2 : ℝ) < (u.1 : ℝ) := by exact_mod_cast of_decide_eq_true c
          have : y * gridUnit < x * gridUnit := by linarith [h1.1, h2.2]
          have := lt_of_mul_lt_mul_right this hU.le
          simp only [Option.some.injEq] at h; simp [← h, this]
        · simp at h
    · simp at h

/-- A test for zero that answers, answers as the real numbers do. -/
theorem encIsZero?_sound {a : Enc} {x : ℝ} {t : Bool} (ha : encloses a x)
    (h : encIsZero? a = some t) : t = true ↔ x = 0 := by
  have hU := gridUnit_posR
  cases a with
  | exact q =>
    simp only [encIsZero?, Option.some.injEq] at h
    rw [← h, show x = (q : ℝ) from ha, beq_iff_eq, Rat.num_eq_zero, Rat.cast_eq_zero]
  | between lo hi =>
    have h : decideFrom (lo == 0 && hi == 0) (decide (0 < lo) || decide (hi < 0)) = some t := h
    unfold decideFrom at h
    split at h
    · next c =>
      simp only [Bool.and_eq_true, beq_iff_eq] at c
      have hx : x * gridUnit = 0 := by
        have h1 := ha.1
        have h2 := ha.2
        rw [c.1, Int.cast_zero] at h1
        rw [c.2, Int.cast_zero] at h2
        exact le_antisymm h2 h1
      simp only [Option.some.injEq] at h
      simp [← h, (mul_eq_zero.mp hx).resolve_right hU.ne']
    · split at h
      · next c =>
        simp only [Bool.or_eq_true, decide_eq_true_eq] at c
        have hx : x ≠ 0 := by
          rintro rfl
          have h1 := ha.1
          have h2 := ha.2
          rw [zero_mul] at h1 h2
          have h1' : lo ≤ 0 := by exact_mod_cast h1
          have h2' : 0 ≤ hi := by exact_mod_cast h2
          omega
        simp only [Option.some.injEq] at h
        simp [← h, hx]
      · simp at h
  | unknown => simp [encIsZero?] at h

theorem encJoin_left {a b : Enc} {x : ℝ} (ha : encloses a x) : encloses (encJoin a b) x := by
  unfold encJoin
  split
  · exact ha
  · unfold liftGrid
    split
    · next u v hu hv =>
      have h1 := encGrid_sound hu ha
      simp only [encloses]
      push_cast
      exact ⟨(min_le_left _ _).trans h1.1, h1.2.trans (le_max_left _ _)⟩
    · trivial

theorem encJoin_right {a b : Enc} {y : ℝ} (hb : encloses b y) : encloses (encJoin a b) y := by
  unfold encJoin
  split
  · next h => rw [h]; exact hb
  · unfold liftGrid
    split
    · next u v hu hv =>
      have h1 := encGrid_sound hv hb
      simp only [encloses]
      push_cast
      exact ⟨(min_le_right _ _).trans h1.1, h1.2.trans (le_max_right _ _)⟩
    · trivial

/-! ### Integer roots and powers -/

theorem irootBits_sound (k n : Nat) : ∀ bits r : Nat, r ^ k ≤ n → n < (r + 2 ^ bits) ^ k →
    irootBits k n bits r ^ k ≤ n ∧ n < (irootBits k n bits r + 1) ^ k
  | 0, r, h1, h2 => by simpa [irootBits] using ⟨h1, h2⟩
  | bits + 1, r, h1, h2 => by
    unfold irootBits
    split
    · next h =>
      refine irootBits_sound k n bits _ h ?_
      rwa [Nat.add_assoc, ← Nat.two_mul, ← Nat.pow_succ']
    · next h => exact irootBits_sound k n bits _ h1 (not_le.mp h)

theorem iroot_sound {k : Nat} (hk : 0 < k) (n : Nat) :
    iroot k n ^ k ≤ n ∧ n < (iroot k n + 1) ^ k := by
  unfold iroot
  refine irootBits_sound k n _ 0 (by simp [hk.ne']) ?_
  rw [Nat.zero_add, ← Nat.pow_mul]
  refine Nat.lt_of_lt_of_le Nat.lt_log2_self (Nat.pow_le_pow_right (by norm_num) ?_)
  have h1 := Nat.div_add_mod (Nat.log2 n) k
  have h2 := Nat.mod_lt (Nat.log2 n) hk
  nlinarith [Nat.add_mul (Nat.log2 n / k) 1 k, Nat.mul_comm k (Nat.log2 n / k)]

end Sys2Proof.Machine
end

