-- ==== Sys2Proof/Laws/PowExpSound.lean ====
section
/-!
SUPPORT. `pow`, `exp`, `floor`, the pattern injection and the piecewise choices of the enclosures
enclose those of EXACT.
-/

namespace Sys2Proof.Machine

theorem powRadicand_real (e : Exponent) (x : Nat) :
    ((powRadicand e x).1 : ℝ) / ((powRadicand e x).2 : ℝ)
      = ((x : ℝ) / gridUnit) ^ e.num * (gridUnit : ℝ) ^ e.den := by
  have hU := gridUnit_posR
  unfold powRadicand
  push_cast
  rcases le_total e.num e.den with h | h
  · rw [Nat.sub_eq_zero_of_le h, pow_zero, div_one, div_pow]
    have hp : (gridUnit : ℝ) ^ e.den = (gridUnit : ℝ) ^ (e.den - e.num) * (gridUnit : ℝ) ^ e.num := by
      rw [← pow_add, Nat.sub_add_cancel h]
    rw [hp]; field_simp
  · rw [Nat.sub_eq_zero_of_le h, pow_zero, mul_one, div_pow]
    have hp : (gridUnit : ℝ) ^ e.num = (gridUnit : ℝ) ^ (e.num - e.den) * (gridUnit : ℝ) ^ e.den := by
      rw [← pow_add, Nat.sub_add_cancel h]
    rw [hp]; field_simp

theorem powRadicand_pos (e : Exponent) (x : Nat) : 0 < (powRadicand e x).2 :=
  Nat.pow_pos gridUnit_pos

/-- The `den`-th power of the grid value of `x ^ e`. -/
theorem rpow_pow_den (e : Exponent) (hd : 0 < e.den) {y : ℝ} (hy : 0 ≤ y) :
    (y ^ ((e.num : ℝ) / e.den) * gridUnit) ^ e.den = y ^ e.num * (gridUnit : ℝ) ^ e.den := by
  have hd' : (e.den : ℝ) ≠ 0 := by exact_mod_cast hd.ne'
  rw [mul_pow, ← Real.rpow_natCast (y ^ _), ← Real.rpow_mul hy, div_mul_cancel₀ _ hd',
    Real.rpow_natCast]

theorem powLo_sound (e : Exponent) (hd : 0 < e.den) (x : Nat) :
    (powLo e x : ℝ) ≤ ((x : ℝ) / gridUnit) ^ ((e.num : ℝ) / e.den) * gridUnit := by
  have hU := gridUnit_posR
  have hy : (0 : ℝ) ≤ (x : ℝ) / gridUnit := by positivity
  refine le_of_pow_le_pow_left₀ hd.ne' (by positivity) ?_
  rw [rpow_pow_den e hd hy, ← powRadicand_real]
  unfold powLo
  refine le_trans ?_ (natDiv_le_real _ _)
  exact_mod_cast (iroot_sound hd _).1

theorem powHi_sound (e : Exponent) (hd : 0 < e.den) (x : Nat) :
    ((x : ℝ) / gridUnit) ^ ((e.num : ℝ) / e.den) * gridUnit ≤ (powHi e x : ℝ) := by
  have hU := gridUnit_posR
  have hy : (0 : ℝ) ≤ (x : ℝ) / gridUnit := by positivity
  refine le_of_pow_le_pow_left₀ hd.ne' (by positivity) ?_
  rw [rpow_pow_den e hd hy, ← powRadicand_real]
  refine (real_le_natCeil _ (powRadicand_pos e x)).trans ?_
  unfold powHi
  simp only
  split
  · next h => exact_mod_cast h.symm.le
  · exact_mod_cast (iroot_sound hd _).2.le

theorem encPowExp_sound {a : Enc} {x : ℝ} (ha : encloses a x) (e : Exponent) :
    encloses (encPowExp a e) (x ^ ((e.num : ℝ) / e.den)) := by
  have hU := gridUnit_posR
  unfold encPowExp
  split
  · next u hu =>
    split
    · next hc =>
      have h := encGrid_sound hu ha
      simp only [Bool.and_eq_true, decide_eq_true_eq, bne_iff_ne] at hc
      have hd : 0 < e.den := Nat.pos_of_ne_zero hc.2
      have h1 : ((u.1.toNat : Nat) : ℝ) = (u.1 : ℝ) := by exact_mod_cast Int.toNat_of_nonneg hc.1
      have h0 : (0 : ℝ) ≤ (u.1 : ℝ) := by exact_mod_cast hc.1
      have h2i : (0 : ℝ) ≤ (u.2 : ℝ) := h0.trans (h.1.trans h.2)
      have h2 : ((u.2.toNat : Nat) : ℝ) = (u.2 : ℝ) := by
        exact_mod_cast Int.toNat_of_nonneg (by exact_mod_cast h2i)
      have hexp : (0 : ℝ) ≤ (e.num : ℝ) / e.den := by positivity
      simp only [encloses]
      constructor
      · refine le_trans (by exact_mod_cast powLo_sound e hd u.1.toNat) ?_
        refine mul_le_mul_of_nonneg_right (Real.rpow_le_rpow (by positivity) ?_ hexp) hU.le
        rw [h1, div_le_iff₀ hU]; exact h.1
      · refine le_trans ?_ (powHi_sound e hd u.2.toNat)
        refine mul_le_mul_of_nonneg_right (Real.rpow_le_rpow ?_ ?_ hexp) hU.le
        · exact nonneg_of_mul_nonneg_left (h0.trans h.1) hU
        · rw [h2, le_div_iff₀ hU]; exact h.2
    · trivial
  · trivial

theorem encPow_sound {a e : Enc} {x y : ℝ} (ha : encloses a x) (he : encloses e y) :
    encloses (encPow a e) (x ^ y) := by
  unfold encPow
  split
  · next q =>
    split
    · next hq =>
      have hn : ((q.num.toNat : Nat) : ℝ) = (q.num : ℝ) := by
        exact_mod_cast congrArg (fun z : Int => (z : ℝ)) (Int.toNat_of_nonneg hq)
      have hy : y = ((q.num.toNat : Nat) : ℝ) / (q.den : ℝ) := by
        rw [hn, show y = (q : ℝ) from he]; exact Rat.cast_def q
      rw [hy]
      exact encPowExp_sound ha ⟨q.num.toNat, q.den⟩
    · trivial
  · trivial

/-! ### The exponential -/

theorem sum_shift (z : ℝ) (j n : Nat) :
    ∑ m ∈ Finset.range n, z ^ (j + (m + 1)) / ((j + (m + 1)).factorial : ℝ)
      = ∑ m ∈ Finset.range n, z ^ (j + 1 + m) / ((j + 1 + m).factorial : ℝ) :=
  Finset.sum_congr rfl fun m _ => by rw [show j + (m + 1) = j + 1 + m by omega]

/-- The Taylor sum of `exp` on [0,1] with its last term taken three times is an upper bound. -/
theorem exp_le_taylor {z : ℝ} (h0 : 0 ≤ z) (h1 : z ≤ 1) {n : Nat} (hn : 0 < n) :
    Real.exp z ≤ ∑ m ∈ Finset.range n, z ^ m / m.factorial + 3 * (z ^ n / n.factorial) := by
  refine (Real.exp_bound' h0 h1 hn).trans (by
    have hf : (0 : ℝ) < n.factorial := by exact_mod_cast Nat.factorial_pos _
    have hn' : (1 : ℝ) ≤ n := by exact_mod_cast hn
    have hp : 0 ≤ z ^ n / n.factorial := by positivity
    have hq : z ^ n * (n + 1) / (n.factorial * n) = z ^ n / n.factorial * ((n + 1) / n) := by
      field_simp
    have hr : ((n : ℝ) + 1) / n ≤ 3 := by rw [div_le_iff₀ (by linarith)]; linarith
    rw [hq]
    nlinarith [mul_le_mul_of_nonneg_left hr hp])

theorem expSumLo_sound (y : Nat) : ∀ (n j t : Nat),
    (t : ℝ) ≤ gridUnit * (((y : ℝ) / gridUnit) ^ j / j.factorial) →
    (expSumLo y n (j + 1) t : ℝ)
      ≤ gridUnit * ∑ m ∈ Finset.range (n + 1), ((y : ℝ) / gridUnit) ^ (j + m) / (j + m).factorial
  | 0, j, t, h => by simpa [expSumLo] using h
  | n + 1, j, t, h => by
    have hU := gridUnit_posR
    unfold expSumLo
    rw [Finset.sum_range_succ', Nat.cast_add, sum_shift]
    simp only [Nat.add_zero]
    have hstep : ((t * y / (gridUnit * (j + 1)) : Nat) : ℝ)
        ≤ gridUnit * (((y : ℝ) / gridUnit) ^ (j + 1) / (j + 1).factorial) := by
      refine (natDiv_le_real _ _).trans ?_
      have : (gridUnit : ℝ) * (((y : ℝ) / gridUnit) ^ (j + 1) / (j + 1).factorial)
          = gridUnit * (((y : ℝ) / gridUnit) ^ j / j.factorial) * y / (gridUnit * (j + 1)) := by
        rw [Nat.factorial_succ, pow_succ]; push_cast; field_simp
      rw [this]
      push_cast
      exact div_le_div_of_nonneg_right (mul_le_mul_of_nonneg_right h (by positivity)) (by positivity)
    have ih := expSumLo_sound y n (j + 1) _ hstep
    linarith

theorem expSumHi_sound (y : Nat) : ∀ (n j t : Nat),
    gridUnit * (((y : ℝ) / gridUnit) ^ j / j.factorial) ≤ (t : ℝ) →
    gridUnit * (∑ m ∈ Finset.range n, ((y : ℝ) / gridUnit) ^ (j + m) / (j + m).factorial
        + 3 * (((y : ℝ) / gridUnit) ^ (j + n) / (j + n).factorial))
      ≤ (expSumHi y n (j + 1) t : ℝ)
  | 0, j, t, h => by
    simp only [expSumHi, Finset.range_zero, Finset.sum_empty, zero_add, Nat.add_zero]
    push_cast
    linarith
  | n + 1, j, t, h => by
    have hU := gridUnit_posR
    unfold expSumHi
    rw [Finset.sum_range_succ', Nat.cast_add, sum_shift, show j + (n + 1) = j + 1 + n by omega]
    simp only [Nat.add_zero]
    have hstep : gridUnit * (((y : ℝ) / gridUnit) ^ (j + 1) / (j + 1).factorial)
        ≤ (((t * y + gridUnit * (j + 1) - 1) / (gridUnit * (j + 1)) : Nat) : ℝ) := by
      refine le_trans ?_ (real_le_natCeil _ (Nat.mul_pos gridUnit_pos (Nat.succ_pos j)))
      have : (gridUnit : ℝ) * (((y : ℝ) / gridUnit) ^ (j + 1) / (j + 1).factorial)
          = gridUnit * (((y : ℝ) / gridUnit) ^ j / j.factorial) * y / (gridUnit * (j + 1)) := by
        rw [Nat.factorial_succ, pow_succ]; push_cast; field_simp
      rw [this]
      push_cast
      exact div_le_div_of_nonneg_right (mul_le_mul_of_nonneg_right h (by positivity)) (by positivity)
    have ih := expSumHi_sound y n (j + 1) _ hstep
    linarith

theorem squareLo_sound : ∀ (k s : Nat) (E : ℝ), 0 ≤ E → (s : ℝ) ≤ gridUnit * E →
    (squareLo k s : ℝ) ≤ gridUnit * E ^ 2 ^ k
  | 0, s, E, _, h => by simpa [squareLo] using h
  | k + 1, s, E, hE, h => by
    have hU := gridUnit_posR
    unfold squareLo
    have hs : ((s * s / gridUnit : Nat) : ℝ) ≤ gridUnit * E ^ 2 := by
      refine (natDiv_le_real _ _).trans ?_
      rw [div_le_iff₀ hU]
      push_cast
      nlinarith [mul_le_mul h h (Nat.cast_nonneg s) (by positivity)]
    refine (squareLo_sound k _ _ (sq_nonneg E) hs).trans ?_
    rw [← pow_mul, pow_succ' 2 k]

theorem squareHi_sound : ∀ (k s : Nat) (E : ℝ), 0 ≤ E → gridUnit * E ≤ (s : ℝ) →
    gridUnit * E ^ 2 ^ k ≤ (squareHi k s : ℝ)
  | 0, s, E, _, h => by
    show gridUnit * E ^ 2 ^ 0 ≤ (s : ℝ)
    rwa [pow_zero, pow_one]
  | k + 1, s, E, hE, h => by
    have hU := gridUnit_posR
    unfold squareHi
    have hs : gridUnit * E ^ 2 ≤ (((s * s + gridUnit - 1) / gridUnit : Nat) : ℝ) := by
      refine le_trans ?_ (real_le_natCeil _ gridUnit_pos)
      rw [le_div_iff₀ hU]
      push_cast
      nlinarith [mul_le_mul h h (by positivity) (Nat.cast_nonneg s)]
    refine le_trans ?_ (squareHi_sound k _ _ (sq_nonneg E) hs)
    rw [← pow_mul, pow_succ' 2 k]

theorem exp_halved (u : ℝ) (k : Nat) : Real.exp (u / 2 ^ k) ^ 2 ^ k = Real.exp u := by
  rw [← Real.exp_nat_mul]; push_cast; congr 1; field_simp

theorem expGrowLo_sound (u : Nat) :
    (expGrowLo u : ℝ) ≤ gridUnit * Real.exp ((u : ℝ) / gridUnit) := by
  have hU := gridUnit_posR
  unfold expGrowLo
  set k := expHalvings u
  have h0 := expSumLo_sound (u / 2 ^ k) expTerms 0 gridUnit (by simp)
  have h1 : (expSumLo (u / 2 ^ k) expTerms 1 gridUnit : ℝ)
      ≤ gridUnit * Real.exp ((u : ℝ) / gridUnit / 2 ^ k) := by
    refine h0.trans (mul_le_mul_of_nonneg_left ?_ hU.le)
    have hy : (0 : ℝ) ≤ ((u / 2 ^ k : Nat) : ℝ) / gridUnit := by positivity
    simp only [Nat.zero_add]
    refine (Real.sum_le_exp_of_nonneg hy (expTerms + 1)).trans (Real.exp_le_exp.mpr ?_)
    have := natDiv_le_real u (2 ^ k)
    push_cast at this
    calc ((u / 2 ^ k : Nat) : ℝ) / gridUnit ≤ (u : ℝ) / 2 ^ k / gridUnit :=
          div_le_div_of_nonneg_right this hU.le
      _ = (u : ℝ) / gridUnit / 2 ^ k := by rw [div_right_comm]
  have h2 := squareLo_sound k _ _ (Real.exp_pos _).le h1
  rwa [exp_halved] at h2

theorem expHalvings_bound (u : Nat) : u ≤ gridUnit * 2 ^ expHalvings u := by
  unfold expHalvings
  split
  · next h => simpa using h
  · have h1 : u / gridUnit < 2 ^ (Nat.log2 (u / gridUnit) + 1) := Nat.lt_log2_self
    exact (Nat.lt_mul_of_div_lt h1 gridUnit_pos).le.trans (by rw [Nat.mul_comm])

theorem expGrowHi_sound (u : Nat) :
    gridUnit * Real.exp ((u : ℝ) / gridUnit) ≤ (expGrowHi u : ℝ) := by
  have hU := gridUnit_posR
  unfold expGrowHi
  set k := expHalvings u with hk
  set y := (u + 2 ^ k - 1) / 2 ^ k with hy
  have h2k : 0 < 2 ^ k := Nat.two_pow_pos k
  have hyU : y ≤ gridUnit := by
    have hb := expHalvings_bound u
    rw [← hk] at hb
    have : y < gridUnit + 1 := by
      rw [hy, Nat.div_lt_iff_lt_mul h2k, Nat.add_mul, Nat.one_mul]
      omega
    omega
  have hY1 : (y : ℝ) / gridUnit ≤ 1 := by
    rw [div_le_one hU]; exact_mod_cast hyU
  have hY0 : (0 : ℝ) ≤ (y : ℝ) / gridUnit := by positivity
  have h0 := expSumHi_sound y expTerms 0 gridUnit (by simp)
  have hpow : Real.exp ((u : ℝ) / gridUnit / 2 ^ k) ≤ Real.exp ((y : ℝ) / gridUnit) := by
    refine Real.exp_le_exp.mpr ?_
    rw [div_right_comm]
    refine div_le_div_of_nonneg_right ?_ hU.le
    have := real_le_natCeil u h2k
    push_cast at this
    exact this
  have hb := exp_le_taylor hY0 hY1 (n := expTerms) (by decide)
  have h1 : gridUnit * Real.exp ((u : ℝ) / gridUnit / 2 ^ k)
      ≤ (expSumHi y expTerms 1 gridUnit : ℝ) := by
    refine le_trans (mul_le_mul_of_nonneg_left ?_ hU.le) h0
    simp only [Nat.zero_add]
    linarith
  have h2 := squareHi_sound k _ _ (Real.exp_pos _).le h1
  rwa [exp_halved] at h2

theorem expSumLo_ge (y : Nat) (n i t : Nat) : t ≤ expSumLo y n i t := by
  cases n with
  | zero => exact le_refl _
  | succ n => exact Nat.le_add_right _ _

theorem squareLo_ge : ∀ (k s : Nat), gridUnit ≤ s → gridUnit ≤ squareLo k s
  | 0, _, h => h
  | k + 1, s, h => by
    unfold squareLo
    refine squareLo_ge k _ ?_
    rw [Nat.le_div_iff_mul_le gridUnit_pos]
    exact Nat.mul_le_mul h h

theorem expGrowLo_ge (u : Nat) : gridUnit ≤ expGrowLo u :=
  squareLo_ge _ _ (expSumLo_ge _ _ _ _)

theorem encExp_sound {a : Enc} {x : ℝ} (ha : encloses a x) : encloses (encExp a) (Real.exp x) := by
  have hU := gridUnit_posR
  unfold encExp
  split
  · next hz => simp [encloses, encIsZero_sound ha hz]
  · split
    · next u hu =>
      split
      · next hneg =>
        have h := encGrid_sound hu ha
        have hx2 : (u.2 : ℝ) ≤ 0 := by exact_mod_cast hneg
        have hx1 : (u.1 : ℝ) ≤ 0 := (h.1.trans h.2).trans hx2
        have n1 : (((-u.1).toNat : Nat) : ℝ) = -(u.1 : ℝ) := by
          have : (0 : Int) ≤ -u.1 := by have : u.1 ≤ 0 := by exact_mod_cast hx1
                                        omega
          have := Int.toNat_of_nonneg this
          exact_mod_cast this
        have n2 : (((-u.2).toNat : Nat) : ℝ) = -(u.2 : ℝ) := by
          have := Int.toNat_of_nonneg (show (0 : Int) ≤ -u.2 by omega)
          exact_mod_cast this
        have hi := expGrowHi_sound (-u.1).toNat
        have lo := expGrowLo_sound (-u.2).toNat
        have lo0 : (0 : ℝ) < (expGrowLo (-u.2).toNat : ℝ) :=
          lt_of_lt_of_le hU (by exact_mod_cast expGrowLo_ge _)
        rw [n1] at hi
        rw [n2] at lo
        simp only [encloses]
        constructor
        · have hi0 : (0 : ℝ) < (expGrowHi (-u.1).toNat : ℝ) :=
            lt_of_lt_of_le (by positivity) hi
          have hd := natDiv_le_real (gridUnit * gridUnit) (expGrowHi (-u.1).toNat)
          refine le_trans (by exact_mod_cast hd) ?_
          push_cast
          rw [div_le_iff₀ hi0]
          have hmono : Real.exp ((u.1 : ℝ) / gridUnit) ≤ Real.exp x :=
            Real.exp_le_exp.mpr (by rw [div_le_iff₀ hU]; exact h.1)
          have hprod : Real.exp ((u.1 : ℝ) / gridUnit) * Real.exp (-(u.1 : ℝ) / gridUnit) = 1 := by
            rw [← Real.exp_add, neg_div, add_neg_cancel, Real.exp_zero]
          calc (gridUnit : ℝ) * gridUnit
              = Real.exp ((u.1 : ℝ) / gridUnit) * gridUnit
                  * (gridUnit * Real.exp (-(u.1 : ℝ) / gridUnit)) := by
                rw [show Real.exp ((u.1 : ℝ) / gridUnit) * gridUnit
                    * (gridUnit * Real.exp (-(u.1 : ℝ) / gridUnit))
                    = gridUnit * gridUnit * (Real.exp ((u.1 : ℝ) / gridUnit)
                        * Real.exp (-(u.1 : ℝ) / gridUnit)) by ring, hprod, mul_one]
            _ ≤ Real.exp x * gridUnit * (expGrowHi (-u.1).toNat : ℝ) :=
                mul_le_mul (mul_le_mul_of_nonneg_right hmono hU.le) hi (by positivity)
                  (by positivity)
        · have hd := real_le_natCeil (gridUnit * gridUnit)
            (show 0 < expGrowLo (-u.2).toNat from by exact_mod_cast lo0)
          refine le_trans ?_ (by exact_mod_cast hd)
          push_cast
          rw [le_div_iff₀ lo0]
          have hmono : Real.exp x ≤ Real.exp ((u.2 : ℝ) / gridUnit) :=
            Real.exp_le_exp.mpr (by rw [le_div_iff₀ hU]; exact h.2)
          have hprod : Real.exp ((u.2 : ℝ) / gridUnit) * Real.exp (-(u.2 : ℝ) / gridUnit) = 1 := by
            rw [← Real.exp_add, neg_div, add_neg_cancel, Real.exp_zero]
          calc Real.exp x * gridUnit * (expGrowLo (-u.2).toNat : ℝ)
              ≤ Real.exp ((u.2 : ℝ) / gridUnit) * gridUnit
                  * (gridUnit * Real.exp (-(u.2 : ℝ) / gridUnit)) :=
                mul_le_mul (mul_le_mul_of_nonneg_right hmono hU.le) lo lo0.le (by positivity)
            _ = (gridUnit : ℝ) * gridUnit := by
                rw [show Real.exp ((u.2 : ℝ) / gridUnit) * gridUnit
                    * (gridUnit * Real.exp (-(u.2 : ℝ) / gridUnit))
                    = gridUnit * gridUnit * (Real.exp ((u.2 : ℝ) / gridUnit)
                        * Real.exp (-(u.2 : ℝ) / gridUnit)) by ring, hprod, mul_one]
      · trivial
    · trivial

/-- A floor that answers, answers as the real numbers do. -/
theorem encFloor_sound {a : Enc} {x : ℝ} {n : Nat} (ha : encloses a x) (h : encFloor a = some n) :
    n = ⌊x⌋₊ := by
  have hU := gridUnit_posR
  cases a with
  | exact q =>
    simp only [encFloor, Option.some.injEq] at h
    rw [← h, show x = (q : ℝ) from ha, ← Int.floor_toNat, Rat.floor_cast, Rat.floor_def']
  | between lo hi =>
    simp only [encFloor] at h
    split at h
    · next he =>
      simp only [Option.some.injEq] at h
      have hUi : (0 : Int) < (gridUnit : Int) := by exact_mod_cast gridUnit_pos
      have hfl : ⌊x⌋ = lo / (gridUnit : Int) := by
        rw [Int.floor_eq_iff]
        constructor
        · refine (ediv_le_real hUi).trans ?_
          rw [div_le_iff₀ (by exact_mod_cast gridUnit_pos)]
          exact_mod_cast ha.1
        · have h1 := Int.lt_ediv_add_one_mul_self hi hUi
          have h2 : (hi : ℝ) < ((hi / (gridUnit : Int) + 1 : Int) : ℝ) * gridUnit := by
            exact_mod_cast h1
          have h3 : x * gridUnit < ((hi / (gridUnit : Int) + 1 : Int) : ℝ) * gridUnit :=
            lt_of_le_of_lt ha.2 h2
          have h4 := lt_of_mul_lt_mul_right h3 hU.le
          rw [he]; push_cast at h4 ⊢; exact h4
      rw [← h, ← Int.floor_toNat, hfl]
    · simp at h
  | unknown => simp [encFloor] at h

theorem encPattern_sound (p : Pattern) :
    encloses (encPattern p) (exactNumerics.pattern p) := by
  unfold encPattern
  show encloses _ (match val p with | .num q => (q : ℝ) | _ => 0)
  cases val p <;> simp [encloses]

/-- A choice encloses the branch the real comparison takes. -/
theorem choose_sound {answer : Option Bool} {P : Prop} [Decidable P] {yes no : Enc} {x y : ℝ}
    (hans : ∀ t, answer = some t → (t = true ↔ P)) (hy : encloses yes x) (hn : encloses no y) :
    encloses (choose answer encJoin (fun _ => yes) (fun _ => no)) (if P then x else y) := by
  unfold choose
  split
  · have := (hans true rfl).mp rfl; simpa [this] using hy
  · have : ¬ P := fun h => by simpa using (hans false rfl).mpr h
    simpa [this] using hn
  · split
    · exact encJoin_left hy
    · exact encJoin_right hn

theorem ifLt_sound {a b yes no : Enc} {x y u v : ℝ} (ha : encloses a x) (hb : encloses b y)
    (hyes : encloses yes u) (hno : encloses no v) :
    encloses (ifLt (num := encNumerics) a b yes no) (ifLt (num := exactNumerics) x y u v) := by
  classical
  have h := choose_sound (P := x < y) (fun t ht => encLt_sound ha hb ht) hyes hno
  have e : ifLt (num := exactNumerics) x y u v = if x < y then u else v := by
    show choose (some (@decide (x < y) (Classical.propDecidable _))) _ _ _ = _
    by_cases hxy : x < y <;> simp [choose, hxy]
  rw [e]; exact h

theorem ifLe_sound {a b yes no : Enc} {x y u v : ℝ} (ha : encloses a x) (hb : encloses b y)
    (hyes : encloses yes u) (hno : encloses no v) :
    encloses (ifLe (num := encNumerics) a b yes no) (ifLe (num := exactNumerics) x y u v) := by
  classical
  have h := choose_sound (P := x ≤ y) (fun t ht => encLe_sound ha hb ht) hyes hno
  have e : ifLe (num := exactNumerics) x y u v = if x ≤ y then u else v := by
    show choose (some (@decide (x ≤ y) (Classical.propDecidable _))) _ _ _ = _
    by_cases hxy : x ≤ y <;> simp [choose, hxy]
  rw [e]; exact h

end Sys2Proof.Machine
end

