-- ==== Sys2Proof/Machine/Assembler.lean ====
section
/-!
DEFINITION. The assembler syntax of R70 and the pseudo-instruction CONSTRUCT of R71: one line of
text, as a list of characters, to the command words it stands for.
-/

namespace Sys2Proof.Machine

/-- Why a line does not assemble. -/
inductive AsmError where
  | unknownMnemonic
  | operandCount
  | badFloat
  | badDimension
deriving DecidableEq, Repr

/-- A blank character. -/
def isBlank (c : Char) : Bool := c == ' ' || c == '\t'

/-- A line without leading and trailing blanks. -/
def trimBlanks (cs : List Char) : List Char :=
  ((cs.dropWhile isBlank).reverse.dropWhile isBlank).reverse

/-- The text before the comment sign `;` (R70). -/
def dropComment (cs : List Char) : List Char := cs.takeWhile fun c => c != ';'

/-- The pieces of a text between commas; none for an empty text. -/
def splitCommas (cs : List Char) : List (List Char) :=
  if trimBlanks cs = [] then []
  else
    let r := cs.foldr
      (fun c acc => if c == ',' then ([], trimBlanks acc.1 :: acc.2) else (c :: acc.1, acc.2))
      (([] : List Char), ([] : List (List Char)))
    trimBlanks r.1 :: r.2

/-- The value of a decimal digit. -/
def digit? (c : Char) : Option Nat :=
  if 48 ≤ c.toNat ∧ c.toNat ≤ 57 then some (c.toNat - 48) else none

/-- The value of a hexadecimal digit. -/
def hexDigit? (c : Char) : Option Nat :=
  if 48 ≤ c.toNat ∧ c.toNat ≤ 57 then some (c.toNat - 48)
  else if 65 ≤ c.toNat ∧ c.toNat ≤ 70 then some (c.toNat - 55)
  else if 97 ≤ c.toNat ∧ c.toNat ≤ 102 then some (c.toNat - 87)
  else none

/-- The number a list of digits in a base writes, none where a character is no digit. -/
def readDigits (base : Nat) (read : Char → Option Nat) (cs : List Char) : Option Nat :=
  cs.foldl (fun acc c => acc.bind fun n => (read c).map fun d => n * base + d) (some 0)

/-- A natural number in decimal, at least one digit. -/
def readNat (cs : List Char) : Option Nat := if cs = [] then none else readDigits 10 digit? cs

/-- An unsigned decimal literal: digits, or digits, a point and digits (R70). -/
def readUnsigned (cs : List Char) : Option ℚ :=
  let whole := cs.takeWhile fun c => c != '.'
  match cs.drop whole.length with
  | [] => (readNat whole).map fun n => (n : ℚ)
  | _ :: rest =>
    match readNat whole, readNat rest with
    | some n, some m => some (mkRat (n * 10 ^ rest.length + m) (10 ^ rest.length))
    | _, _ => none

/-- The operand `<f>` of R70: a raw pattern `0x` and eight hexadecimal digits, `inf`, `-inf`, or a
decimal literal with an optional sign, which assembles to the nearest binary32 pattern, ties to an
even last bit. -/
def readFloat (cs : List Char) : Option Pattern :=
  match cs with
  | ['i', 'n', 'f'] => some 0x7F800000
  | ['-', 'i', 'n', 'f'] => some 0xFF800000
  | '0' :: 'x' :: ds =>
    if ds.length = 8 then (readDigits 16 hexDigit? ds).map (BitVec.ofNat 32) else none
  | '-' :: ds => (readUnsigned ds).map fun q => pat (-q)
  | '+' :: ds => (readUnsigned ds).map pat
  | ds => (readUnsigned ds).map pat

/-- The operands `<W>` and `<H>` of R70: decimal integers 0..65535. -/
def readDim (cs : List Char) : Option Dim :=
  (readNat cs).bind fun n => if n < 65536 then some (BitVec.ofNat 16 n) else none

/-- The expansion of `CONSTRUCT` (R71): INIT, then a SET line for each argument given. -/
def constructWords (args : List Pattern) : List CommandWord :=
  encode .init ::
    List.zipWith (fun mk p => encode (mk p))
      [Instr.setShadow, Instr.setHighlight, Instr.setWidth, Instr.setBlur] args

/-- A list of operands read, or a named error. -/
def readAll {α : Type} (read : List Char → Option α) (err : AsmError) (ops : List (List Char)) :
    Except AsmError (List α) :=
  match ops.mapM read with
  | some vs => .ok vs
  | none => .error err

/-- One SET line. -/
def assembleSet (mk : Pattern → Instr) (ops : List (List Char)) :
    Except AsmError (List CommandWord) :=
  match readAll readFloat .badFloat ops with
  | .ok [p] => .ok [encode (mk p)]
  | .ok _ => .error .operandCount
  | .error e => .error e

/-- One line without operands. -/
def assembleN (i : Instr) (ops : List (List Char)) : Except AsmError (List CommandWord) :=
  if ops = [] then .ok [encode i] else .error .operandCount

/-- One APPLY line: width, then height. -/
def assembleApply (ops : List (List Char)) : Except AsmError (List CommandWord) :=
  match readAll readDim .badDimension ops with
  | .ok [w, h] => .ok [encode (.apply w h)]
  | .ok _ => .error .operandCount
  | .error e => .error e

/-- One CONSTRUCT line of at most four arguments (R71). -/
def assembleConstruct (ops : List (List Char)) : Except AsmError (List CommandWord) :=
  match readAll readFloat .badFloat ops with
  | .ok args => if args.length ≤ 4 then .ok (constructWords args) else .error .operandCount
  | .error e => .error e

/-- A mnemonic with its operands. -/
def assembleOp (mnemonic : List Char) (ops : List (List Char)) :
    Except AsmError (List CommandWord) :=
  if mnemonic = ['I', 'N', 'I', 'T'] then assembleN .init ops
  else if mnemonic = ['G', 'E', 'T', '_', 'P', 'A', 'R', 'A', 'M', 'S'] then
    assembleN .getParams ops
  else if mnemonic = ['S', 'E', 'T', '_', 'S', 'H', 'A', 'D', 'O', 'W'] then
    assembleSet .setShadow ops
  else if mnemonic = ['S', 'E', 'T', '_', 'H', 'I', 'G', 'H', 'L', 'I', 'G', 'H', 'T'] then
    assembleSet .setHighlight ops
  else if mnemonic = ['S', 'E', 'T', '_', 'W', 'I', 'D', 'T', 'H'] then assembleSet .setWidth ops
  else if mnemonic = ['S', 'E', 'T', '_', 'B', 'L', 'U', 'R'] then assembleSet .setBlur ops
  else if mnemonic = ['A', 'P', 'P', 'L', 'Y'] then assembleApply ops
  else if mnemonic = ['C', 'O', 'N', 'S', 'T', 'R', 'U', 'C', 'T'] then assembleConstruct ops
  else .error .unknownMnemonic

/-- One line of assembly (R70): a comment is dropped, an empty line gives no word. -/
def assembleLine (line : List Char) : Except AsmError (List CommandWord) :=
  let text := trimBlanks (dropComment line)
  if text = [] then .ok []
  else
    let mnemonic := text.takeWhile fun c => !isBlank c
    assembleOp mnemonic (splitCommas (text.drop mnemonic.length))

end Sys2Proof.Machine
end

