-- ==== Sys2Proof/Safety.lean ====
section
/-!
DEFINITION. What holds of every state of a run: the terms in which claims speak of a safe engine.
-/

namespace Sys2Proof.Machine

/-- Every parameter register holds the pattern of a number in its range (R22). -/
def paramsLegal (x : Params) : Bool :=
  legalParam .shadow x.shadow && legalParam .highlight x.highlight && legalParam .width x.width
    && legalParam .radius x.radius

/-- The outcome codes commands can leave in STATUS.ERR: 0, 1 and 4 (R89, R170). -/
def errReachable (e : BitVec 8) : Bool := e == 0 || e == 1 || e == 4

/-- The response last delivered carries the code in STATUS.ERR (R69). -/
def responseAgrees (s : State) : Bool :=
  match s.response with
  | some r => r.code == s.status.err
  | none => s.status.err == 0

/-- While OUT_VALID = 1, OUT_W and OUT_H are the size of an image and every byte of it stands in OBUF
(R25, R26, R48 (d)). -/
def outputComplete (s : State) : Prop :=
  s.status.outValid = true →
    s.outW ≠ 0 ∧ s.outH ≠ 0 ∧
      ∀ a < 3 * s.outW.toNat * s.outH.toNat, (memLookup s.obuf a).isSome = true

/-- The invariant of the engine between host moves: idle, legal parameters, a reachable outcome code
that the response carries, a complete output behind OUT_VALID, both buffers in canonical form. -/
structure Inv (s : State) : Prop where
  idle : s.status.busy = false
  params : paramsLegal s.x = true
  err : errReachable s.status.err = true
  response : responseAgrees s = true
  output : outputComplete s
  ibufWf : Memory.wf s.ibuf = true
  obufWf : Memory.wf s.obuf = true

/-- What a SET command stores (R22, R81 to R84): the upper bound's pattern `top` for a value above the
range, 0x00000000 for a value below it or a zero pattern, and the operand itself, subnormal numbers
included, for every other value of the range. -/
def storesClamped (i : Param) (top p stored : Pattern) : Prop :=
  (val p = .negInf → stored = 0x00000000) ∧ (val p = .posInf → stored = top) ∧
    (p = 0x00000000 ∨ p = 0x80000000 → stored = 0x00000000) ∧
    ∀ q, val p = .num q →
      (q < paramLo i → stored = 0x00000000) ∧ (paramHi i < q → stored = top) ∧
        (q ≠ 0 → paramLo i ≤ q → q ≤ paramHi i → stored = p)

/-- Every value of a real plane lies in an interval. -/
def planeWithin {w h : Nat} (p : Plane ℝ w h) (lo hi : ℝ) : Prop := ∀ v ∈ p.px, lo ≤ v ∧ v ≤ hi

end Sys2Proof.Machine
end

