-- ==== Sys2Proof/Certificates/Slice0/Obligations.lean ====
section
/-!
DEFINITION. The statements for the provers.  Each docstring names the rule of the spec it rests on
and, where the model's own choice stands behind it, the entry of the assumption log.
-/

open Sys2Proof Sys2Proof.Machine

/-! ### Encoding -/

/-- R14, R62 to R66: the decoder reads back every well-formed instruction, every operand at every value:
in the reference instance, and on every copy of the hardware every instruction whose sizes fit its fields. -/
def Obligations.DecodeOfEncode : Prop :=
  (∀ i : Instr, i.wellFormed = true → decode (encode i) = .ok i) ∧
    ∀ (cfg : Cfg) (i : Instr), i.wellFormedAt cfg = true → decodeAt cfg (encode i) = .ok i

/-- R62 to R68: a legal word is the encoding of the well-formed instruction it decodes to, so no two
words stand for one instruction and no bit of a legal word is dropped; and on every copy of the hardware
(R14) what a word decodes to is well-formed there, and is what the reference instance reads where the
fields have 16 bits or more (the model's choice above 16, log entry 18). -/
def Obligations.EncodeOfDecode : Prop :=
  (∀ (w : CommandWord) (i : Instr), decode w = .ok i → encode i = w ∧ i.wellFormed = true) ∧
    (∀ (cfg : Cfg) (w : CommandWord) (i : Instr), decodeAt cfg w = .ok i → i.wellFormedAt cfg = true) ∧
    ∀ (cfg : Cfg) (w : CommandWord), 16 ≤ cfg.dimBits → decodeAt cfg w = decode w

/-- R67: the decoder of every copy of the hardware, `decode` that of the reference instance among them,
refuses a word exactly under one of the conditions (a) to (d). -/
def Obligations.DecodeRefusesExactly : Prop :=
  ∀ (cfg : Cfg) (w : CommandWord),
    (∃ e, decodeAt cfg w = .error e) ↔
      (opcField w ∉ ([0x01, 0x02, 0x10, 0x11, 0x12, 0x13, 0x20] : List (BitVec 8))
        ∨ rsvField w ≠ 0
        ∨ ((opcField w = 0x01 ∨ opcField w = 0x02) ∧ opdField w ≠ 0)
        ∨ (opcField w ∈ ([0x10, 0x11, 0x12, 0x13] : List (BitVec 8)) ∧ isNaN (opdField w) = true))

/-- R61 to R66 on words written out from the encoding (V-ENC-1, 2, 3, 5, 6, 7, 11 of the test vectors). -/
def Obligations.DecodeSampleWords : Prop :=
  decode 0x0100000000000000 = .ok .init ∧
    decode 0x0200000000000000 = .ok .getParams ∧
    decode 0x100000003E99999A = .ok (.setShadow 0x3E99999A) ∧
    decode 0x1100000040000000 = .ok (.setHighlight 0x40000000) ∧
    decode 0x1200000040A00000 = .ok (.setWidth 0x40A00000) ∧
    decode 0x13000000447A0000 = .ok (.setBlur 0x447A0000) ∧
    decode 0x2000000001E00280 = .ok (.apply 640 480)

/-- R43, decision D28: the little-endian serialisation of a word decodes as the word. -/
def Obligations.DecodeOfLittleEndianBytes : Prop :=
  ∀ w : CommandWord, decodeBytes (wordBytes 8 w.toNat) = decode w

/-! ### The command port -/

/-- R195, R48: an idle engine runs the decoded command that is next on the port, BUSY set for the
time of its execution, and takes it off the port (log entry 5: the port is the model's). -/
def Obligations.StepRunsDecodedCommand : Prop :=
  ∀ (s : State) (w : CommandWord) (rest : List HostMove) (i : Instr),
    s.status.busy = false → s.port = .command w :: rest → decode w = .ok i →
      step s = exec i (accept { s with port := rest })

/-- R173, R174: an illegal word ends with code 4 and the response (4, 0); OUT_VALID, the parameters,
OUT_W, OUT_H and both buffers keep their values. -/
def Obligations.StepIllegalWord : Prop :=
  ∀ (s : State) (w : CommandWord) (rest : List HostMove) (e : DecodeError),
    s.status.busy = false → s.port = .command w :: rest → decode w = .error e →
      step s = .next
        { s with
          status := ⟨4, s.status.outValid, false⟩
          response := some ⟨4, 0⟩
          port := rest }

/-- R13, R190, R192, R195, I1, I2: what the other host moves do to an idle engine and to a busy one.
The model's choices: the port (log entry 5), the draws (entry 3), the refusal of a busy engine (entry
7); that a reset keeps IBUF and an idle reset keeps OBUF is the model's inference from I23 against the
wording of R190, unsafe (entry 8); that a reset leaves no response is the model's (entry 6). -/
def Obligations.StepHostMoves : Prop :=
  ∀ (s : State) (rest : List HostMove),
    (s.port = [] → step s = .next s) ∧
    (∀ a b, s.port = .writeIbuf a b :: rest → s.status.busy = false →
      ∃ t, step s = .next t ∧ readIbuf t a = b ∧ (∀ c, c ≠ a → readIbuf t c = readIbuf s c) ∧
        t = { s with ibuf := t.ibuf, port := rest }) ∧
    (s.port = .reset :: rest →
      ∃ t, step s = .next t ∧ t.x = defaultParams ∧ statusWord t.status = 0 ∧ t.outW = 0 ∧
        t.outH = 0 ∧ t.ibuf = s.ibuf ∧ t.response = none ∧ t.port = rest ∧
        (s.status.busy = false → ∀ a, readObuf t a = readObuf s a) ∧
        (s.status.busy = true → ∀ a, readObuf t a = Config.obufDraw (s.obufEpoch + 1) a)) ∧
    (∀ a b, s.port = .writeIbuf a b :: rest → s.status.busy = true →
      step s = .refused .engineBusy) ∧
    (∀ w, s.port = .command w :: rest → s.status.busy = true → step s = .refused .engineBusy) ∧
    (∀ a, s.status.busy = true → hostReadObuf s a = .error .engineBusy) ∧
    (∀ a, s.status.busy = false → hostReadObuf s a = .ok (readObuf s a))

/-- R25: the ten bits of STATUS, for every value of its fields. -/
def Obligations.StatusWordFields : Prop :=
  ∀ t : Status,
    (statusWord t).extractLsb' 0 8 = t.err ∧ (statusWord t).getLsbD 8 = t.outValid ∧
      (statusWord t).getLsbD 9 = t.busy

/-- R190: the state after reset. -/
def Obligations.ResetState : Prop :=
  State.reset.x.get .shadow = 0x3E99999A ∧ State.reset.x.get .highlight = 0x3E99999A ∧
    State.reset.x.get .width = 0x3F000000 ∧ State.reset.x.get .radius = 0x41700000 ∧
    statusWord State.reset.status = 0 ∧ State.reset.outW = 0 ∧ State.reset.outH = 0 ∧
    (∀ a, readIbuf State.reset a = Config.ibufDraw a) ∧
    ∀ a, readObuf State.reset a = Config.obufDraw 0 a

/-! ### The parameter commands -/

/-- R80: INIT, word 0x0100000000000000, writes the four defaults, ERR and the response (0, 0), and
nothing else; the defaults lie in their ranges and are the reset values; INIT is idempotent. -/
def Obligations.InitResult : Prop :=
  encode .init = 0x0100000000000000 ∧ ∀ s : State, ∃ t : State,
    exec .init s = .next t ∧ t.x = State.reset.x ∧
    (∀ i, clampedOperand i (t.x.get i) = some (t.x.get i)) ∧
    t = { s with
          x := ⟨0x3E99999A, 0x3E99999A, 0x3F000000, 0x41700000⟩
          status := ⟨0, s.status.outValid, false⟩
          response := some ⟨0, 0⟩ } ∧
    (∀ a, readIbuf t a = readIbuf s a) ∧ (∀ a, readObuf t a = readObuf s a) ∧
    exec .init t = .next t

/-- R85: GET_PARAMS, word 0x0200000000000000, reports the four stored patterns in the 128-bit response
and changes no register but ERR. -/
def Obligations.GetParamsResult : Prop :=
  encode .getParams = 0x0200000000000000 ∧ ∀ s : State, ∃ (t : State) (r : Response),
    exec .getParams s = .next t ∧ t.response = some r ∧ r.code = 0 ∧
    r.data.extractLsb' 0 32 = s.x.shadow ∧ r.data.extractLsb' 32 32 = s.x.highlight ∧
    r.data.extractLsb' 64 32 = s.x.width ∧ r.data.extractLsb' 96 32 = s.x.radius ∧
    (s.x = State.reset.x → r.data = 0x41700000_3F000000_3E99999A_3E99999A) ∧
    t = { s with status := ⟨0, s.status.outValid, false⟩, response := some r }

/-- R81 to R84, R22: each SET command stores its clamped operand into its own register, ERR and the
response (0, 0), and changes nothing else; the words of the four commands. -/
def Obligations.SetCommandsStoreClamped : Prop :=
  ∀ (s : State) (p : Pattern), isNaN p = false →
    encode (.setShadow p) = 0x10000000#32 ++ p ∧ encode (.setHighlight p) = 0x11000000#32 ++ p ∧
    encode (.setWidth p) = 0x12000000#32 ++ p ∧ encode (.setBlur p) = 0x13000000#32 ++ p ∧
    (∃ v, storesClamped .shadow 0x3F800000 p v ∧
      exec (.setShadow p) s = .next
        { s with
          x := { s.x with shadow := v }
          status := ⟨0, s.status.outValid, false⟩
          response := some ⟨0, 0⟩ }) ∧
    (∃ v, storesClamped .highlight 0x3F800000 p v ∧
      exec (.setHighlight p) s = .next
        { s with
          x := { s.x with highlight := v }
          status := ⟨0, s.status.outValid, false⟩
          response := some ⟨0, 0⟩ }) ∧
    (∃ v, storesClamped .width 0x3F800000 p v ∧
      exec (.setWidth p) s = .next
        { s with
          x := { s.x with width := v }
          status := ⟨0, s.status.outValid, false⟩
          response := some ⟨0, 0⟩ }) ∧
    (∃ v, storesClamped .radius 0x42480000 p v ∧
      exec (.setBlur p) s = .next
        { s with
          x := { s.x with radius := v }
          status := ⟨0, s.status.outValid, false⟩
          response := some ⟨0, 0⟩ })

/-- R67 (d), R68, R173 on the instruction itself: a SET command whose operand is a NaN writes no
register and ends with code 4. -/
def Obligations.SetCommandsRefuseNaN : Prop :=
  ∀ (s : State) (p : Pattern), isNaN p = true →
    ∀ i ∈ [Instr.setShadow p, .setHighlight p, .setWidth p, .setBlur p],
      exec i s = .next
        { s with status := ⟨4, s.status.outValid, false⟩, response := some ⟨4, 0⟩ }

/-- R21: `val` and `pat` are inverse: on the pattern of every number but the negative zero, and on
every number of a pattern. -/
def Obligations.PatInvertsVal : Prop :=
  (∀ (p : Pattern) (q : ℚ), val p = .num q → p ≠ 0x80000000 → pat q = p) ∧
    ∀ (p : Pattern) (q : ℚ), val p = .num q → val (pat q) = .num q

/-- R22: what a SET command stores is always legal: a number of the range, never 0x80000000, and
storing it again changes nothing. -/
def Obligations.StoredParameterLegal : Prop :=
  ∀ (i : Param) (p v : Pattern), clampedOperand i p = some v →
    legalParam i v = true ∧ clampedOperand i v = some v

/-- R70: on every number of the finite range `pat` gives a nearest binary32 number, and on a tie one
with an even last bit. -/
def Obligations.PatIsNearest : Prop :=
  ∀ v : ℚ, |v| ≤ (2 ^ 24 - 1) * 2 ^ 104 →
    ∃ q, val (pat v) = .num q ∧
      ∀ (p : Pattern) (q' : ℚ), val p = .num q' →
        |v - q| ≤ |v - q'| ∧ (|v - q| = |v - q'| → q ≠ q' → (pat v).getLsbD 0 = false)

/-- R71: CONSTRUCT with four arguments leaves each register with its clamped argument, whatever the
registers held before. -/
def Obligations.ConstructSetsClampedArguments : Prop :=
  ∀ (s : State) (a b c d : Pattern) (rest : List HostMove),
    s.status.busy = false →
    (∀ p ∈ [a, b, c, d], isNaN p = false) →
    s.port = (constructWords [a, b, c, d]).map HostMove.command ++ rest →
    ∃ t, Host.Core.run Sys2Proof.core 5 s = .next t ∧ t.port = rest ∧ t.status.busy = false ∧
      some (t.x.get .shadow) = clampedOperand .shadow a ∧
      some (t.x.get .highlight) = clampedOperand .highlight b ∧
      some (t.x.get .width) = clampedOperand .width c ∧
      some (t.x.get .radius) = clampedOperand .radius d

/-! ### All commands -/

/-- R69, R88, R170: every command of every state ends in a next state with exactly one response, whose
code is the new ERR, and an idle engine; nothing faults, nothing is refused, and the codes 2 and 3 and
5 to 255 never occur. -/
def Obligations.EveryCommandResponds : Prop :=
  ∀ (i : Instr) (s : State), ∃ (t : State) (r : Response),
    exec i s = .next t ∧ t.response = some r ∧ r.code = t.status.err ∧ t.status.busy = false ∧
      (r.code = 0 ∨ r.code = 1 ∨ r.code = 4) ∧ (r.code ≠ 0 → r.data = 0) ∧
      (i ≠ .getParams → r.data = 0)

/-- R23, R25, R26, R27, R28: only APPLY touches OUT_VALID, OUT_W, OUT_H and OBUF; only INIT and the SET
commands write a parameter register, each SET only its own; no command writes IBUF. -/
def Obligations.CommandFrames : Prop :=
  ∀ (i : Instr) (s t : State), exec i s = .next t →
    t.ibuf = s.ibuf ∧ (∀ a, readIbuf t a = readIbuf s a) ∧ t.port = s.port ∧
    t.obufEpoch = s.obufEpoch ∧
    ((∀ w h, i ≠ .apply w h) →
      t.status.outValid = s.status.outValid ∧ t.outW = s.outW ∧ t.outH = s.outH ∧
        t.obuf = s.obuf ∧ ∀ a, readObuf t a = readObuf s a) ∧
    ((∀ w h, i = .apply w h → t.x = s.x) ∧ (i = .getParams → t.x = s.x)) ∧
    (∀ p j, i = .setShadow p → j ≠ Param.shadow → t.x.get j = s.x.get j) ∧
    (∀ p j, i = .setHighlight p → j ≠ Param.highlight → t.x.get j = s.x.get j) ∧
    (∀ p j, i = .setWidth p → j ≠ Param.width → t.x.get j = s.x.get j) ∧
    (∀ p j, i = .setBlur p → j ≠ Param.radius → t.x.get j = s.x.get j)

/-- The invariant of `Safety.lean` holds after reset (R190). -/
def Obligations.ResetMeetsInvariant : Prop := Inv State.reset

/-- Every step keeps the invariant: idle between host moves, legal parameters (R22), a reachable
outcome code that the response carries (R69, R89), a complete output behind OUT_VALID (R25, R48 (d)),
canonical buffers. -/
def Obligations.StepKeepsInvariant : Prop :=
  ∀ s t : State, Inv s → step s = .next t → Inv t

/-- No host move is ever refused to an engine that meets the invariant, and no step faults: a run from
such a state never stops. -/
def Obligations.InvariantStatesStep : Prop :=
  ∀ s : State, Inv s → ∃ t, step s = .next t

/-! ### APPLY -/

/-- R87, R171: APPLY on an image without pixels: code 1, OUT_VALID cleared, the response (1, 0), and
nothing else changes. -/
def Obligations.ApplyEmptyImage : Prop :=
  ∀ (w h : Dim) (s : State), w = 0 ∨ h = 0 →
    ∃ t : State, exec (.apply w h) s = .next t ∧
      t = { s with status := ⟨1, false, false⟩, response := some ⟨1, 0⟩ } ∧
      (∀ a, readIbuf t a = readIbuf s a) ∧ ∀ a, readObuf t a = readObuf s a

/-- R86, R28, R41, R42, R89: APPLY on an image with pixels succeeds on every state: it reads pixel
(x, y) from the IBUF bytes at `off` x y 0, 1 and 2, blue, green and red, writes the bytes of its output
image to OBUF 0 to 3·W·H - 1 at the same offsets and no others, sets OUT_W, OUT_H and OUT_VALID,
answers (0, 0), and changes nothing else. -/
def Obligations.ApplyCompletes : Prop :=
  ∀ (w h : Dim) (s : State), w ≠ 0 → h ≠ 0 →
    (∀ x y, x < w.toNat → y < h.toNat →
      (loadImage s w.toNat h.toNat).px[y * w.toNat + x]?
        = some ⟨readIbuf s (off w.toNat x y 0), readIbuf s (off w.toNat x y 1),
            readIbuf s (off w.toNat x y 2)⟩) ∧
    ∃ (out : Plane (Triple (Option Byte)) w.toNat h.toNat) (t : State),
      applyOutput w h s = .ok out ∧ exec (.apply w h) s = .next t ∧
      t = { s with
            obuf := memStore s.obuf (outputBytes referenceHardware s.x w h (loadImage s w.toNat h.toNat) out)
            outW := w
            outH := h
            status := ⟨0, true, false⟩
            response := some ⟨0, 0⟩ } ∧
      (∀ a, 3 * w.toNat * h.toNat ≤ a → readObuf t a = readObuf s a) ∧
      ∀ x y, x < w.toNat → y < h.toNat →
        ∀ px, out.px[y * w.toNat + x]? = some px →
          (∀ b, px.c0 = some b → readObuf t (off w.toNat x y 0) = b) ∧
          (∀ b, px.c1 = some b → readObuf t (off w.toNat x y 1) = b) ∧
          (∀ b, px.c2 = some b → readObuf t (off w.toNat x y 2) = b)

/-- R86 in EXACT (R19): every output byte the model's enclosures decide is the byte of the reference
numerics, and it is the byte in OBUF after APPLY.  Log entries 1 and 2: an undecided byte is a free
value. -/
def Obligations.ApplyWritesExactBytes : Prop :=
  ∀ (w h : Dim) (s : State), w ≠ 0 → h ≠ 0 →
    ∃ (out ref : Plane (Triple (Option Byte)) w.toNat h.toNat) (t : State),
      applyOutput w h s = .ok out ∧
      exactOutput Config.defaults s.x (loadImage s w.toNat h.toNat) = .ok ref ∧
      exec (.apply w h) s = .next t ∧
      (∀ o ∈ imageBytes ref, o.isSome = true) ∧
      ∀ (a : Nat) (b : Byte), (imageBytes out)[a]? = some (some b) →
        (imageBytes ref)[a]? = some (some b) ∧ memLookup t.obuf a = some b

/-- R30, R91: what APPLY writes depends on nothing but the four parameters, W, H and the first 3·W·H
bytes of IBUF. -/
def Obligations.ApplyDependsOnOperandsOnly : Prop :=
  ∀ (w h : Dim) (s1 s2 : State),
    s1.x = s2.x → (∀ a < 3 * w.toNat * h.toNat, readIbuf s1 a = readIbuf s2 a) →
    ∃ t1 t2, exec (.apply w h) s1 = .next t1 ∧ exec (.apply w h) s2 = .next t2 ∧
      t1.status = t2.status ∧ t1.response = t2.response ∧
      (w ≠ 0 → h ≠ 0 → t1.outW = t2.outW ∧ t1.outH = t2.outH ∧
        ∀ a < 3 * w.toNat * h.toNat, memLookup t1.obuf a = memLookup t2.obuf a)

/-- R84, R140: every stored radius of 20 or more gives the same APPLY: the same image in EXACT, the same
decided bytes, and the same bytes in OBUF, the undecided ones among them (log entries 1 and 2: the free
value of an undecided byte takes the radius only up to 20). -/
def Obligations.RadiusSaturatesAtTwenty : Prop :=
  ∀ (w h : Dim) (s : State) (p q : Pattern) (u v : ℚ),
    val p = .num u → val q = .num v → 20 ≤ u → 20 ≤ v →
    let sp := { s with x := { s.x with radius := p } }
    let sq := { s with x := { s.x with radius := q } }
    applyOutput w h sp = applyOutput w h sq ∧
      (∀ img : Plane (Triple Byte) w.toNat h.toNat,
        exactOutput Config.defaults sp.x img = exactOutput Config.defaults sq.x img) ∧
      ∃ tp tq, exec (.apply w h) sp = .next tp ∧ exec (.apply w h) sq = .next tq ∧
        tp.obuf = tq.obuf ∧ tp.status = tq.status ∧ tp.response = tq.response ∧
        tp.outW = tq.outW ∧ tp.outH = tq.outH ∧ ∀ a, readObuf tp a = readObuf tq a

/-- R41, R45: the offsets of a W×H image are exactly 0 to 3·W·H - 1, each of one pixel and channel. -/
def Obligations.PixelOffsetsCoverOnce : Prop :=
  ∀ w h : Nat,
    (∀ x y c, x < w → y < h → c < 3 → off w x y c < 3 * w * h) ∧
    (∀ x y c x' y' c', x < w → x' < w → c < 3 → c' < 3 →
      off w x y c = off w x' y' c' → x = x' ∧ y = y' ∧ c = c') ∧
    ∀ a < 3 * w * h, ∃ x y c, x < w ∧ y < h ∧ c < 3 ∧ off w x y c = a

/-! ### The stages, in EXACT -/

/-- R168: the 8-bit round trip is the identity on all 2^24 pixels in the reference configuration. -/
def Obligations.RoundTripIdentity : Prop :=
  ∀ p : Triple Byte,
    tobgrPx (num := exactNumerics) Config.defaults
        (tolabPx (num := exactNumerics) Config.defaults p)
      = ⟨some p.c0, some p.c1, some p.c2⟩

/-- R90: with both amounts zero the output of APPLY equals its input, for every image, every width and
every radius. -/
def Obligations.NoCorrectionIsIdentity : Prop :=
  ∀ (w h : Nat) (x : Params) (img : Plane (Triple Byte) w h),
    x.shadow = 0x00000000 → x.highlight = 0x00000000 →
    exactOutput Config.defaults x img
      = .ok (mapPlane (fun p => ⟨some p.c0, some p.c1, some p.c2⟩) img)

/-- R154: a uniform (30,30,30) image of any size becomes (35,35,35) at shadow amount 0.1 and (70,70,70)
at 0.7, the highlight amount 0, the width 0.5, any radius in range: a strict lift. -/
def Obligations.ShadowLiftOfDarkGrey : Prop :=
  ∀ (w h : Nat) (radius : Pattern), 0 < w → 0 < h → legalParam .radius radius = true →
    exactOutput Config.defaults ⟨0x3DCCCCCD, 0, 0x3F000000, radius⟩ (constPlane w h ⟨30, 30, 30⟩)
        = .ok (constPlane w h ⟨some 35, some 35, some 35⟩) ∧
      exactOutput Config.defaults ⟨0x3F333333, 0, 0x3F000000, radius⟩ (constPlane w h ⟨30, 30, 30⟩)
        = .ok (constPlane w h ⟨some 70, some 70, some 70⟩)

/-- R142: both masks lie in [0,1], for every tonal width and radius in range and every valid
configuration, and each is all zero or reaches exactly 1. -/
def Obligations.MasksBounded : Prop :=
  ∀ (cfg : Cfg) (w h : Nat) (lum : Plane ℝ w h) (tw br : ℝ),
    cfg.valid = true → 0 < w → 0 < h → 0 ≤ tw → tw ≤ 1 → 0 ≤ br → br ≤ 50 →
    ∀ m ∈ [shadowMask (num := exactNumerics) cfg lum tw br,
        highlightMask (num := exactNumerics) cfg lum tw br],
      planeWithin m 0 1 ∧ ((∀ v ∈ m.px, v = 0) ∨ (1 : ℝ) ∈ m.px)

/-- R125 (a) to (d): GBLUR averages: it stays within every bound of its input, so it keeps a constant
plane and a plane of one pixel, and it keeps a positive pixel of a non-negative plane positive. -/
def Obligations.GblurAverages : Prop :=
  ∀ (cfg : Cfg) (w h : Nat) (p : Plane ℝ w h) (r : ℝ), cfg.valid = true →
    (∀ lo hi, planeWithin p lo hi → planeWithin (gblur (num := exactNumerics) cfg p r) lo hi) ∧
    (∀ v, p = constPlane w h v → gblur (num := exactNumerics) cfg p r = p) ∧
    (w = 1 → h = 1 → gblur (num := exactNumerics) cfg p r = p) ∧
    ((∀ v ∈ p.px, 0 ≤ v) → ∀ x y, x < w → y < h → 0 < planeAt p 0 x y →
      0 < planeAt (gblur (num := exactNumerics) cfg p r) 0 x y)

/-- R125 (e): GBLUR commutes with transposing the plane and with mirroring it either way. -/
def Obligations.GblurSymmetric : Prop :=
  ∀ (cfg : Cfg) (w h : Nat) (p : Plane ℝ w h) (r : ℝ),
    gblur (num := exactNumerics) cfg (transposePlane p 0) r
        = transposePlane (gblur (num := exactNumerics) cfg p r) 0 ∧
      gblur (num := exactNumerics) cfg (mirrorColumns p 0) r
        = mirrorColumns (gblur (num := exactNumerics) cfg p r) 0 ∧
      gblur (num := exactNumerics) cfg (mirrorRows p 0) r
        = mirrorRows (gblur (num := exactNumerics) cfg p r) 0

/-- R124: a horizontal pass followed by a vertical pass equals the square convolution. -/
def Obligations.SeparableEqualsSquare : Prop :=
  ∀ (w h half : Nat) (p : Plane ℝ w h) (r : ℝ), 0 < r →
    separablePlane (num := exactNumerics) r half p = convPlane (num := exactNumerics) r half p

/-- R120, R126, R140: below its identity radius GBLUR returns its input; FBLUR takes one, two or three
passes by its two non-strict thresholds; MBLUR skips up to epsilon and uses at most radius 20. -/
def Obligations.BlurPassPlan : Prop :=
  ∀ (w h : Nat) (p : Plane ℝ w h) (r : ℝ),
    let g := fun q s => gblur (num := exactNumerics) (w := w) (h := h) Config.defaults q s
    let f := fun q s => fblur (num := exactNumerics) (w := w) (h := h) Config.defaults q s
    (r < 1 / 10 → g p r = p) ∧
    (r ≤ 8 → f p r = g p r) ∧
    (8 < r → r ≤ 20 → f p r = g (g p (r / 2)) (r / 2)) ∧
    (20 < r → f p r = g (g (g p (r / 3)) (r / 3)) (r / 3)) ∧
    (r ≤ 1 / 10 → mblur (num := exactNumerics) Config.defaults p r = p) ∧
    (1 / 10 < r → mblur (num := exactNumerics) Config.defaults p r = f p (min r 20))

/-- R121, R127: the kernel size is odd, from 3 to 101, the rounding of a tie up or to even cannot
change it, and the sizes of FBLUR's passes are those of the table. -/
def Obligations.KernelSizes : Prop :=
  (∀ r : ℝ, 0 ≤ r → r ≤ 50 → ∃ n, ksize (num := exactNumerics) r = some n ∧
      n % 2 = 1 ∧ 3 ≤ n ∧ n ≤ 101) ∧
    (∀ (r : ℝ) (m : Nat), 0 ≤ r → 2 * r + 1 = m + 1 / 2 →
      ksize (num := exactNumerics) r = some (max 3 ((if m % 2 = 0 then m else m + 1) ||| 1))) ∧
    (∀ (r : ℝ) (n : Nat), ksize (num := exactNumerics) r = some n →
      (0 ≤ r → r ≤ 8 → n ≤ 17) ∧ (4 < r → r ≤ 10 → 9 ≤ n ∧ n ≤ 21) ∧
        (20 / 3 < r → r ≤ 50 / 3 → 15 ≤ n ∧ n ≤ 35))

/-- R135, R136: with T = W1·tw and lo = T·W2, SMASK0 is 1 up to lo, falls linearly from 1 at lo to P at
T, and is 0 above T; so it lies in [0,1] and does not increase with the luminance; with tonal width 0
only a pixel of luminance at most 0 gets 1, every other 0. -/
def Obligations.ShadowThreshold : Prop :=
  ∀ (cfg : Cfg) (tw : ℝ), cfg.valid = true → 0 ≤ tw → tw ≤ 1 →
    (∀ v : ℝ,
      let t : ℝ := (cfg.w1Shadow : ℝ) * tw
      let lo : ℝ := t * (cfg.w2Full : ℝ)
      (v ≤ lo → smask0Px (num := exactNumerics) cfg tw v = 1) ∧
        (lo < v → v ≤ t → smask0Px (num := exactNumerics) cfg tw v
          = 1 - (1 - (cfg.shPartial : ℝ)) * (v - lo) / (t - lo)) ∧
        (t < v → smask0Px (num := exactNumerics) cfg tw v = 0)) ∧
    (∀ v : ℝ, 0 ≤ smask0Px (num := exactNumerics) cfg tw v ∧
      smask0Px (num := exactNumerics) cfg tw v ≤ 1) ∧
    (∀ u v : ℝ, u ≤ v →
      smask0Px (num := exactNumerics) cfg tw v ≤ smask0Px (num := exactNumerics) cfg tw u) ∧
    (tw = 0 → ∀ v : ℝ, smask0Px (num := exactNumerics) cfg tw v = if v ≤ 0 then 1 else 0) ∧
    ∀ v : ℝ, 1 < v → smask0Px (num := exactNumerics) cfg tw v = 0

/-- R137, R138: HMASK0 lies in [0,1] and does not decrease with the luminance; it is 1 from the
threshold on and 0 up to nine tenths of it. -/
def Obligations.HighlightThreshold : Prop :=
  ∀ (cfg : Cfg) (tw : ℝ), cfg.valid = true → 0 ≤ tw → tw ≤ 1 →
    (∀ v : ℝ, 0 ≤ hmask0Px (num := exactNumerics) cfg tw v ∧
      hmask0Px (num := exactNumerics) cfg tw v ≤ 1) ∧
    (∀ u v : ℝ, u ≤ v →
      hmask0Px (num := exactNumerics) cfg tw u ≤ hmask0Px (num := exactNumerics) cfg tw v) ∧
    ∀ v : ℝ,
      let t : ℝ := 1 - (cfg.w3Highlight : ℝ) * tw
      (t ≤ v → hmask0Px (num := exactNumerics) cfg tw v = 1) ∧
        (v ≤ 9 / 10 * t → hmask0Px (num := exactNumerics) cfg tw v = 0) ∧
        (9 / 10 * t ≤ v → v ≤ t →
          hmask0Px (num := exactNumerics) cfg tw v = (v - 9 / 10 * t) / (t / 10))

/-- R141, R143 (b): RENORM leaves an all-zero mask alone, divides any other non-negative mask by its
positive maximum, which the result attains as 1, and does not see a positive factor. -/
def Obligations.RenormByMaximum : Prop :=
  ∀ (w h : Nat) (m : Plane ℝ w h), 0 < w → 0 < h → (∀ v ∈ m.px, 0 ≤ v) →
    ((∀ v ∈ m.px, v = 0) ∧ renorm (num := exactNumerics) m = m ∨
      ∃ mx ∈ m.px, 0 < mx ∧ (∀ v ∈ m.px, v ≤ mx) ∧
        renorm (num := exactNumerics) m = mapPlane (fun v => v / mx) m) ∧
    ∀ k : ℝ, 0 < k →
      renorm (num := exactNumerics) (mapPlane (fun v => k * v) m) = renorm (num := exactNumerics) m

/-- R150 to R152, R155: for operands in [0,1] and K + C at most 1 the clamp does not act and the change
is bounded by K. -/
def Obligations.CorrectionBounds : Prop :=
  ∀ (cfg : Cfg) (sa ha v s l : ℝ),
    cfg.valid = true → cfg.kDamp + cfg.cMargin ≤ 1 →
    (∀ u ∈ [sa, ha, v, s, l], 0 ≤ u ∧ u ≤ 1) →
    let k : ℝ := cfg.kDamp
    let c := correctPx (num := exactNumerics) cfg sa ha v s l
    c = v + sa * s * (1 - v) * k - ha * l * v * k ∧
      v * (1 - k) ≤ c ∧ c ≤ v + (1 - v) * k ∧ 0 ≤ c ∧ c ≤ 1

/-- R150, R151, R153: for every valid configuration CORRECT is the unclamped value c, cut to the interval
[v·C, 1 - (1-v)·C] where it lies outside; with no amounts or no masks it returns a luminance in [0,1]
unchanged, and a luminance above 1 as the upper bound. -/
def Obligations.CorrectionClamp : Prop :=
  ∀ (cfg : Cfg) (sa ha v s l : ℝ), cfg.valid = true →
    let k : ℝ := cfg.kDamp
    let c : ℝ := cfg.cMargin
    (correctPx (num := exactNumerics) cfg sa ha v s l
      = max (v * c) (min (v + sa * s * (1 - v) * k - ha * l * v * k) (1 - (1 - v) * c))) ∧
    (v * c ≤ correctPx (num := exactNumerics) cfg sa ha v s l ∧
      correctPx (num := exactNumerics) cfg sa ha v s l ≤ 1 - (1 - v) * c) ∧
    ((sa = 0 ∧ ha = 0 ∨ s = 0 ∧ l = 0) →
      (0 ≤ v → v ≤ 1 → correctPx (num := exactNumerics) cfg sa ha v s l = v) ∧
        (1 < v → correctPx (num := exactNumerics) cfg sa ha v s l = 1 + (v - 1) * c))

/-- R104, R162: the Lab nonlinearity and its inverse undo each other on every real number. -/
def Obligations.LabNonlinearityInverse : Prop :=
  ∀ t : ℝ,
    labFinv (num := exactNumerics) (labF (num := exactNumerics) t) = t ∧
      labF (num := exactNumerics) (labFinv (num := exactNumerics) t) = t

/-- R101, R104: on the values TOLAB meets, both curves are increasing, and `lin` runs from 0 to 1. -/
def Obligations.ForwardCurvesIncrease : Prop :=
  lin (num := exactNumerics) 0 = 0 ∧ lin (num := exactNumerics) 1 = 1 ∧
    (∀ b c : Byte, b.toNat < c.toNat →
      lin (num := exactNumerics) (normByte (num := exactNumerics) b)
        < lin (num := exactNumerics) (normByte (num := exactNumerics) c)) ∧
    ∀ t u : ℝ, t < u → labF (num := exactNumerics) t < labF (num := exactNumerics) u

/-- R14, R165, R166, R212, I13: the 8-bit rounding of any value is defined, saturates outside [0,1], and
is within one half of the scaled value; a tie goes where `ROUND_TIE` sends it, up in the reference
configuration.  The rules for ties other than half up are the model's (log entry 4). -/
def Obligations.RoundingToByte : Prop :=
  Config.defaults.roundTie = .halfUp ∧
  ∀ (cfg : Cfg) (t : ℝ), ∃ b : Byte, toU8 (num := exactNumerics) cfg t = some b ∧
    (t ≤ 0 → b = 0) ∧ (1 ≤ t → b = 255) ∧
    (0 ≤ t → t ≤ 1 → (b.toNat : ℝ) - 1 / 2 ≤ t * 255 ∧ t * 255 ≤ b.toNat + 1 / 2) ∧
    (cfg.roundTie = .halfUp → t ≤ 1 → t * 255 < b.toNat + 1 / 2) ∧
    ∀ k : Nat, k < 255 → t * 255 = k + 1 / 2 →
      (cfg.roundTie = .halfUp → b.toNat = k + 1) ∧ (cfg.roundTie = .halfDown → b.toNat = k) ∧
      (cfg.roundTie = .halfEven → b.toNat % 2 = 0) ∧
      ∀ up, cfg.roundTie = .perTie up → b.toNat = if up.getLsbD k then k + 1 else k

/-! ### The stages, in every numerics record -/

/-- R114: MERGE and SPLIT undo each other, and in EXACT so do DENORM and NORM. -/
def Obligations.SplitMergeRoundTrip : Prop :=
  (∀ (F : Type) (_num : Numerics F) (w h : Nat) (im : Image F w h), im.channels = 3 →
      ∃ ps q, split im = .ok ps ∧ merge ps = .ok q ∧ imageOfTriples q = im) ∧
    (∀ (F : Type) (_num : Numerics F) (w h : Nat) (l a b : Plane F w h),
      ∃ q, merge [l, a, b] = .ok q ∧ split (imageOfTriples q) = .ok [l, a, b]) ∧
    ∀ (w h : Nat) (p : Plane ℝ w h),
      denormLum (num := exactNumerics) (normLum (num := exactNumerics) p) = p

/-- R110, R111, R172: SPLIT raises CHANNEL_COUNT exactly on an image without 3 channels, MERGE raises
PLANE_COUNT exactly on a list without 3 planes; their codes are 2 and 3. -/
def Obligations.StageErrors : Prop :=
  (∀ (F : Type) (_num : Numerics F) (w h : Nat) (im : Image F w h),
      split im = .error .channelCount ↔ im.channels ≠ 3) ∧
    (∀ (F : Type) (_num : Numerics F) (w h : Nat) (ps : List (Plane F w h)),
      merge ps = .error .planeCount ↔ ps.length ≠ 3) ∧
    codeBits (stageCode .channelCount) = 2 ∧ codeBits (stageCode .planeCount) = 3

/-- R89: no stage fails inside APPLY, in any numerics record and any configuration. -/
def Obligations.PipelineNeverFails : Prop :=
  ∀ (F : Type) (num : Numerics F) (cfg : Cfg) (v : ParamValues F) (w h : Nat)
    (img : Plane (Triple Byte) w h), ∃ out, applyImage (num := num) cfg v img = .ok out

/-- R86, R112, R113, R140, R141, R150: what SPLIT to MERGE make of a working image, at every pixel: L
becomes 255 times CORRECT of the input's luminance v = Ls/255 with the two masks, both built from that
one luminance plane (the highlight mask does not see the shadow correction); a and b pass through. -/
def Obligations.OnlyLuminanceChanges : Prop :=
  ∀ (F : Type) (num : Numerics F) (cfg : Cfg) (v : ParamValues F) (w h : Nat)
    (lab : Plane (Triple F) w h),
    let lum : Plane F w h := mapPlane (fun px => px.c0 / num.nat 255) lab
    let sm : Plane F w h := renorm (mblur cfg (smask0 cfg lum v.tw) v.br)
    let hm : Plane F w h := renorm (mblur cfg (hmask0 cfg lum v.tw) v.br)
    ∃ lab2, correctLab (num := num) cfg v (imageOfTriples lab) = .ok lab2 ∧
      lab2.px.map Triple.c1 = lab.px.map Triple.c1 ∧ lab2.px.map Triple.c2 = lab.px.map Triple.c2 ∧
      ∀ i, i < w * h → ∃ px s l, lab.px[i]? = some px ∧ sm.px[i]? = some s ∧ hm.px[i]? = some l ∧
        lab2.px[i]?
          = some ⟨correctPx cfg v.sa v.ha (px.c0 / num.nat 255) s l * num.nat 255, px.c1, px.c2⟩

/-- R14, R15, R31, R171: every copy of the hardware, that is every numerics record and every
configuration that meets the constraints (`cfg.valid`; I20: no other is a configuration), runs the
reference instance's commands, but for an APPLY on an image with pixels, whose stages take their
constants and operations from it; an idle engine runs the command that its own decoder reads, and ends an
illegal word with code 4; every step of an idle engine ends in an idle next state; OUT_W and OUT_H are W
and H of a successful APPLY, and no step leaves more than `DIM_BITS` bits in them.  That `execAt` takes a W
or H that does not fit `DIM_BITS`, which no word of the copy carries, as it stands is the model's choice
(log entry 18).  The port is the model's own (log entry 5), and the reference copy is the machine of `step`
(the model's choice, log entry 4). -/
def Obligations.EveryConfigurationSteps : Prop :=
  (∀ (F : Type) (num : Numerics F) (cfg : Cfg) (hv : cfg.valid = true),
    let hw : Hardware F := ⟨cfg, num, hv⟩
    (∀ (i : Instr) (s : State), (∀ w h, i = .apply w h → w = 0 ∨ h = 0) →
      execAt hw i s = exec i s) ∧
    (∀ (w h : Dim) (s : State), w ≠ 0 → h ≠ 0 → ∃ t, execAt hw (.apply w h) s = .next t ∧
      t.status = ⟨0, true, false⟩ ∧ t.response = some ⟨0, 0⟩ ∧ t.x = s.x ∧ t.ibuf = s.ibuf ∧
      (∀ a, 3 * w.toNat * h.toNat ≤ a → readObuf t a = readObuf s a) ∧ t.outW = w ∧ t.outH = h) ∧
    (∀ (s : State) (u : CommandWord) (rest : List HostMove),
      s.status.busy = false → s.port = .command u :: rest →
        (∀ i, decodeAt cfg u = .ok i → stepAt hw s = execAt hw i (accept { s with port := rest })) ∧
        ∀ e, decodeAt cfg u = .error e → stepAt hw s = .next
          { s with
            status := ⟨4, s.status.outValid, false⟩
            response := some ⟨4, 0⟩
            port := rest }) ∧
    (∀ s : State, s.status.busy = false →
      ∃ t, stepAt hw s = .next t ∧ t.status.busy = false) ∧
    ∀ s t : State, s.outW.toNat < 2 ^ cfg.dimBits → s.outH.toNat < 2 ^ cfg.dimBits →
      stepAt hw s = .next t → t.outW.toNat < 2 ^ cfg.dimBits ∧ t.outH.toNat < 2 ^ cfg.dimBits) ∧
  ∀ s : State, stepAt referenceHardware s = step s

/-! ### The blur's weights, in EXACT -/

/-- R120, R122, R123: the blur's weights in EXACT.  A kernel tap weighs exp(-(dx² + dy²)/(2·r²)) over the
sum of all cells, so the taps sum to 1; a pixel of the convolution is the average of the in-bounds
pixels with these weights, a neighbour outside the plane left out of both sums; and GBLUR from its
identity radius on is that convolution with the kernel of R121. -/
def Obligations.BlurWeights : Prop :=
  ∀ (w h half : Nat) (p : Plane ℝ w h) (r : ℝ), 0 < r →
    let g : ℤ × ℤ → ℝ := fun d => Real.exp (-((d.1 : ℝ) ^ 2 + (d.2 : ℝ) ^ 2) / (2 * r ^ 2))
    let square : Finset (ℤ × ℤ) := Finset.Icc (-(half : ℤ)) half ×ˢ Finset.Icc (-(half : ℤ)) half
    let near : Nat → Nat → Finset (ℤ × ℤ) := fun x y =>
      square.filter fun d => 0 ≤ (x : ℤ) + d.1 ∧ (x : ℤ) + d.1 < w ∧
        0 ≤ (y : ℤ) + d.2 ∧ (y : ℤ) + d.2 < h
    (∀ t ∈ kernel (num := exactNumerics) r half,
        (t.dx, t.dy) ∈ square ∧ t.weight = g (t.dx, t.dy) / ∑ d ∈ square, g d) ∧
      ((kernel (num := exactNumerics) r half).map Tap.weight).sum = 1 ∧
      (∀ x y, x < w → y < h →
        planeAt (convPlane (num := exactNumerics) r half p) 0 x y
          = (∑ d ∈ near x y, g d * planeAt p 0 ((x : ℤ) + d.1).toNat ((y : ℤ) + d.2).toNat)
              / ∑ d ∈ near x y, g d) ∧
      ∀ cfg : Cfg, cfg.valid = true → 1 / 10 ≤ r →
        ∃ n, ksize (num := exactNumerics) r = some n ∧
          gblur (num := exactNumerics) cfg p r = convPlane (num := exactNumerics) r ((n - 1) / 2) p

/-! ### The colour conversions, in EXACT -/

/-- R100 to R106, R160 to R166: TOLAB and TOBGR of a pixel in plain real terms, for every valid
configuration, a tie of the rounding going where its `ROUND_TIE` sends it (R14).  The stored pixel is
blue, green, red; the matrices are written for red, green, blue. -/
def Obligations.ColourFormulas : Prop :=
  ∀ cfg : Cfg, cfg.valid = true →
    let lin' : ℝ → ℝ := fun c =>
      if 4045 / 100000 < c then ((c + 55 / 1000) / (1055 / 1000)) ^ (12 / 5 : ℝ) else c / (1292 / 100)
    let f : ℝ → ℝ := fun t =>
      if (6 / 29) ^ 3 < t then t ^ (1 / 3 : ℝ) else t / (3 * (6 / 29) ^ 2) + 4 / 29
    let finv : ℝ → ℝ := fun t => if 6 / 29 < t then t ^ 3 else 3 * (6 / 29) ^ 2 * (t - 4 / 29)
    let gam' : ℝ → ℝ := fun c =>
      if 31308 / 10000000 < c then 1055 / 1000 * c ^ (5 / 12 : ℝ) - 55 / 1000 else 1292 / 100 * c
    let row : Triple ℚ → ℝ → ℝ → ℝ → ℝ := fun m a b c =>
      (m.c0 : ℝ) * a + (m.c1 : ℝ) * b + (m.c2 : ℝ) * c
    (∀ p : Triple Byte,
      let red := lin' (p.c2.toNat / 255)
      let green := lin' (p.c1.toNat / 255)
      let blue := lin' (p.c0.toNat / 255)
      let fx := f (row cfg.mFwd.row0 red green blue / (cfg.xn : ℝ))
      let fy := f (row cfg.mFwd.row1 red green blue / (cfg.yn : ℝ))
      let fz := f (row cfg.mFwd.row2 red green blue / (cfg.zn : ℝ))
      tolabPx (num := exactNumerics) cfg p
        = ⟨255 / 100 * (116 * fy - 16), 500 * (fx - fy) + 128, 200 * (fy - fz) + 128⟩) ∧
    ∀ s : Triple ℝ,
      let fy := (s.c0 * 100 / 255 + 16) / 116
      let x := (cfg.xn : ℝ) * finv (fy + (s.c1 - 128) / 500)
      let y := (cfg.yn : ℝ) * finv fy
      let z := (cfg.zn : ℝ) * finv (fy - (s.c2 - 128) / 200)
      let red := gam' (row cfg.mInv.row0 x y z)
      let green := gam' (row cfg.mInv.row1 x y z)
      let blue := gam' (row cfg.mInv.row2 x y z)
      let byte : ℝ → Byte := fun t =>
        let v := max 0 (min t 1) * 255
        let n := ⌊v + 1 / 2⌋₊
        open Classical in
        BitVec.ofNat 8 (if v + 1 / 2 = n ∧ tieGoesUp cfg.roundTie (n - 1) = false then n - 1 else n)
      tobgrLevels (num := exactNumerics) cfg s = ⟨blue, green, red⟩ ∧
        tobgrPx (num := exactNumerics) cfg s
          = ⟨some (byte blue), some (byte green), some (byte red)⟩

/-! ### The size fields of any copy of the hardware -/

/-- R14, R62, R65: on every copy of the hardware a word of APPLY decodes to the width in the low
`DIM_BITS` bits of the low half of its operand and the height in those of the high half; a half has 16
bits.  Where the two fields of a copy with another width than 16 stand is the model's choice (log entry
18). -/
def Obligations.SizeFieldsOfApply : Prop :=
  ∀ (cfg : Cfg) (u : CommandWord), opcField u = 0x20 → rsvField u = 0 →
    ∃ w h : Dim, decodeAt cfg u = .ok (.apply w h) ∧
      w.toNat = u.toNat % 2 ^ min cfg.dimBits 16 ∧
      h.toNat = u.toNat / 2 ^ 16 % 2 ^ min cfg.dimBits 16 ∧
      (cfg.dimBits = 16 → w = (opdField u).extractLsb' 0 16 ∧ h = (opdField u).extractLsb' 16 16)

/-! ### The radius in any configuration, in EXACT -/

/-- R14, R30, R140: in EXACT, with every valid configuration, two stored radii of which MBLUR takes the same
give the same APPLY, undecided bytes among them (log entry 2): two radii up to `BLUR_EPS`, which leave the
masks unblurred, and two radii above it with one minimum with `BLUR_RMAX`, whichever constant is larger. -/
def Obligations.RadiusActsThroughMaskBlur : Prop :=
  ∀ (cfg : Cfg) (hv : cfg.valid = true) (w h : Dim) (s : State) (p q : Pattern) (u v : ℚ),
    val p = .num u → val q = .num v →
    (u ≤ cfg.blurEps ∧ v ≤ cfg.blurEps ∨
      cfg.blurEps < u ∧ cfg.blurEps < v ∧ min u cfg.blurRmax = min v cfg.blurRmax) →
    let hw : Hardware ℝ := ⟨cfg, exactNumerics, hv⟩
    let sp := { s with x := { s.x with radius := p } }
    let sq := { s with x := { s.x with radius := q } }
    ∃ tp tq, execAt hw (.apply w h) sp = .next tp ∧ execAt hw (.apply w h) sq = .next tq ∧
      tq = { tp with x := sq.x }
end

