-- ==== Sys2Proof/Tests/Slice0.lean ====
section
/-!
SUPPORT. Tests.  Expected results are the spec's own: the vectors V-…, the programs P1 to P6 of
`95_test_vectors.md`, and the examples of the rules.  The last part shows, for every statement with
hypotheses, concrete values that meet them.
-/

namespace Sys2Proof.Machine

/-! ### Small states -/

/-- The reset state with a parameter file, an image in IBUF and one command on the port. -/
def testState (x : Params) (img : List Byte) (w : CommandWord) : State :=
  { State.reset with x := x, ibuf := cellsFrom 0 img, port := [.command w] }

/-- What a test looks at after one step: the parameters, STATUS, OUT_W, OUT_H, the written bytes of
OBUF and the response. -/
structure View where
  x : Params
  status : BitVec 10
  outW : Dim
  outH : Dim
  obuf : List Byte
  response : Option Response
deriving DecidableEq

/-- The view after one step that goes on. -/
def testView (s : State) : Option View :=
  match step s with
  | .next t => some ⟨t.x, statusWord t.status, t.outW, t.outH, t.obuf.map Prod.snd, t.response⟩
  | _ => none

/-- The end state of program P2: a 1×1 result in OBUF. -/
def doneState (w : CommandWord) : State :=
  { testState defaultParams [30, 30, 30] w with
    status := ⟨0, true, false⟩, outW := 1, outH := 1, obuf := cellsFrom 0 [47, 47, 47] }

/-- An engine in the middle of a command, with one host move pending. -/
def busyState (m : HostMove) : State :=
  { State.reset with status := ⟨0, false, true⟩, port := [m] }

/-! ### Configuration and reset -/

/-- R14, R15, I20: the constraints refuse C > 1, W2 = 1, W3 = 1, `DIM_BITS` 0, and two matrices that are
not inverse to each other. -/
theorem test_invalid_configurations :
    ({ Config.defaults with cMargin := 11 / 10 } : Cfg).valid = false ∧
      ({ Config.defaults with w2Full := 1 } : Cfg).valid = false ∧
      ({ Config.defaults with w3Highlight := 1 } : Cfg).valid = false ∧
      ({ Config.defaults with dimBits := 0 } : Cfg).valid = false ∧
      ({ Config.defaults with mInv := Config.mFwd } : Cfg).valid = false := by decide +kernel

/-- R14, D11: the other pair of constants that the source names, K = 0.7 and C = 0.5, with 8-bit sizes. -/
theorem test_other_configuration_valid :
    ({ Config.defaults with kDamp := 7 / 10, cMargin := 1 / 2, dimBits := 8 } : Cfg).valid = true := by
  decide +kernel

/-- A copy of the hardware with 8-bit sizes. -/
def smallHardware : Hardware Enc :=
  ⟨{ Config.defaults with kDamp := 7 / 10, cMargin := 1 / 2, dimBits := 8 }, encNumerics,
    test_other_configuration_valid⟩

/-- R14, R65: one word of APPLY on three copies: 16-bit fields read W = 0x0103 and H = 0x0102, 8-bit fields
W = 3 and H = 2, 1-bit fields W = 1 and H = 0. -/
theorem test_decode_field_widths :
    decode 0x2000000001020103 = .ok (.apply 0x0103 0x0102) ∧
      decodeAt smallHardware.cfg 0x2000000001020103 = .ok (.apply 3 2) ∧
      decodeAt { Config.defaults with dimBits := 1 } 0x2000000001020103 = .ok (.apply 1 0) ∧
      decodeAt { Config.defaults with dimBits := 20 } 0x2000000001020103
        = .ok (.apply 0x0103 0x0102) := by decide

/-- R14: a size that the fields of the copy with 8-bit sizes cannot hold is not well-formed there. -/
theorem test_wellFormed_refuses_wide_sizes :
    (Instr.apply 256 1).wellFormedAt smallHardware.cfg = false ∧
      (Instr.apply 1 256).wellFormedAt smallHardware.cfg = false ∧
      (Instr.apply 255 255).wellFormedAt smallHardware.cfg = true ∧
      (Instr.setBlur 0x7FFFFFFF).wellFormedAt smallHardware.cfg = false := by decide

/-- `roundNearest` of a rational by a rule for ties. -/
def testRound (r : RoundTie) (q : ℚ) : Option Nat :=
  roundNearest (num := encNumerics) { Config.defaults with roundTie := r } (.exact q)

/-- R14, R166: the ties 5/2, 7/2 and 1/2, and the values 13/5 and 0, under each rule for ties. -/
theorem test_round_ties :
    [RoundTie.halfUp, .halfDown, .halfEven, .perTie 4].map (fun r =>
        [5 / 2, 7 / 2, 1 / 2, 13 / 5, 0].map (testRound r))
      = [[some 3, some 4, some 1, some 3, some 0], [some 2, some 3, some 0, some 3, some 0],
          [some 2, some 4, some 0, some 3, some 0], [some 3, some 3, some 0, some 3, some 0]] := by
  decide +kernel

/-- R171: an APPLY with width 256 and height 0 is an empty image on the copy with 8-bit sizes too. -/
theorem test_dimension_bits :
    (match stepAt smallHardware (testState defaultParams [] 0x2000000000000100) with
      | .next t => statusWord t.status == 1
      | _ => false) = true := by decide +kernel

/-! ### Decoding (V-ENC) -/

theorem test_decode_init : decode 0x0100000000000000 = .ok .init := by decide
theorem test_decode_getParams : decode 0x0200000000000000 = .ok .getParams := by decide
theorem test_decode_setShadow : decode 0x10000000BF800000 = .ok (.setShadow 0xBF800000) := by decide
theorem test_decode_setHighlight :
    decode 0x1100000040000000 = .ok (.setHighlight 0x40000000) := by decide
theorem test_decode_setWidth : decode 0x1200000040A00000 = .ok (.setWidth 0x40A00000) := by decide
theorem test_decode_setBlur : decode 0x1300000041700000 = .ok (.setBlur 0x41700000) := by decide

/-- V-ENC-11: W = 640 in the low half, H = 480 in the high half. -/
theorem test_decode_apply : decode 0x2000000001E00280 = .ok (.apply 640 480) := by decide

/-- V-ENC-13, 14, 15: reserved operation codes. -/
theorem test_decode_reserved_opcode :
    decode 0x0000000000000000 = .error .reservedOpcode ∧
      decode 0x0300000000000000 = .error .reservedOpcode ∧
      decode 0xFF00000000000000 = .error .reservedOpcode := by decide

/-- V-ENC-16, 17: an operand in format N, a reserved field that is not zero. -/
theorem test_decode_reserved_fields :
    decode 0x0100000000000001 = .error .operandNotZero ∧
      decode 0x2000000100010001 = .error .reservedField := by decide

/-- V-ENC-18, 19: NaN operands. -/
theorem test_decode_nan :
    decode 0x100000007FC00000 = .error .nanOperand ∧
      decode 0x10000000FF800001 = .error .nanOperand := by decide

/-- R43: V-ENC-11 as bytes, the least significant first; and through the host's question. -/
theorem test_decode_bytes :
    decodeBytes [0x80, 0x02, 0xE0, 0x01, 0, 0, 0, 0x20] = .ok (.apply 640 480) ∧
      decodeTableWord 64 0x2000000001E00280 = some (.apply 640 480) := by decide

/-- R64: the check of `wellFormed` refuses a NaN operand of each SET command and nothing else. -/
theorem test_wellFormed_refuses_nan :
    (Instr.setShadow 0x7FC00000).wellFormed = false ∧
      (Instr.setHighlight 0xFF800001).wellFormed = false ∧
      (Instr.setWidth 0x7F800001).wellFormed = false ∧
      (Instr.setBlur 0x7FFFFFFF).wellFormed = false ∧
      (Instr.setBlur 0x7F800000).wellFormed = true := by decide

/-! ### Assembler (R70, R71) -/

/-- The examples of R70 and V-ENC-7. -/
theorem test_assemble_numbers :
    readFloat "0.3".toList = some 0x3E99999A ∧ readFloat "-1".toList = some 0xBF800000 ∧
      readFloat "1000".toList = some 0x447A0000 ∧ readFloat "0.05".toList = some 0x3D4CCCCD ∧
      readFloat "-inf".toList = some 0xFF800000 ∧
      readFloat "0x3F800001".toList = some 0x3F800001 := by decide +kernel

/-- V-ENC-11 and a comment; the end of the default literals (X2). -/
theorem test_assemble_lines :
    assembleLine "APPLY 640, 480 ; a comment".toList = .ok [0x2000000001E00280] ∧
      assembleLine "CONSTRUCT -1, 2".toList
        = .ok [0x0100000000000000, 0x10000000BF800000, 0x1100000040000000] := by decide +kernel

/-! ### One step of each command -/

/-- P1 line 6. -/
theorem test_init :
    testView (testState ⟨0, 0x3F800000, 0x3F800000, 0x42480000⟩ [] 0x0100000000000000)
      = some ⟨⟨0x3E99999A, 0x3E99999A, 0x3F000000, 0x41700000⟩, 0, 0, 0, [], some ⟨0, 0⟩⟩ := by
  decide +kernel

/-- P1 line 5: four different registers in the 128 bits. -/
theorem test_getParams :
    testView (testState ⟨0, 0x3F800000, 0x3F000000, 0x42480000⟩ [] 0x0200000000000000)
      = some ⟨⟨0, 0x3F800000, 0x3F000000, 0x42480000⟩, 0, 0, 0, [],
          some ⟨0, 0x42480000_3F000000_3F800000_00000000⟩⟩ := by decide +kernel

/-- P1 line 1: -1 stores 0. -/
theorem test_setShadow_below :
    testView (testState defaultParams [] 0x10000000BF800000)
      = some ⟨⟨0, 0x3E99999A, 0x3F000000, 0x41700000⟩, 0, 0, 0, [], some ⟨0, 0⟩⟩ := by
  decide +kernel

/-- V-ENC-22 and V-ENC-23: the negative zero, and the smallest subnormal number. -/
theorem test_setShadow_zero_and_subnormal :
    clampedOperand .shadow 0x80000000 = some 0 ∧ clampedOperand .shadow 1 = some 1 := by
  decide +kernel

/-- P1 line 2, on an engine with a result: OUT_VALID stays (V-PAR-11). -/
theorem test_setHighlight_above :
    testView (doneState 0x1100000040000000)
      = some ⟨⟨0x3E99999A, 0x3F800000, 0x3F000000, 0x41700000⟩, 0x100, 1, 1, [47, 47, 47],
          some ⟨0, 0⟩⟩ := by decide +kernel

/-- V-PAR-3: one unit above the bound; V-PAR-2: the bound itself. -/
theorem test_setHighlight_bound :
    clampedOperand .highlight 0x3F800001 = some 0x3F800000 ∧
      clampedOperand .highlight 0x3F800000 = some 0x3F800000 := by decide +kernel

/-- P1 line 3. -/
theorem test_setWidth_above :
    testView (testState defaultParams [] 0x1200000040A00000)
      = some ⟨⟨0x3E99999A, 0x3E99999A, 0x3F800000, 0x41700000⟩, 0, 0, 0, [], some ⟨0, 0⟩⟩ := by
  decide +kernel

/-- P1 line 4. -/
theorem test_setBlur_above :
    testView (testState defaultParams [] 0x13000000447A0000)
      = some ⟨⟨0x3E99999A, 0x3E99999A, 0x3F000000, 0x42480000⟩, 0, 0, 0, [], some ⟨0, 0⟩⟩ := by
  decide +kernel

/-- V-PAR-7: 35 is stored as 35; V-ENC-21: minus infinity stores 0. -/
theorem test_setBlur_values :
    clampedOperand .radius 0x420C0000 = some 0x420C0000 ∧
      clampedOperand .radius 0xFF800000 = some 0 := by decide +kernel

/-- P4: four pixels of four colours at full strength, masks blurred with radius 2. -/
theorem test_apply_colours :
    testView (testState ⟨0x3F800000, 0x3F800000, 0x3F800000, 0x40000000⟩
        [50, 100, 200, 20, 20, 20, 240, 240, 240, 200, 150, 100] 0x2000000000020002)
      = some ⟨⟨0x3F800000, 0x3F800000, 0x3F800000, 0x40000000⟩, 0x100, 2, 2,
          [42, 92, 190, 77, 77, 77, 165, 165, 165, 181, 132, 80], some ⟨0, 0⟩⟩ := by
  decide +kernel

/-! ### Errors (V-EXC) -/

/-- V-EXC-1 and V-EXC-2: an empty image, from reset and after a result. -/
theorem test_apply_empty :
    testView (testState defaultParams [] 0x2000000000070000)
        = some ⟨defaultParams, 0x001, 0, 0, [], some ⟨1, 0⟩⟩ ∧
      testView (doneState 0x2000000000000005)
        = some ⟨defaultParams, 0x001, 1, 1, [47, 47, 47], some ⟨1, 0⟩⟩ := by decide +kernel

/-- V-EXC-3 and V-EXC-5: an illegal word that looks like an empty APPLY, and a NaN operand. -/
theorem test_illegal_word :
    testView (doneState 0x2000000100000000)
        = some ⟨defaultParams, 0x104, 1, 1, [47, 47, 47], some ⟨4, 0⟩⟩ ∧
      testView (testState defaultParams [] 0x110000007FFFFFFF)
        = some ⟨defaultParams, 0x004, 0, 0, [], some ⟨4, 0⟩⟩ := by decide +kernel

/-! ### Stage vectors that are rational -/

/-- The model's enclosures as the numerics of these vectors. -/
abbrev exactValue (q : ℚ) : Enc := .exact q

/-- V-MASK-1: smask0(0.1) = 6/7, smask0(0.075) = 1, smask0(0.25) = 0. -/
theorem test_smask0 :
    smask0Px (num := encNumerics) Config.defaults (.exact (1 / 2)) (.exact (1 / 10))
        = exactValue (6 / 7) ∧
      smask0Px (num := encNumerics) Config.defaults (.exact (1 / 2)) (.exact (75 / 1000))
        = exactValue 1 ∧
      smask0Px (num := encNumerics) Config.defaults (.exact (1 / 2)) (.exact (1 / 4))
        = exactValue 0 := by decide +kernel

/-- R137: hmask0(0.7) = 1/3, hmask0(0.75) = 1. -/
theorem test_hmask0 :
    hmask0Px (num := encNumerics) Config.defaults (.exact (1 / 2)) (.exact (7 / 10))
        = exactValue (1 / 3) ∧
      hmask0Px (num := encNumerics) Config.defaults (.exact (1 / 2)) (.exact (3 / 4))
        = exactValue 1 := by decide +kernel

/-- R141: (0.2, 0.1, 0) renormalises to (1, 0.5, 0), and the zero mask stays. -/
theorem test_renorm :
    (renorm (num := encNumerics) (w := 3) (h := 1)
        ⟨[.exact (2 / 10), .exact (1 / 10), .exact 0], rfl⟩).px
        = [.exact 1, .exact (1 / 2), .exact 0] ∧
      (renorm (num := encNumerics) (w := 1) (h := 1) ⟨[.exact 0], rfl⟩).px = [.exact 0] := by
  decide +kernel

/-- V-BLUR-15 and R121: kernel sizes, the two ties among them. -/
theorem test_ksize :
    [1 / 10, 3 / 4, 1, 5 / 4, 3 / 2, 41 / 10, 17 / 4, 15 / 2, 10, 50].map
        (fun q => ksize (num := encNumerics) (.exact q))
      = [some 3, some 3, some 3, some 5, some 5, some 9, some 11, some 17, some 21, some 101] := by
  decide +kernel

/-- R167: the first and the third row, and a value of blue that the clamp stops. -/
theorem test_tobgr :
    tobgrPx (num := encNumerics) Config.defaults ⟨.exact 0, .exact 128, .exact 128⟩
        = ⟨some 0, some 0, some 0⟩ ∧
      tobgrPx (num := encNumerics) Config.defaults ⟨.exact 60, .exact 30, .exact 200⟩
        = ⟨some 0, some 76, some 0⟩ := by decide +kernel

/-- V-LUM-4 and V-LUM-5: a one-channel image, a list of two planes. -/
theorem test_stage_errors :
    (split (num := encNumerics) (w := 1) (h := 1)
        ⟨1, ⟨[[.exact 0]], rfl⟩, by simp⟩).toOption.isNone = true ∧
      (merge (F := Enc) [constPlane 1 1 (.exact 0), constPlane 1 1 (.exact 0)]).toOption.isNone
        = true := by decide +kernel

/-! ### Stage vectors that are irrational, to the digits the spec shows -/

/-- An enclosure lies within `tol` of a number. -/
def testNear (tol q : ℚ) (e : Enc) : Bool :=
  encLt (.exact (q - tol)) e == some true && encLt e (.exact (q + tol)) == some true

/-- R107, last row: (50, 100, 200). -/
theorem test_tolab :
    (let s := tolabPx (num := encNumerics) Config.defaults ⟨50, 100, 200⟩
     testNear (1 / 10 ^ 9) (136755326078 / 10 ^ 9) s.c0
       && testNear (1 / 10 ^ 9) (164305775053 / 10 ^ 9) s.c1
       && testNear (1 / 10 ^ 8) (17337952758 / 10 ^ 8) s.c2) = true := by decide +kernel

/-- V-BLUR-5: GBLUR at radius 1 of a 2×2 plane. -/
theorem test_gblur :
    (List.zipWith (testNear (1 / 10 ^ 12))
        [533155501599 / 10 ^ 12, 5943851672 / 10 ^ 10, 6556148328 / 10 ^ 10, 716844498401 / 10 ^ 12]
        (gblur (num := encNumerics) Config.defaults (w := 2) (h := 2)
          ⟨[.exact (1 / 4), .exact (1 / 2), .exact (3 / 4), .exact 1], rfl⟩ (.exact 1)).px)
      = [true, true, true, true] := by decide +kernel

/-- V-BLUR-11: FBLUR at radius 10 is two passes at radius 5 (kernel 11). -/
theorem test_fblur :
    (List.zipWith (testNear (1 / 10 ^ 12))
        [195045119786 / 10 ^ 12, 193855593644 / 10 ^ 12, 192662774407 / 10 ^ 12,
          191471349522 / 10 ^ 12, 190285990322 / 10 ^ 12]
        (fblur (num := encNumerics) Config.defaults (w := 5) (h := 1)
          ⟨[.exact 1, .exact 0, .exact 0, .exact 0, .exact 0], rfl⟩ (.exact 10)).px)
      = [true, true, true, true, true] := by decide +kernel

/-- V-COR-8 and V-COR-9: with K = 0.7 and C = 0.5 both bounds of the clamp act; V-COR-10. -/
theorem test_correct :
    let cfg := { Config.defaults with kDamp := 7 / 10, cMargin := 1 / 2 }
    correctPx (num := encNumerics) cfg (.exact 1) (.exact 0) (.exact (2 / 10)) (.exact 1) (.exact 0)
        = exactValue (6 / 10) ∧
      correctPx (num := encNumerics) cfg (.exact 0) (.exact 1) (.exact (8 / 10)) (.exact 0)
        (.exact 1) = exactValue (4 / 10) ∧
      correctPx (num := encNumerics) Config.defaults (.exact 1) (.exact 1) (.exact 0) (.exact 1)
        (.exact 1) = exactValue (3 / 10) := by decide +kernel

/-! ### Witnesses: for each statement with hypotheses, values that meet them together -/

/-- `DecodeOfEncode`, `SetCommandsStoreClamped`, `StoredParameterLegal`: operands that are no NaN, at
both infinities, the negative zero, a bound and the next number above it. -/
theorem test_witness_operands :
    (Instr.setShadow 0xFF800000).wellFormed = true ∧ isNaN 0xFF800000 = false ∧
      isNaN 0x7F800000 = false ∧ isNaN 0x80000000 = false ∧ isNaN 0x3F800000 = false ∧
      isNaN 0x3F800001 = false ∧ clampedOperand .radius 0x42480001 = some 0x42480000 := by
  decide +kernel

/-- The clauses of `storesClamped`: one pattern for each, at the ends of the range. -/
theorem test_witness_storesClamped :
    val 0xFF800000 = .negInf ∧ val 0x7F800000 = .posInf ∧ val 0x80000000 = .num 0 ∧
      val 0x80000001 = .num (-(1 / 2 ^ 149)) ∧ val 0x3F800001 = .num (1 + 1 / 2 ^ 23) ∧
      val 0x3F800000 = .num 1 ∧ val 0x00000001 = .num (1 / 2 ^ 149) := by decide +kernel

/-- `SetCommandsRefuseNaN`. -/
theorem test_witness_nan :
    isNaN 0x7F800001 = true ∧ Instr.setBlur 0x7F800001 ∈
      [Instr.setShadow 0x7F800001, .setHighlight 0x7F800001, .setWidth 0x7F800001,
        .setBlur 0x7F800001] := by decide

/-- `EncodeOfDecode`: a legal word, and a copy for each side of 16. -/
theorem test_witness_decoded :
    decode 0x20000000FFFFFFFF = .ok (.apply 65535 65535) ∧
      decodeAt smallHardware.cfg 0x20000000FFFFFFFF = .ok (.apply 255 255) ∧
      16 ≤ Config.defaults.dimBits := by decide

/-- `DecodeOfEncode` on the copy with 8-bit sizes, and `SizeFieldsOfApply`. -/
theorem test_witness_fields :
    (Instr.apply 255 0).wellFormedAt smallHardware.cfg = true ∧
      opcField 0x20000000FFFFFFFF = 0x20 ∧ rsvField 0x20000000FFFFFFFF = 0 ∧
      Config.defaults.dimBits = 16 := by decide

/-- `PatInvertsVal` and `PatIsNearest`: a pattern of a number that is not the negative zero, the
negative zero for the second clause, the largest finite number, and a tie. -/
theorem test_witness_pat :
    val 0x7F7FFFFF = .num ((2 ^ 24 - 1) * 2 ^ 104) ∧ (0x7F7FFFFF : Pattern) ≠ 0x80000000 ∧
      val 0x80000000 = .num 0 ∧ |((2 ^ 24 - 1) * 2 ^ 104 : ℚ)| ≤ (2 ^ 24 - 1) * 2 ^ 104 ∧
      |(1 + 1 / 2 ^ 24 : ℚ)| ≤ (2 ^ 24 - 1) * 2 ^ 104 ∧ pat (1 + 1 / 2 ^ 24) = 0x3F800000 := by
  decide +kernel

/-- `StepRunsDecodedCommand`. -/
theorem test_witness_step_command :
    (doneState 0x2000000000010001).status.busy = false ∧
      (doneState 0x2000000000010001).port = HostMove.command 0x2000000000010001 :: [] ∧
      decode 0x2000000000010001 = .ok (.apply 1 1) := by decide

/-- `StepIllegalWord`. -/
theorem test_witness_step_illegal :
    (doneState 0).status.busy = false ∧ (doneState 0).port = HostMove.command 0 :: [] ∧
      decode 0 = .error .reservedOpcode := by decide

/-- `StepHostMoves`: an empty port; a write and a reset offered to an idle engine; all three moves
offered to a busy one. -/
theorem test_witness_host_moves :
    State.reset.port = [] ∧ State.reset.status.busy = false ∧
      (busyState (.writeIbuf 0 7)).port = HostMove.writeIbuf 0 7 :: [] ∧
      (busyState .reset).port = HostMove.reset :: [] ∧
      (busyState (.command 0)).port = HostMove.command 0 :: [] ∧
      (busyState .reset).status.busy = true ∧
      ({ State.reset with port := [.writeIbuf 0 7] } : State).status.busy = false ∧
      ({ State.reset with port := [.reset] } : State).status.busy = false := by decide

/-- `ConstructSetsClampedArguments`: X2, `CONSTRUCT -1, 2, 5, 1000`. -/
theorem test_witness_construct :
    ([0xBF800000, 0x40000000, 0x40A00000, 0x447A0000] : List Pattern).all
      (fun p => !isNaN p) = true := by decide

/-- The state of the witness of `ConstructSetsClampedArguments`. -/
theorem test_witness_construct_state :
    ∃ s : State, s.status.busy = false ∧
      s.port = (constructWords [0xBF800000, 0x40000000, 0x40A00000, 0x447A0000]).map
        HostMove.command ++ [] :=
  ⟨{ State.reset with
      port := (constructWords [0xBF800000, 0x40000000, 0x40A00000, 0x447A0000]).map
        HostMove.command ++ [] }, rfl, rfl⟩

/-- Whether an outcome is a next state. -/
def goesOn (o : Host.Outcome State Fault Refusal) : Bool :=
  match o with
  | .next _ => true
  | _ => false

theorem test_goesOn (o : Host.Outcome State Fault Refusal) (h : goesOn o = true) :
    ∃ t, o = .next t := by
  cases o with
  | next t => exact ⟨t, rfl⟩
  | fault r => cases h
  | refused r => cases h

/-- `CommandFrames`: an instruction of each kind that goes on. -/
theorem test_witness_frames :
    ∀ i ∈ [Instr.init, .getParams, .setShadow 0, .setHighlight 0, .setWidth 0, .setBlur 0,
      .apply 0 1], goesOn (exec i State.reset) = true := by decide +kernel

/-- `StepKeepsInvariant` and `InvariantStatesStep`: a state with a result in OBUF and a command on the
port meets the invariant, and its step goes on. -/
theorem test_witness_invariant :
    Inv (doneState 0x0200000000000000) ∧ ∃ t, step (doneState 0x0200000000000000) = .next t := by
  refine ⟨⟨rfl, by decide +kernel, by decide, ?_, fun _ => ⟨by decide, by decide, ?_⟩, by decide,
    by decide⟩, ⟨_, rfl⟩⟩
  · decide
  · decide

/-- `ApplyEmptyImage` and `ApplyCompletes`: sizes for each. -/
theorem test_witness_sizes :
    ((0 : Dim) = 0 ∨ (7 : Dim) = 0) ∧ ((7 : Dim) = 0 ∨ (0 : Dim) = 0) ∧ (1 : Dim) ≠ 0 ∧
      (65535 : Dim) ≠ 0 := by decide

/-- `ApplyCompletes` and `ApplyWritesExactBytes`: P2, every byte of which is decided. -/
theorem test_witness_apply :
    ∃ out, applyOutput 1 1 (testState defaultParams [30, 30, 30] 0x2000000000010001) = .ok out ∧
      imageBytes out = [some 47, some 47, some 47] := by
  have h : ((applyOutput 1 1 (testState defaultParams [30, 30, 30] 0x2000000000010001)).toOption.map
      imageBytes) = some [some 47, some 47, some 47] := by decide +kernel
  cases ho : applyOutput 1 1 (testState defaultParams [30, 30, 30] 0x2000000000010001) with
  | ok out => exact ⟨out, rfl, by rw [ho] at h; exact Option.some.inj h⟩
  | error e => rw [ho] at h; cases h

/-- `ApplyDependsOnOperandsOnly`: two different states that agree on what APPLY reads. -/
theorem test_witness_history :
    (doneState 0).x = State.reset.x ∧ (∀ a < 3 * (0 : Dim).toNat * (1 : Dim).toNat,
      readIbuf (doneState 0) a = readIbuf State.reset a) ∧ doneState 0 ≠ State.reset := by
  refine ⟨rfl, fun a ha => absurd ha (by simp), by decide⟩

/-- The same with an image of one pixel. -/
theorem test_witness_history_pixel :
    (∀ a < 3 * (1 : Dim).toNat * (1 : Dim).toNat,
      readIbuf (doneState 0) a = readIbuf (testState defaultParams [30, 30, 30] 0) a) ∧
      doneState 0 ≠ testState defaultParams [30, 30, 30] 0 := ⟨fun _ _ => rfl, by decide⟩

/-- `RadiusSaturatesAtTwenty`: the two ends of the range. -/
theorem test_witness_radius :
    val 0x41A00000 = .num 20 ∧ val 0x42480000 = .num 50 ∧ (20 : ℚ) ≤ 20 ∧ (20 : ℚ) ≤ 50 ∧
      effectiveRadius Config.defaults 0x42480000 = .blurred 20 := by
  decide +kernel

/-- R140 on a copy with `BLUR_EPS` 25 above `BLUR_RMAX` 20: radius 20 leaves the mask unblurred, as radius 25
does, and 30 and 50 blur it with 20. -/
theorem test_effectiveRadius :
    let cfg : Cfg := { Config.defaults with blurEps := 25 }
    [0x41A00000, 0x41C80000, 0x41F00000, 0x42480000].map (effectiveRadius cfg)
      = [.unblurred, .unblurred, .blurred 20, .blurred 20] := by decide +kernel

/-- `RadiusActsThroughMaskBlur`: on that copy two radii for each clause, at the boundary of both. -/
theorem test_witness_effectiveRadius :
    let cfg : Cfg := { Config.defaults with blurEps := 25 }
    cfg.valid = true ∧ val 0x41A00000 = .num 20 ∧ val 0x41C80000 = .num 25 ∧ val 0x41F00000 = .num 30 ∧
      val 0x42480000 = .num 50 ∧ 20 ≤ cfg.blurEps ∧ 25 ≤ cfg.blurEps ∧ cfg.blurEps < 30 ∧
      cfg.blurEps < 50 ∧ min 30 cfg.blurRmax = min 50 cfg.blurRmax := by decide +kernel

/-- `PixelOffsetsCoverOnce`: the last byte of a 2×3 image. -/
theorem test_witness_offsets :
    off 2 1 2 2 = 17 ∧ (1 : Nat) < 2 ∧ (2 : Nat) < 3 ∧ 17 < 3 * 2 * 3 := by decide

/-- `NoCorrectionIsIdentity` and `ShadowLiftOfDarkGrey`: the parameters. -/
theorem test_witness_parameters :
    (⟨0, 0, 0x3F000000, 0x41700000⟩ : Params).shadow = 0x00000000 ∧
      (⟨0, 0, 0x3F000000, 0x41700000⟩ : Params).highlight = 0x00000000 ∧
      legalParam .radius 0x41700000 = true ∧ legalParam .radius 0 = true ∧
      legalParam .radius 0x42480000 = true := by decide +kernel

/-- `MasksBounded`, `ShadowThreshold`, `HighlightThreshold`: the ends of both ranges in the reference
configuration. -/
theorem test_witness_masks :
    Config.defaults.valid = true ∧ (0 : Nat) < 1 ∧ (0 : ℝ) ≤ 0 ∧ (0 : ℝ) ≤ 1 ∧ (1 : ℝ) ≤ 1 ∧
      (0 : ℝ) ≤ 50 ∧ (50 : ℝ) ≤ 50 ∧ (1 : ℝ) < 2 :=
  ⟨Config.defaults_valid, by norm_num, le_refl _, by norm_num, le_refl _, by norm_num, le_refl _,
    by norm_num⟩

/-- The clauses of `HighlightThreshold` at the ends of the ramp, tonal width 1/2: 3/4 and 27/40. -/
theorem test_witness_ramp :
    (1 - (Config.defaults.w3Highlight : ℝ) * (1 / 2)) = 3 / 4 ∧ (3 / 4 : ℝ) ≤ 3 / 4 ∧
      (27 / 40 : ℝ) ≤ 9 / 10 * (3 / 4) ∧ 9 / 10 * (3 / 4) ≤ (27 / 40 : ℝ) := by
  refine ⟨?_, le_refl _, by norm_num, by norm_num⟩
  norm_num [Config.defaults]

/-- The clauses of `ShadowThreshold` at the ends of the falloff, tonal width 1/2: T = 1/4, lo = 3/40. -/
theorem test_witness_falloff :
    (Config.defaults.w1Shadow : ℝ) * (1 / 2) = 1 / 4 ∧
      1 / 4 * (Config.defaults.w2Full : ℝ) = 3 / 40 ∧ (3 / 40 : ℝ) ≤ 3 / 40 ∧
      (3 / 40 : ℝ) < 1 / 4 ∧ (1 / 4 : ℝ) ≤ 1 / 4 ∧ (1 / 4 : ℝ) < 3 / 10 := by
  refine ⟨?_, ?_, ?_, ?_, ?_, ?_⟩ <;> norm_num [Config.defaults]

/-- A 2×1 real plane for the statements about planes. -/
def twoPixels : Plane ℝ 2 1 := ⟨[0, 1], rfl⟩

/-- `GblurAverages` and `RenormByMaximum`: a non-negative plane with bounds and a positive pixel, a
constant plane of one pixel, a positive factor. -/
theorem test_witness_planes :
    planeWithin twoPixels 0 1 ∧ (∀ v ∈ twoPixels.px, 0 ≤ v) ∧ 0 < planeAt twoPixels 0 1 0 ∧
      (constPlane 1 1 (3 : ℝ)) = constPlane 1 1 3 ∧ (0 : ℝ) < 2 := by
  refine ⟨?_, ?_, ?_, rfl, by norm_num⟩
  · intro v hv
    rcases List.mem_cons.mp hv with rfl | hv
    · norm_num
    · rcases List.mem_cons.mp hv with rfl | hv
      · norm_num
      · cases hv
  · intro v hv
    rcases List.mem_cons.mp hv with rfl | hv
    · norm_num
    · rcases List.mem_cons.mp hv with rfl | hv
      · norm_num
      · cases hv
  · simp [planeAt, twoPixels]

/-- `SeparableEqualsSquare`, `BlurPassPlan`, `BlurWeights`, `KernelSizes`: a radius for each clause, the thresholds
among them, and a tie of the kernel size. -/
theorem test_witness_radii :
    (0 : ℝ) < 1 ∧ (1 / 20 : ℝ) < 1 / 10 ∧ (8 : ℝ) ≤ 8 ∧ (8 : ℝ) < 20 ∧ (20 : ℝ) ≤ 20 ∧
      (20 : ℝ) < 21 ∧ (1 / 10 : ℝ) ≤ 1 / 10 ∧ (1 / 10 : ℝ) < 15 ∧
      2 * (3 / 4 : ℝ) + 1 = ((2 : Nat) : ℝ) + 1 / 2 ∧ (4 : ℝ) < 10 ∧ (20 / 3 : ℝ) < 50 / 3 := by
  norm_num

theorem test_ksize_exact (r : ℝ) : ksize (num := exactNumerics) r
    = some (max 3 (⌊((2 : Nat) : ℝ) * r + ((1 : Nat) : ℝ) + ((1 : Nat) : ℝ) / ((2 : Nat) : ℝ)⌋₊
      ||| 1)) := rfl

/-- `KernelSizes`: at the largest radius the size is defined. -/
theorem test_witness_ksize : ksize (num := exactNumerics) 50 = some 101 := by
  have h : ⌊(2 : ℝ) * 50 + 1 + 1 / 2⌋₊ = 101 := by
    rw [Nat.floor_eq_iff (by norm_num)]; norm_num
  have e : ((2 : Nat) : ℝ) * 50 + ((1 : Nat) : ℝ) + ((1 : Nat) : ℝ) / ((2 : Nat) : ℝ)
      = 2 * 50 + 1 + 1 / 2 := by norm_num
  rw [test_ksize_exact, e, h]
  rfl
/-- `CorrectionBounds` and `CorrectionClamp`: operands at both ends, the reference constants, a
luminance above 1. -/
theorem test_witness_correct :
    Config.defaults.kDamp + Config.defaults.cMargin ≤ 1 ∧
      (∀ u ∈ ([0, 1, 0, 1, 1] : List ℝ), 0 ≤ u ∧ u ≤ 1) ∧ (1 : ℝ) < 1 + 1 / 10 ^ 8 := by
  refine ⟨by decide +kernel, ?_, by norm_num⟩
  intro u hu
  simp only [List.mem_cons, List.not_mem_nil, or_false] at hu
  rcases hu with h | h | h | h | h <;> rw [h] <;> norm_num

/-- `RoundingToByte`: the first and the last tie, and a configuration of each rule. -/
theorem test_witness_ties :
    (0 : Nat) < 255 ∧ (1 / 510 : ℝ) * 255 = (0 : Nat) + 1 / 2 ∧ (254 : Nat) < 255 ∧
      (509 / 510 : ℝ) * 255 = (254 : Nat) + 1 / 2 ∧ (509 / 510 : ℝ) ≤ 1 ∧
      ∀ r : RoundTie, ({ Config.defaults with roundTie := r } : Cfg).roundTie = r :=
  ⟨by decide, by norm_num, by decide, by norm_num, by norm_num, fun _ => rfl⟩

/-- `ForwardCurvesIncrease` and `RoundingToByte`: bytes and values for each clause. -/
theorem test_witness_values :
    (10 : Byte).toNat < (11 : Byte).toNat ∧ (4 / 29 : ℝ) < 6 / 29 ∧ (0 : ℝ) ≤ 0 ∧ (1 : ℝ) ≤ 1 ∧
      (0 : ℝ) ≤ 1 / 2 ∧ (1 / 2 : ℝ) ≤ 1 := by
  refine ⟨by decide, ?_, ?_, ?_, ?_, ?_⟩ <;> norm_num

/-- `SplitMergeRoundTrip` and `StageErrors`: an image of three channels and one of one channel. -/
theorem test_witness_images :
    (imageOfTriples (constPlane 1 1 (⟨0, 1, 2⟩ : Triple ℚ))).channels = 3 ∧
      (⟨1, ⟨[[0]], rfl⟩, by simp⟩ : Image ℚ 1 1).channels ≠ 3 ∧
      ([] : List (Plane ℚ 1 1)).length ≠ 3 := by
  refine ⟨rfl, by decide, by decide⟩

/-- `EveryConfigurationSteps`: the copy with 8-bit sizes, an idle engine, an instruction that is not
APPLY, an empty APPLY and sizes of an image with pixels; a legal and an illegal word on the port; OUT_W and
OUT_H at the last size that fits, and a step from there. -/
theorem test_witness_configuration :
    smallHardware.cfg.valid = true ∧ (doneState 0).status.busy = false ∧
      (∀ w h, Instr.init = .apply w h → w = 0 ∨ h = 0) ∧
      (∀ w h, Instr.apply 255 0 = .apply w h → w = 0 ∨ h = 0) ∧ (1 : Dim) ≠ 0 ∧ (255 : Dim) ≠ 0 ∧
      (doneState 0).port = HostMove.command 0 :: [] ∧
      decodeAt smallHardware.cfg 0 = .error .reservedOpcode ∧
      decodeAt smallHardware.cfg 0x0200000000000000 = .ok .getParams ∧
      (255 : Dim).toNat < 2 ^ smallHardware.cfg.dimBits ∧
      ∃ t, stepAt smallHardware { doneState 0x0200000000000000 with outW := 255, outH := 255 }
        = .next t := by
  refine ⟨smallHardware.valid, rfl, fun _ _ e => by simp at e, fun w h e => ?_, by decide, by decide,
    rfl, by decide, by decide, by decide, ⟨_, rfl⟩⟩
  cases e
  exact .inr rfl

/-- `OnlyLuminanceChanges`: the one pixel of a 1×1 image. -/
theorem test_witness_pixel : (0 : Nat) < 1 * 1 := by decide

/-- `ColourFormulas`, `CorrectionClamp`: valid configurations, the second with K + C above 1. -/
theorem test_witness_valid :
    Config.defaults.valid = true ∧ smallHardware.cfg.valid = true ∧
      1 < smallHardware.cfg.kDamp + smallHardware.cfg.cMargin :=
  ⟨Config.defaults_valid, smallHardware.valid, by decide +kernel⟩

end Sys2Proof.Machine
end

section
/-!
The decoder and the encoder (R62 to R68): one inversion lemma says when a copy's decoder answers an
instruction; the round trips and the size fields are read off it.
-/

namespace Sys2Proof

/-! ### The formats -/

theorem decodeN_eq_ok {i j : Instr} {opd : BitVec 32} :
    decodeN i opd = .ok j ↔ opd = 0 ∧ j = i := by
  unfold decodeN
  split
  · next h => simp [h, eq_comm (a := i)]
  · next h => exact iff_of_false nofun fun hj => h hj.1

theorem decodeF_eq_ok {mk : Pattern → Instr} {opd : BitVec 32} {j : Instr} :
    decodeF mk opd = .ok j ↔ operandLegal opd = true ∧ j = mk opd := by
  unfold decodeF operandLegal
  split
  · next h => simp [h]
  · next h => simp [h, eq_comm (a := mk opd)]

theorem decodeD_eq_ok {cfg : Cfg} {opd : BitVec 32} {j : Instr} :
    decodeD cfg opd = .ok j ↔ j = .apply (dimField cfg 0 opd) (dimField cfg 16 opd) := by
  simp [decodeD, eq_comm]

/-- An instruction's operands are what a copy of the hardware reads from the operand field `opd`:
the size fields of APPLY (R14, R65), the whole field for every other command (R64, R66). -/
def Instr.readFrom (cfg : Cfg) (opd : BitVec 32) : Instr → Prop
  | .apply w h => w = dimField cfg 0 opd ∧ h = dimField cfg 16 opd
  | i => opd = i.operand

/-- When the decoder of a copy answers an instruction: the reserved field is zero, the operation code
is the instruction's, its operands come from OPD, and none is a NaN (R67). -/
theorem decodeAt_eq_ok_iff {cfg : Cfg} {u : CommandWord} {i : Instr} :
    decodeAt cfg u = .ok i ↔
      rsvField u = 0 ∧ opcField u = i.opcode ∧ i.wellFormed = true ∧ i.readFrom cfg (opdField u) := by
  constructor
  · intro h
    unfold decodeAt at h
    split_ifs at h with hr h1 h2 h3 h4 h5 h6 h7
    · obtain ⟨hopd, rfl⟩ := decodeN_eq_ok.mp h
      exact ⟨not_not.mp hr, h1, rfl, hopd⟩
    · obtain ⟨hopd, rfl⟩ := decodeN_eq_ok.mp h
      exact ⟨not_not.mp hr, h2, rfl, hopd⟩
    · obtain ⟨hp, rfl⟩ := decodeF_eq_ok.mp h
      exact ⟨not_not.mp hr, h3, hp, rfl⟩
    · obtain ⟨hp, rfl⟩ := decodeF_eq_ok.mp h
      exact ⟨not_not.mp hr, h4, hp, rfl⟩
    · obtain ⟨hp, rfl⟩ := decodeF_eq_ok.mp h
      exact ⟨not_not.mp hr, h5, hp, rfl⟩
    · obtain ⟨hp, rfl⟩ := decodeF_eq_ok.mp h
      exact ⟨not_not.mp hr, h6, hp, rfl⟩
    · obtain rfl := decodeD_eq_ok.mp h
      exact ⟨not_not.mp hr, h7, rfl, rfl, rfl⟩
  · rintro ⟨hr, ho, hwf, hopd⟩
    cases i with
    | init | getParams =>
      have hz : opdField u = 0 := hopd
      simp [decodeAt, hr, ho, Instr.opcode, decodeN_eq_ok, hz]
    | setShadow p | setHighlight p | setWidth p | setBlur p =>
      obtain rfl : opdField u = p := hopd
      have hl : operandLegal (opdField u) = true := hwf
      simp [decodeAt, hr, ho, Instr.opcode, decodeF_eq_ok, hl]
    | apply w h =>
      obtain ⟨rfl, rfl⟩ := hopd
      simp [decodeAt, hr, ho, Instr.opcode, decodeD_eq_ok]

/-! ### Words and their fields -/

/-- A command word is its three fields in order (R62). -/
theorem fields_append (u : CommandWord) : opcField u ++ rsvField u ++ opdField u = u := by
  unfold opcField rsvField opdField
  rw [BitVec.extractLsb'_append_extractLsb'_eq_extractLsb' (by rfl),
    BitVec.extractLsb'_append_extractLsb'_eq_extractLsb' (by rfl)]
  exact BitVec.extractLsb'_eq_self

/-- A size field is the low `DIM_BITS` bits of its half of OPD, the half taken as 16 bits. -/
theorem dimField_toNat_half (cfg : Cfg) (start : Nat) (opd : BitVec 32) :
    (dimField cfg start opd).toNat = (opd.extractLsb' start 16).toNat % 2 ^ min cfg.dimBits 16 := by
  rw [dimField_toNat, BitVec.extractLsb'_toNat, Nat.shiftRight_eq_div_pow,
    Nat.mod_mod_of_dvd _ (pow_dvd_pow 2 (min_le_right _ _))]

/-- A field whose half of OPD holds a size that fits reads that size. -/
theorem dimField_eq_of_fits {cfg : Cfg} {start : Nat} {opd : BitVec 32} {d : Dim}
    (hd : fitsDim cfg d = true) (hhalf : opd.extractLsb' start 16 = d) :
    dimField cfg start opd = d := by
  have hlt : d.toNat < 2 ^ min cfg.dimBits 16 := by
    rcases min_choice cfg.dimBits 16 with e | e <;> rw [e]
    · exact of_decide_eq_true hd
    · exact d.isLt
  apply BitVec.eq_of_toNat_eq
  rw [dimField_toNat_half, hhalf, Nat.mod_eq_of_lt hlt]

/-- The size fields of a command word, as digits of the word. -/
theorem dimField_opdField_toNat (cfg : Cfg) (u : CommandWord) {start : Nat} (hs : start ≤ 16) :
    (dimField cfg start (opdField u)).toNat = u.toNat / 2 ^ start % 2 ^ min cfg.dimBits 16 := by
  have hsplit : 2 ^ 32 = 2 ^ start * 2 ^ (32 - start) := by rw [← pow_add]; congr 1; omega
  have hdvd : 2 ^ min cfg.dimBits 16 ∣ 2 ^ (32 - start) := pow_dvd_pow 2 (by omega)
  rw [dimField_toNat, opdField, BitVec.extractLsb'_toNat, Nat.shiftRight_zero, hsplit,
    Nat.mod_mul_right_div_self, Nat.mod_mod_of_dvd _ hdvd]

/-- What a copy reads from an operand field fits its size fields (R14). -/
theorem sizesFit_of_readFrom {cfg : Cfg} {opd : BitVec 32} {i : Instr} (h : i.readFrom cfg opd) :
    i.sizesFit cfg = true := by
  cases i with
  | apply w h' =>
    obtain ⟨rfl, rfl⟩ := h
    simp [Instr.sizesFit]
  | _ => rfl

/-- With size fields of 16 bits or more, OPD is the operand of the instruction read from it. -/
theorem operand_of_readFrom {cfg : Cfg} (hd : 16 ≤ cfg.dimBits) {opd : BitVec 32} {i : Instr}
    (h : i.readFrom cfg opd) : i.operand = opd := by
  cases i with
  | apply w h' =>
    obtain ⟨rfl, rfl⟩ := h
    rw [dimField_wide hd, dimField_wide hd]
    exact (BitVec.extractLsb'_append_extractLsb'_eq_extractLsb' rfl).trans BitVec.extractLsb'_eq_self
  | _ => exact Eq.symm h

/-- An instruction whose sizes fit is read back from its own operand field. -/
theorem readFrom_operand {cfg : Cfg} {i : Instr} (h : i.sizesFit cfg = true) :
    i.readFrom cfg i.operand := by
  cases i with
  | apply w h' =>
    obtain ⟨hw, hh⟩ := Bool.and_eq_true_iff.mp h
    exact ⟨(dimField_eq_of_fits hw BitVec.extractLsb'_append_eq_right).symm,
      (dimField_eq_of_fits hh BitVec.extractLsb'_append_eq_left).symm⟩
  | _ => rfl

/-! ### The obligations about the decoder -/

/-- Every copy of the hardware reads back the instructions that are well-formed on it (R62 to R66). -/
theorem decodeAt_encode {cfg : Cfg} {i : Instr} (h : i.wellFormedAt cfg = true) :
    decodeAt cfg (encode i) = .ok i := by
  obtain ⟨hwf, hfit⟩ := Bool.and_eq_true_iff.mp h
  refine decodeAt_eq_ok_iff.mpr ⟨encode_rsvField i, encode_opcField i, hwf, ?_⟩
  rw [encode_opdField]
  exact readFrom_operand hfit

/-- Settles O1: the reference is the copy on which every size fits. -/
theorem decodeOfEncode : Obligations.DecodeOfEncode :=
  ⟨fun i h => decodeAt_encode ((wellFormedAt_defaults i).trans h), fun _ _ => decodeAt_encode⟩

/-- With size fields of 16 bits or more, a legal word is the encoding of what it decodes to. -/
theorem encode_of_decodeAt {cfg : Cfg} (hd : 16 ≤ cfg.dimBits) {u : CommandWord} {i : Instr}
    (h : decodeAt cfg u = .ok i) : encode i = u := by
  obtain ⟨hrsv, hopc, -, hread⟩ := decodeAt_eq_ok_iff.mp h
  calc encode i = opcField u ++ rsvField u ++ opdField u := by
        rw [hrsv, hopc, ← operand_of_readFrom hd hread]; rfl
    _ = u := fields_append u

theorem wellFormedAt_of_decodeAt {cfg : Cfg} {u : CommandWord} {i : Instr}
    (h : decodeAt cfg u = .ok i) : i.wellFormedAt cfg = true := by
  obtain ⟨-, -, hwf, hread⟩ := decodeAt_eq_ok_iff.mp h
  exact Bool.and_eq_true_iff.mpr ⟨hwf, sizesFit_of_readFrom hread⟩

/-- Copies with size fields of 16 bits or more have the reference decoder. -/
theorem decodeAt_wide {cfg : Cfg} (hd : 16 ≤ cfg.dimBits) (u : CommandWord) :
    decodeAt cfg u = decode u := by
  have href : 16 ≤ Config.defaults.dimBits := le_refl 16
  simp only [decode, decodeAt, decodeD, dimField_wide hd, dimField_wide href]

/-- Settles O2, from the inversion of the decoder. -/
theorem encodeOfDecode : Obligations.EncodeOfDecode :=
  ⟨fun _ i h => ⟨encode_of_decodeAt (le_refl 16) h,
      (wellFormedAt_defaults i).symm.trans (wellFormedAt_of_decodeAt h)⟩,
    fun _ _ _ => wellFormedAt_of_decodeAt, fun _ u hd => decodeAt_wide hd u⟩

/-- Settles O54: the two size fields of the operand, as digits of the word. -/
theorem sizeFieldsOfApply : Obligations.SizeFieldsOfApply := by
  intro cfg u hopc hrsv
  refine ⟨dimField cfg 0 (opdField u), dimField cfg 16 (opdField u),
    decodeAt_eq_ok_iff.mpr ⟨hrsv, hopc, rfl, rfl, rfl⟩, ?_, ?_, fun h16 => ?_⟩
  · rw [dimField_opdField_toNat cfg u (by decide), pow_zero, Nat.div_one]
  · exact dimField_opdField_toNat cfg u (le_refl 16)
  · exact ⟨dimField_wide h16.ge 0 _, dimField_wide h16.ge 16 _⟩

end Sys2Proof
end

section
/-!
The rounding to 8 bits in EXACT (R165, R166, I13): to the nearest integer, a tie where `ROUND_TIE`
sends it.
-/

namespace Sys2Proof.Machine

/-- `v` rounded to the nearest integer, a tie as the rule sends it (R14, R166). -/
noncomputable def nearestByRule (rule : RoundTie) (v : ℝ) : Nat :=
  open Classical in
  if v + 1 / 2 = ⌊v + 1 / 2⌋₊ ∧ tieGoesUp rule (⌊v + 1 / 2⌋₊ - 1) = false
    then ⌊v + 1 / 2⌋₊ - 1 else ⌊v + 1 / 2⌋₊

/-- The tie `k + 1/2` goes where the rule sends it (I13). -/
theorem nearestByRule_tie (rule : RoundTie) (k : Nat) :
    nearestByRule rule (k + 1 / 2) = if tieGoesUp rule k then k + 1 else k := by
  have hfloor : ⌊(k : ℝ) + 1 / 2 + 1 / 2⌋₊ = k + 1 := by
    rw [add_assoc, add_halves]; exact_mod_cast Nat.floor_natCast (R := ℝ) (k + 1)
  have hint : (k : ℝ) + 1 / 2 + 1 / 2 = ((k + 1 : Nat) : ℝ) := by push_cast; ring
  unfold nearestByRule
  rw [hfloor, Nat.add_sub_cancel]
  cases tieGoesUp rule k
  · rw [if_pos ⟨hint, rfl⟩]; rfl
  · rw [if_neg (by simp), if_pos rfl]

/-- A value strictly nearer to `n` than to any other integer rounds to `n`, whatever the rule. -/
theorem nearestByRule_of_near (rule : RoundTie) {v : ℝ} {n : Nat} (hlo : (n : ℝ) - 1 / 2 < v)
    (hhi : v < n + 1 / 2) : nearestByRule rule v = n := by
  have hfloor : ⌊v + 1 / 2⌋₊ = n := by
    rw [Nat.floor_eq_iff (by linarith [n.cast_nonneg (α := ℝ)])]
    constructor <;> linarith
  unfold nearestByRule
  rw [hfloor, if_neg (fun h => by linarith [h.1])]

/-- Every value from 0 on is a tie or strictly nearest to one integer. -/
theorem tie_or_near {v : ℝ} (hv : 0 ≤ v) :
    (∃ k : Nat, v = k + 1 / 2) ∨ ∃ n : Nat, (n : ℝ) - 1 / 2 < v ∧ v < n + 1 / 2 := by
  have hle : (⌊v + 1 / 2⌋₊ : ℝ) ≤ v + 1 / 2 := Nat.floor_le (by linarith)
  have hlt : v + 1 / 2 < ⌊v + 1 / 2⌋₊ + 1 := Nat.lt_floor_add_one _
  rcases hle.lt_or_eq with h | h
  · exact .inr ⟨⌊v + 1 / 2⌋₊, by linarith, by linarith⟩
  · have hpos : 0 < ⌊v + 1 / 2⌋₊ := by
      have : (0 : ℝ) < ⌊v + 1 / 2⌋₊ := by linarith
      exact_mod_cast this
    refine .inl ⟨⌊v + 1 / 2⌋₊ - 1, ?_⟩
    rw [Nat.cast_pred hpos]
    linarith

/-- The rounded value is at most one half away. -/
theorem nearestByRule_within (rule : RoundTie) {v : ℝ} (hv : 0 ≤ v) :
    (nearestByRule rule v : ℝ) - 1 / 2 ≤ v ∧ v ≤ nearestByRule rule v + 1 / 2 := by
  rcases tie_or_near hv with ⟨k, rfl⟩ | ⟨n, hlo, hhi⟩
  · rw [nearestByRule_tie]
    split
    · push_cast; constructor <;> linarith
    · constructor <;> linarith
  · rw [nearestByRule_of_near rule hlo hhi]
    exact ⟨hlo.le, hhi.le⟩

/-- With ties going up the rounded value is less than one half below (R166). -/
theorem lt_nearestByRule_halfUp {v : ℝ} (hv : 0 ≤ v) :
    v < nearestByRule .halfUp v + 1 / 2 := by
  rcases tie_or_near hv with ⟨k, rfl⟩ | ⟨n, hlo, hhi⟩
  · have hup : nearestByRule .halfUp ((k : ℝ) + 1 / 2) = k + 1 := nearestByRule_tie _ k
    rw [hup]
    push_cast; linarith
  · rwa [nearestByRule_of_near _ hlo hhi]

/-- What the model's rounding gives in EXACT. -/
theorem exact_roundNearest_eq (cfg : Cfg) {v : ℝ} (hv : 0 ≤ v) :
    roundNearest (num := exactNumerics) cfg v = some (nearestByRule cfg.roundTie v) := by
  classical
  rw [exact_roundNearest, nearestByRule]
  have hle : (⌊v + 1 / 2⌋₊ : ℝ) ≤ v + 1 / 2 := Nat.floor_le (by linarith)
  congr 1
  rcases Nat.eq_zero_or_pos ⌊v + 1 / 2⌋₊ with h0 | hpos
  · simp only [h0, Nat.zero_sub, ite_self]
  · have hiff : v ≤ ((⌊v + 1 / 2⌋₊ - 1 : Nat) : ℝ) + 1 / 2 ↔ v + 1 / 2 = ⌊v + 1 / 2⌋₊ := by
      rw [Nat.cast_pred hpos]
      constructor <;> intro h <;> linarith
    simp only [hiff, and_comm]

theorem level_eq (t : ℝ) : level (num := exactNumerics) t = max 0 (min t 1) * 255 := by
  have hclamp := exact_clamp t ((0 : Nat) : ℝ) ((1 : Nat) : ℝ) (by norm_num)
  rw [Nat.cast_zero, Nat.cast_one] at hclamp
  unfold level
  simp only [exact_mul, exact_nat, Nat.cast_zero, Nat.cast_one, hclamp, Nat.cast_ofNat]

/-- The level before rounding lies in [0,255] (R165). -/
theorem level_bounds (t : ℝ) : 0 ≤ max 0 (min t 1) * 255 ∧ max 0 (min t 1) * 255 ≤ 255 := by
  have h0 : 0 ≤ max 0 (min t 1) := le_max_left _ _
  have h1 : max 0 (min t 1) ≤ 1 := max_le zero_le_one (min_le_right _ _)
  constructor <;> linarith

/-- A value of [0,255] rounds to a byte. -/
theorem nearestByRule_le (rule : RoundTie) {v : ℝ} (hv : 0 ≤ v) (h255 : v ≤ 255) :
    nearestByRule rule v ≤ 255 := by
  have h : (nearestByRule rule v : ℝ) < 256 := by
    linarith [(nearestByRule_within rule hv).1]
  have : nearestByRule rule v < 256 := by exact_mod_cast h
  omega

/-- `to_u8` in EXACT (R165, R166): the level rounded by the rule for ties; it needs no saturation. -/
theorem exact_toU8 (cfg : Cfg) (t : ℝ) :
    toU8 (num := exactNumerics) cfg t
      = some (BitVec.ofNat 8 (nearestByRule cfg.roundTie (max 0 (min t 1) * 255))) := by
  obtain ⟨h0, h255⟩ := level_bounds t
  unfold toU8
  rw [level_eq, exact_roundNearest_eq cfg h0, Option.map_some, saturate,
    Nat.min_eq_left (nearestByRule_le _ h0 h255)]

/-- The byte of a value, as a natural number. -/
theorem toNat_ofNat_nearestByRule (rule : RoundTie) (t : ℝ) :
    (BitVec.ofNat 8 (nearestByRule rule (max 0 (min t 1) * 255))).toNat
      = nearestByRule rule (max 0 (min t 1) * 255) := by
  obtain ⟨h0, h255⟩ := level_bounds t
  rw [BitVec.toNat_ofNat, Nat.mod_eq_of_lt (Nat.lt_succ_of_le (nearestByRule_le rule h0 h255))]

theorem level_of_unit {t : ℝ} (h0 : 0 ≤ t) (h1 : t ≤ 1) : max 0 (min t 1) * 255 = t * 255 := by
  rw [min_eq_left h1, max_eq_right h0]

theorem level_of_nonpos {t : ℝ} (h : t ≤ 0) : max 0 (min t 1) * 255 = 0 := by
  rw [max_eq_left ((min_le_left _ _).trans h), zero_mul]

theorem level_of_one_le {t : ℝ} (h : 1 ≤ t) : max 0 (min t 1) * 255 = 255 := by
  rw [min_eq_right h, max_eq_right zero_le_one, one_mul]

/-- Settles O46: the rounding of EXACT, at the ends of [0,1], between them, and on its ties. -/
theorem roundingToByte : Obligations.RoundingToByte := by
  refine ⟨rfl, fun cfg t => ⟨_, exact_toU8 cfg t, ?_, ?_, ?_, ?_, ?_⟩⟩
  · intro ht
    have h := nearestByRule_of_near cfg.roundTie (v := 0) (n := 0) (by norm_num) (by norm_num)
    rw [level_of_nonpos ht]
    exact congrArg (BitVec.ofNat 8) h
  · intro ht
    have h := nearestByRule_of_near cfg.roundTie (v := 255) (n := 255) (by norm_num) (by norm_num)
    rw [level_of_one_le ht]
    exact congrArg (BitVec.ofNat 8) h
  · intro h0 h1
    rw [toNat_ofNat_nearestByRule, level_of_unit h0 h1]
    exact nearestByRule_within _ (by linarith)
  · intro hup h1
    rw [toNat_ofNat_nearestByRule, hup]
    refine lt_of_le_of_lt ?_ (lt_nearestByRule_halfUp (level_bounds t).1)
    rw [min_eq_left h1]
    exact mul_le_mul_of_nonneg_right (le_max_right _ _) (by norm_num)
  · intro k hk ht
    have hk' : (k : ℝ) ≤ 254 := by exact_mod_cast Nat.le_of_lt_succ hk
    have h0 : 0 ≤ t := by linarith [k.cast_nonneg (α := ℝ)]
    rw [toNat_ofNat_nearestByRule, level_of_unit h0 (by linarith), ht, nearestByRule_tie]
    refine ⟨fun h => ?_, fun h => ?_, fun h => ?_, fun up h => ?_⟩ <;> rw [h]
    · rfl
    · rfl
    · simp only [tieGoesUp, beq_iff_eq]
      split <;> omega
    · rfl

end Sys2Proof.Machine
end

section
/-!
The colour conversions in EXACT (R100 to R106, R160 to R166): each curve and each conversion of the
model as a formula over the real numbers.
-/

namespace Sys2Proof.Machine

/-! ### The four curves -/

theorem exact_lin (c : ℝ) :
    lin (num := exactNumerics) c
      = if 4045 / 100000 < c then ((c + 55 / 1000) / (1055 / 1000)) ^ (12 / 5 : ℝ)
        else c / (1292 / 100) := by
  have hexp : (24 / 10 : ℝ) = 12 / 5 := by norm_num
  unfold lin
  simp only [exact_add, exact_div, exact_dec, exact_pow]
  push_cast
  rw [hexp]
  exact exact_ifLt _ _ _ _

theorem exact_labF (t : ℝ) :
    labF (num := exactNumerics) t
      = if (6 / 29) ^ 3 < t then t ^ (1 / 3 : ℝ) else t / (3 * (6 / 29) ^ 2) + 4 / 29 := by
  have hthreshold : (216 / 24389 : ℝ) = (6 / 29) ^ 3 := by norm_num
  have hslope : (108 / 841 : ℝ) = 3 * (6 / 29) ^ 2 := by norm_num
  unfold labF
  simp only [exact_add, exact_div, exact_frac, exact_pow]
  push_cast
  rw [exact_labThreshold, exact_labSlope, hthreshold, hslope]
  exact exact_ifLt _ _ _ _

theorem exact_labFinv (t : ℝ) :
    labFinv (num := exactNumerics) t
      = if 6 / 29 < t then t ^ 3 else 3 * (6 / 29) ^ 2 * (t - 4 / 29) := by
  have hcube : t * t * t = t ^ 3 := by ring
  have hslope : (108 / 841 : ℝ) = 3 * (6 / 29) ^ 2 := by norm_num
  unfold labFinv
  simp only [exact_mul, exact_sub, exact_frac]
  push_cast
  rw [exact_labSlope, hslope, hcube]
  exact exact_ifLt _ _ _ _

theorem exact_gam (c : ℝ) :
    gam (num := exactNumerics) c
      = if 31308 / 10000000 < c then 1055 / 1000 * c ^ (5 / 12 : ℝ) - 55 / 1000
        else 1292 / 100 * c := by
  have hexp : (1 / (24 / 10) : ℝ) = 5 / 12 := by norm_num
  unfold gam
  simp only [exact_mul, exact_sub, exact_div, exact_dec, exact_nat, exact_pow]
  push_cast
  rw [hexp]
  exact exact_ifLt _ _ _ _

/-! ### The steps between the curves -/

theorem exact_normByte (v : Byte) : normByte (num := exactNumerics) v = (v.toNat : ℝ) / 255 := by
  unfold normByte
  simp only [exact_div, exact_nat, Nat.cast_ofNat]

/-- TOLAB after the linearisation (R103, R105, R106). -/
theorem exact_storeLab_xyzToLab (cfg : Cfg) (xyz : Triple ℝ) :
    storeLab (num := exactNumerics) (xyzToLab (num := exactNumerics) cfg xyz)
      = let fx := labF (num := exactNumerics) (xyz.c0 / (cfg.xn : ℝ))
        let fy := labF (num := exactNumerics) (xyz.c1 / (cfg.yn : ℝ))
        let fz := labF (num := exactNumerics) (xyz.c2 / (cfg.zn : ℝ))
        ⟨255 / 100 * (116 * fy - 16), 500 * (fx - fy) + 128, 200 * (fy - fz) + 128⟩ := by
  unfold storeLab xyzToLab
  simp only [exact_add, exact_sub, exact_mul, exact_div, exact_nat, exact_dec, Nat.cast_ofNat,
    Triple.mk.injEq, and_self, and_true]
  ring

/-- TOBGR before the matrix (R161, R162). -/
theorem exact_labToXyz_loadLab (cfg : Cfg) (s : Triple ℝ) :
    labToXyz (num := exactNumerics) cfg (loadLab (num := exactNumerics) s)
      = let fy := (s.c0 * 100 / 255 + 16) / 116
        ⟨(cfg.xn : ℝ) * labFinv (num := exactNumerics) (fy + (s.c1 - 128) / 500),
          (cfg.yn : ℝ) * labFinv (num := exactNumerics) fy,
          (cfg.zn : ℝ) * labFinv (num := exactNumerics) (fy - (s.c2 - 128) / 200)⟩ := by
  unfold labToXyz loadLab
  simp only [exact_add, exact_sub, exact_mul, exact_div, exact_nat, exact_dec, Nat.cast_ofNat]

/-- A matrix in EXACT, row by row (R102, R163). -/
theorem exact_matVec (m : Matrix3) (v : Triple ℝ) :
    matVec (num := exactNumerics) m v
      = ⟨m.row0.c0 * v.c0 + m.row0.c1 * v.c1 + m.row0.c2 * v.c2,
          m.row1.c0 * v.c0 + m.row1.c1 * v.c1 + m.row1.c2 * v.c2,
          m.row2.c0 * v.c0 + m.row2.c1 * v.c1 + m.row2.c2 * v.c2⟩ := by
  unfold matVec
  rw [exact_dotRow, exact_dotRow, exact_dotRow]

/-- The gamma-encoded values of TOBGR (R160 to R164), in the terms of the model's curves. -/
theorem exact_tobgrLevels (cfg : Cfg) (s : Triple ℝ) :
    tobgrLevels (num := exactNumerics) cfg s
      = let v := labToXyz (num := exactNumerics) cfg (loadLab (num := exactNumerics) s)
        ⟨gam (num := exactNumerics)
            (cfg.mInv.row2.c0 * v.c0 + cfg.mInv.row2.c1 * v.c1 + cfg.mInv.row2.c2 * v.c2),
          gam (num := exactNumerics)
            (cfg.mInv.row1.c0 * v.c0 + cfg.mInv.row1.c1 * v.c1 + cfg.mInv.row1.c2 * v.c2),
          gam (num := exactNumerics)
            (cfg.mInv.row0.c0 * v.c0 + cfg.mInv.row0.c1 * v.c1 + cfg.mInv.row0.c2 * v.c2)⟩ := by
  unfold tobgrLevels toRgb
  rw [exact_matVec]

/-- Settles O53: both conversions, step by step through the lemmas above. -/
theorem colourFormulas : Obligations.ColourFormulas := by
  intro cfg _
  dsimp only
  refine ⟨fun p => ?_, fun s => ⟨?_, ?_⟩⟩
  · unfold tolabPx toXyz
    simp only [exact_storeLab_xyzToLab, exact_matVec, exact_normByte, exact_lin, exact_labF]
  · simp only [exact_tobgrLevels, exact_labToXyz_loadLab, exact_labFinv, exact_gam]
  · unfold tobgrPx
    simp only [exact_tobgrLevels, exact_labToXyz_loadLab, exact_labFinv, exact_gam, exact_toU8,
      nearestByRule]

end Sys2Proof.Machine
end

section
/-!
The commands and the command port on any copy of the hardware (R14): what a command can do, what a
host move can do.
-/

namespace Sys2Proof.Machine

/-! ### The pipeline never fails (R89) -/

section Pipeline
variable {F : Type} [num : Numerics F] {w h : Nat}

/-- SPLIT of a three-channel image made of triples, and MERGE of the three planes, go on. -/
theorem correctLab_imageOfTriples (cfg : Cfg) (v : ParamValues F) (p : Plane (Triple F) w h) :
    ∃ q, correctLab cfg v (imageOfTriples p) = .ok q := ⟨_, rfl⟩

theorem applyImage_ok (cfg : Cfg) (v : ParamValues F) (img : Plane (Triple Byte) w h) :
    ∃ out, applyImage cfg v img = .ok out := by
  obtain ⟨q, hq⟩ := correctLab_imageOfTriples cfg v (toLab cfg img)
  exact ⟨toBgr cfg q, by rw [applyImage, hq]⟩

end Pipeline

/-! ### Commands -/

section Commands
variable {F : Type} (hw : Hardware F) {w h : Dim} (s : State)

theorem applyWith_empty (he : w = 0 ∨ h = 0) : applyWith hw w h s = raise .emptyImage true s :=
  if_pos he

/-- APPLY of an image with pixels: the response (0, 0) after the output is committed (R86). -/
theorem applyWith_pixels (hw0 : w ≠ 0) (hh0 : h ≠ 0) :
    ∃ out, applyOutputWith hw w h s = .ok out ∧
      applyWith hw w h s = .next (respond .ok 0
        (commitOutput w h (outputBytes hw s.x w h (loadImage s w.toNat h.toNat) out) s)) := by
  obtain ⟨out, ho⟩ := applyImage_ok (num := hw.num) hw.cfg (paramValues (num := hw.num) s.x)
    (loadImage s w.toNat h.toNat)
  have ho' : applyOutputWith hw w h s = .ok out := ho
  refine ⟨out, ho', ?_⟩
  rw [applyWith, if_neg (not_or.mpr ⟨hw0, hh0⟩), ho']
  rfl

/-- Only an APPLY of an image with pixels reads the configuration (R31, R171). -/
theorem execAt_eq_exec {i : Instr} (hi : ∀ w h, i = .apply w h → w = 0 ∨ h = 0) :
    execAt hw i s = exec i s := by
  cases i with
  | apply w h =>
    exact (applyWith_empty hw s (hi w h rfl)).trans (applyWith_empty _ s (hi w h rfl)).symm
  | _ => rfl

/-- The bytes of OBUF from the end of the image on stay (R28, R45). -/
theorem readObuf_respond_commitOutput {c : Code} {d : BitVec 128} {bytes : List Byte} {a : Nat}
    (ha : bytes.length ≤ a) :
    readObuf (respond c d (commitOutput w h bytes s)) a = readObuf s a := by
  simp [readObuf, memLookup_memStore, Nat.not_lt.mpr ha]

/-- A SET command goes on, idle, with the size of the output as it was. -/
theorem setParam_next (i : Param) (p : Pattern) :
    ∃ t, setParam i p s = .next t ∧ t.status.busy = false ∧ t.outW = s.outW ∧ t.outH = s.outH := by
  rcases setParam_cases i p s with ⟨v, -, h⟩ | ⟨-, h⟩ <;> exact ⟨_, h, rfl, rfl, rfl⟩

/-- Every command goes on and leaves the engine idle; only APPLY changes the size of the output, to
its own operands (R26, R88). -/
theorem execAt_next (i : Instr) :
    ∃ t, execAt hw i s = .next t ∧ t.status.busy = false ∧
      ((t.outW = s.outW ∧ t.outH = s.outH) ∨ i = .apply t.outW t.outH) := by
  cases i with
  | init | getParams => exact ⟨_, rfl, rfl, .inl ⟨rfl, rfl⟩⟩
  | setShadow p | setHighlight p | setWidth p | setBlur p =>
    obtain ⟨t, ht, hidle, hsize⟩ := setParam_next s _ p
    exact ⟨t, ht, hidle, .inl hsize⟩
  | apply w h =>
    by_cases he : w = 0 ∨ h = 0
    · exact ⟨_, applyWith_empty hw s he, rfl, .inl ⟨rfl, rfl⟩⟩
    · obtain ⟨hw0, hh0⟩ := not_or.mp he
      obtain ⟨out, -, ht⟩ := applyWith_pixels hw s hw0 hh0
      exact ⟨_, ht, rfl, .inr rfl⟩

end Commands

/-! ### Host moves -/

/-- OUT_W and OUT_H hold no more than `DIM_BITS` bits (R14, R26). -/
def sizesWithin (cfg : Cfg) (s : State) : Prop :=
  s.outW.toNat < 2 ^ cfg.dimBits ∧ s.outH.toNat < 2 ^ cfg.dimBits

section Moves
variable {F : Type} (hw : Hardware F)

/-- A command word goes on, to an idle engine, whatever it decodes to; the sizes it can leave in OUT_W
and OUT_H come from the fields of the copy's own decoder. -/
theorem runCommand_next (u : CommandWord) (s : State) :
    ∃ t, runCommand hw.cfg (execAt hw) u s = .next t ∧ t.status.busy = false ∧
      (sizesWithin hw.cfg s → sizesWithin hw.cfg t) := by
  unfold runCommand
  cases hd : decodeAt hw.cfg u with
  | error e => exact ⟨_, rfl, rfl, id⟩
  | ok i =>
    obtain ⟨t, ht, hidle, ⟨hW, hH⟩ | rfl⟩ := execAt_next hw (accept s) i
    · exact ⟨t, ht, hidle, fun hs => by rwa [sizesWithin, hW, hH]⟩
    · obtain ⟨-, hfit⟩ := Bool.and_eq_true_iff.mp (wellFormedAt_of_decodeAt hd)
      obtain ⟨hW, hH⟩ := Bool.and_eq_true_iff.mp hfit
      exact ⟨t, ht, hidle, fun _ => ⟨of_decide_eq_true hW, of_decide_eq_true hH⟩⟩

/-- An idle engine takes every host move, and is idle after it (R186, R195). -/
theorem hostMove_idle (m : HostMove) {s : State} (hs : s.status.busy = false) :
    ∃ t, hostMove hw.cfg (execAt hw) m s = .next t ∧ t.status.busy = false := by
  cases m with
  | command u =>
    obtain ⟨t, ht, hidle, -⟩ := runCommand_next hw u s
    exact ⟨t, (if_neg (by simp [hs])).trans ht, hidle⟩
  | writeIbuf a b => exact ⟨_, if_neg (by simp [hs]), hs⟩
  | reset => exact ⟨_, rfl, rfl⟩

/-- No host move that is taken leaves more than `DIM_BITS` bits in OUT_W and OUT_H. -/
theorem hostMove_sizesWithin {m : HostMove} {s t : State} (hs : sizesWithin hw.cfg s)
    (h : hostMove hw.cfg (execAt hw) m s = .next t) : sizesWithin hw.cfg t := by
  cases m with
  | command u =>
    simp only [hostMove] at h
    split at h
    · cases h
    · obtain ⟨t', ht', -, hkeep⟩ := runCommand_next hw u s
      obtain rfl : t' = t := Host.Outcome.next.inj (ht'.symm.trans h)
      exact hkeep hs
  | writeIbuf a b =>
    simp only [hostMove] at h
    split at h
    · cases h
    · cases h
      exact hs
  | reset =>
    cases h
    exact ⟨Nat.two_pow_pos _, Nat.two_pow_pos _⟩

/-! ### Steps -/

/-- With nothing on the port a step changes nothing (R186). -/
theorem stepAt_of_port_nil {s : State} (hp : s.port = []) : stepAt hw s = .next s := by
  simp [stepAt, nextMove, hp]

/-- A step takes the first move from the port. -/
theorem stepAt_of_port_cons {s : State} {m : HostMove} {rest : List HostMove}
    (hp : s.port = m :: rest) :
    stepAt hw s = hostMove hw.cfg (execAt hw) m { s with port := rest } := by
  simp [stepAt, nextMove, hp]

/-- An idle engine runs the decoder's answer to the command word on the port (R173, R195). -/
theorem stepAt_of_command {s : State} {u : CommandWord} {rest : List HostMove}
    (hs : s.status.busy = false) (hp : s.port = .command u :: rest) :
    stepAt hw s = runCommand hw.cfg (execAt hw) u { s with port := rest } :=
  (stepAt_of_port_cons hw hp).trans (if_neg (by simp [hs]))

theorem stepAt_idle {s : State} (hs : s.status.busy = false) :
    ∃ t, stepAt hw s = .next t ∧ t.status.busy = false := by
  cases hp : s.port with
  | nil => exact ⟨s, stepAt_of_port_nil hw hp, hs⟩
  | cons m rest =>
    rw [stepAt_of_port_cons hw hp]
    exact hostMove_idle hw m hs

theorem stepAt_sizesWithin {s t : State} (hs : sizesWithin hw.cfg s) (h : stepAt hw s = .next t) :
    sizesWithin hw.cfg t := by
  cases hp : s.port with
  | nil =>
    rw [stepAt_of_port_nil hw hp] at h
    obtain rfl := Host.Outcome.next.inj h
    exact hs
  | cons m rest =>
    rw [stepAt_of_port_cons hw hp] at h
    exact hostMove_sizesWithin hw (s := { s with port := rest }) hs h

end Moves

/-- The step of the reference copy is the machine's step. -/
theorem stepAt_referenceHardware (s : State) : stepAt referenceHardware s = step s := by
  have hexec : execAt referenceHardware = exec := by
    funext i t
    cases i <;> rfl
  rw [stepAt, hexec]
  rfl

/-- Settles O51: commands, APPLY with pixels, the port, idle steps and sizes, each by its lemma. -/
theorem everyConfigurationSteps : Obligations.EveryConfigurationSteps := by
  refine ⟨fun F num cfg hv => ?_, stepAt_referenceHardware⟩
  intro hw
  refine ⟨fun i s hi => execAt_eq_exec hw s hi, fun w h s hw0 hh0 => ?_, fun s u rest hs hp => ?_,
    fun s hs => stepAt_idle hw hs, fun s t hW hH => stepAt_sizesWithin hw ⟨hW, hH⟩⟩
  · obtain ⟨out, -, ht⟩ := applyWith_pixels hw s hw0 hh0
    refine ⟨_, ht, rfl, rfl, rfl, rfl, fun a ha => ?_, rfl, rfl⟩
    refine readObuf_respond_commitOutput s ?_
    rwa [outputBytes_length, ← Nat.mul_assoc]
  · rw [stepAt_of_command hw hs hp]
    refine ⟨fun i hi => ?_, fun e he => ?_⟩
    · simp only [runCommand, show decodeAt hw.cfg u = .ok i from hi]
    · simp only [runCommand, show decodeAt hw.cfg u = .error e from he]
      exact raise_eq .illegalCommand false _

end Sys2Proof.Machine
end
section
/-!
The radius as MBLUR takes it (R140): radii that MBLUR does not tell apart give one APPLY in EXACT.
-/

namespace Sys2Proof.Machine

/-- MBLUR in EXACT: blurred with `min(br, BLUR_RMAX)` above `BLUR_EPS`, the mask itself up to it. -/
theorem exact_mblur {w h : Nat} (cfg : Cfg) (m : Plane ℝ w h) (br : ℝ) :
    mblur (num := exactNumerics) cfg m br
      = if (cfg.blurEps : ℝ) < br
        then maskBlur (num := exactNumerics) cfg m (min br (cfg.blurRmax : ℝ)) else m := by
  unfold mblur choosePlane
  rw [exact_choose_lt, exact_minOf]
  rfl

/-- Two radii of which MBLUR takes the same: both up to `BLUR_EPS`, or both above it with one minimum
with `BLUR_RMAX`. -/
def blursAlike (cfg : Cfg) (u v : ℚ) : Prop :=
  u ≤ cfg.blurEps ∧ v ≤ cfg.blurEps ∨
    cfg.blurEps < u ∧ cfg.blurEps < v ∧ min u cfg.blurRmax = min v cfg.blurRmax

theorem mblur_of_blursAlike {cfg : Cfg} {u v : ℚ} (h : blursAlike cfg u v) {wd ht : Nat}
    (m : Plane ℝ wd ht) :
    mblur (num := exactNumerics) cfg m (u : ℝ) = mblur (num := exactNumerics) cfg m (v : ℝ) := by
  rw [exact_mblur, exact_mblur]
  rcases h with ⟨hu, hv⟩ | ⟨hu, hv, hmin⟩
  · rw [if_neg (not_lt.mpr (by exact_mod_cast hu)), if_neg (not_lt.mpr (by exact_mod_cast hv))]
  · have hmin' : min (u : ℝ) (cfg.blurRmax : ℝ) = min (v : ℝ) (cfg.blurRmax : ℝ) := by
      exact_mod_cast hmin
    rw [if_pos (by exact_mod_cast hu), if_pos (by exact_mod_cast hv), hmin']

/-- The free value of an undecided byte is the same too (log entry 2). -/
theorem effectiveRadius_of_blursAlike {cfg : Cfg} {p q : Pattern} {u v : ℚ} (hp : val p = .num u)
    (hq : val q = .num v) (h : blursAlike cfg u v) :
    effectiveRadius cfg p = effectiveRadius cfg q := by
  rcases h with ⟨hu, hv⟩ | ⟨hu, hv, hmin⟩
  · rw [effectiveRadius_unblurred hp hu, effectiveRadius_unblurred hq hv]
  · rw [effectiveRadius_blurred hp hu, effectiveRadius_blurred hq hv, hmin]

/-- Only MBLUR reads the radius: parameter values that differ in a radius it does not tell apart give
one output image, in any numerics record. -/
theorem applyImage_congr_radius {F : Type} [num : Numerics F] {w h : Nat} {cfg : Cfg}
    (sa ha tw : F) {br br' : F} (hblur : ∀ m : Plane F w h, mblur cfg m br = mblur cfg m br')
    (img : Plane (Triple Byte) w h) :
    applyImage cfg ⟨sa, ha, tw, br⟩ img = applyImage cfg ⟨sa, ha, tw, br'⟩ img := by
  have hluma : ∀ lp : Plane F w h,
      correctedLuma cfg ⟨sa, ha, tw, br⟩ lp = correctedLuma cfg ⟨sa, ha, tw, br'⟩ lp := by
    intro lp
    simp only [correctedLuma, shadowMask, highlightMask, hblur]
  simp only [applyImage, correctLab, hluma]

/-- APPLY's output plane in EXACT does not tell two such radii apart. -/
theorem applyOutputWith_of_blursAlike {cfg : Cfg} (hv : cfg.valid = true) {p q : Pattern} {u v : ℚ}
    (hp : val p = .num u) (hq : val q = .num v) (h : blursAlike cfg u v) (wd ht : Dim) (s : State) :
    applyOutputWith ⟨cfg, exactNumerics, hv⟩ wd ht { s with x := { s.x with radius := p } }
      = applyOutputWith ⟨cfg, exactNumerics, hv⟩ wd ht { s with x := { s.x with radius := q } } := by
  unfold applyOutputWith paramValues
  simp only [exact_pattern hp, exact_pattern hq]
  exact applyImage_congr_radius (num := exactNumerics) _ _ _ (mblur_of_blursAlike h) _

/-- The output bytes read the radius register only through what MBLUR takes of it. -/
theorem outputBytes_congr_radius {F : Type} {hw : Hardware F} {p q : Pattern}
    (h : effectiveRadius hw.cfg p = effectiveRadius hw.cfg q) (x : Params) {w ht : Nat} (wd hd : Dim)
    (img : Plane (Triple Byte) w ht) (out : Plane (Triple (Option Byte)) w ht) :
    outputBytes hw { x with radius := p } wd hd img out
      = outputBytes hw { x with radius := q } wd hd img out := by
  simp only [outputBytes, h]

/-- Settles O55: the output plane is one and the same, and so are the keys of its undecided bytes. -/
theorem radiusActsThroughMaskBlur : Obligations.RadiusActsThroughMaskBlur := by
  intro cfg hv w h s p q u v hp hq halike hw sp sq
  by_cases he : w = 0 ∨ h = 0
  · exact ⟨_, _, applyWith_empty hw sp he, applyWith_empty hw sq he, rfl⟩
  · obtain ⟨hw0, hh0⟩ := not_or.mp he
    obtain ⟨out, hop, htp⟩ := applyWith_pixels hw sp hw0 hh0
    obtain ⟨outq, hoq, htq⟩ := applyWith_pixels hw sq hw0 hh0
    have hout : out = outq := Except.ok.inj
      (hop.symm.trans ((applyOutputWith_of_blursAlike hv hp hq halike w h s).trans hoq))
    subst hout
    have hbytes := outputBytes_congr_radius (hw := hw)
      (effectiveRadius_of_blursAlike hp hq halike) s.x w h (loadImage s w.toNat h.toNat) out
    exact ⟨_, _, htp, htq, congrArg (fun b => respond .ok 0 (commitOutput w h b sq)) hbytes.symm⟩

end Sys2Proof.Machine
end

section
/-!
Patterns and the numbers they denote (R21), the clamp of a SET command (R22): what it stores is legal,
and a legal pattern is stored as it is.
-/

namespace Sys2Proof.Machine

/-! ### `val` and `pat` are inverse -/

/-- The negative zero is the one pattern of a number that `pat` does not give back. -/
theorem pat_of_val_of_ne_negZero {p : Pattern} {q : ℚ} (h : val p = .num q) (hp : p ≠ 0x80000000) :
    pat q = p := by
  by_cases hq : q = 0
  · subst hq
    rw [pat_zero, ((val_zero_iff p).mp h).resolve_right hp]
  · exact pat_of_val h hq

theorem val_pat_of_val {p : Pattern} {q : ℚ} (h : val p = .num q) : val (pat q) = .num q := by
  by_cases hq : q = 0
  · subst hq
    exact (val_zero_iff _).mpr (.inl pat_zero)
  · rwa [pat_of_val h hq]

/-- `pat` never gives the negative zero for a number of a pattern. -/
theorem pat_ne_negZero_of_val {p : Pattern} {q : ℚ} (h : val p = .num q) : pat q ≠ 0x80000000 := by
  intro hneg
  have hzero : val (pat q) = .num 0 := (val_zero_iff _).mpr (.inr hneg)
  obtain rfl : q = 0 := FloatVal.num.inj ((val_pat_of_val h).symm.trans hzero)
  exact absurd hneg (by decide)

/-- Settles O15: away from zero the two are inverse, and the two zeros are looked at by themselves. -/
theorem patInvertsVal : Obligations.PatInvertsVal :=
  ⟨fun _ _ => pat_of_val_of_ne_negZero, fun _ _ => val_pat_of_val⟩

/-! ### The clamp -/

/-- A clamped value lies in the range, and is one of its ends or the value itself. -/
theorem clampVal_eq_some {v : FloatVal} {lo hi q : ℚ} (hle : lo ≤ hi)
    (h : clampVal v lo hi = some q) :
    (lo ≤ q ∧ q ≤ hi) ∧ (q = lo ∨ q = hi ∨ v = .num q) := by
  cases v with
  | nan => cases h
  | negInf =>
    obtain rfl := Option.some.inj h
    exact ⟨⟨le_rfl, hle⟩, .inl rfl⟩
  | posInf =>
    obtain rfl := Option.some.inj h
    exact ⟨⟨hle, le_rfl⟩, .inr (.inl rfl)⟩
  | num r =>
    have hq := Option.some.inj h
    split_ifs at hq with hlo hhi <;> subst hq
    · exact ⟨⟨le_rfl, hle⟩, .inl rfl⟩
    · exact ⟨⟨hle, le_rfl⟩, .inr (.inl rfl)⟩
    · exact ⟨⟨not_lt.mp hlo, not_lt.mp hhi⟩, .inr (.inr rfl)⟩

/-- The clamp keeps a number of the range. -/
theorem clampVal_num_of_mem {lo hi q : ℚ} (hlo : lo ≤ q) (hhi : q ≤ hi) :
    clampVal (.num q) lo hi = some q := by
  simp only [clampVal, not_lt.mpr hlo, not_lt.mpr hhi, if_false]

theorem paramLo_le_paramHi (i : Param) : paramLo i ≤ paramHi i := by
  cases i <;> norm_num [paramLo, paramHi]

/-- The lower end of every range is the number of a pattern. -/
theorem exists_val_eq_paramLo (i : Param) : ∃ p, val p = .num (paramLo i) :=
  ⟨0x00000000, by cases i <;> exact (val_zero_iff _).mpr (.inl rfl)⟩

/-- The upper end of every range is the number of a pattern. -/
theorem exists_val_eq_paramHi (i : Param) : ∃ p, val p = .num (paramHi i) := by
  cases i with
  | shadow | highlight | width => exact ⟨_, val_one⟩
  | radius => exact ⟨_, val_fifty⟩

/-! ### Legal parameters -/

theorem legalParam_iff {i : Param} {p : Pattern} :
    legalParam i p = true ↔
      ∃ q, val p = .num q ∧ paramLo i ≤ q ∧ q ≤ paramHi i ∧ p ≠ 0x80000000 := by
  unfold legalParam
  cases val p <;> simp [and_assoc]

/-- What a SET command stores is legal (R22). -/
theorem legalParam_of_clampedOperand {i : Param} {p v : Pattern} (h : clampedOperand i p = some v) :
    legalParam i v = true := by
  obtain ⟨q, hq, rfl⟩ := Option.map_eq_some_iff.mp h
  obtain ⟨⟨hlo, hhi⟩, hcase⟩ := clampVal_eq_some (paramLo_le_paramHi i) hq
  have hval : ∃ r, val r = .num q := by
    rcases hcase with rfl | rfl | hp
    · exact exists_val_eq_paramLo i
    · exact exists_val_eq_paramHi i
    · exact ⟨p, hp⟩
  obtain ⟨r, hr⟩ := hval
  exact legalParam_iff.mpr ⟨q, val_pat_of_val hr, hlo, hhi, pat_ne_negZero_of_val hr⟩

/-- A SET command stores a legal pattern as it is. -/
theorem clampedOperand_of_legalParam {i : Param} {p : Pattern} (h : legalParam i p = true) :
    clampedOperand i p = some p := by
  obtain ⟨q, hval, hlo, hhi, hne⟩ := legalParam_iff.mp h
  rw [clampedOperand, hval, clampVal_num_of_mem hlo hhi, Option.map_some,
    pat_of_val_of_ne_negZero hval hne]

/-- Settles O16: the clamp leaves a number of the range, and every such number has a pattern. -/
theorem storedParameterLegal : Obligations.StoredParameterLegal := fun _ _ _ h =>
  have hlegal := legalParam_of_clampedOperand h
  ⟨hlegal, clampedOperand_of_legalParam hlegal⟩

theorem paramsLegal_iff {x : Params} :
    paramsLegal x = true ↔ ∀ i, legalParam i (x.get i) = true := by
  simp only [paramsLegal, Bool.and_eq_true]
  constructor
  · rintro ⟨⟨⟨hshadow, hhighlight⟩, hwidth⟩, hradius⟩ i
    cases i with
    | shadow => exact hshadow
    | highlight => exact hhighlight
    | width => exact hwidth
    | radius => exact hradius
  · exact fun h => ⟨⟨⟨h .shadow, h .highlight⟩, h .width⟩, h .radius⟩

theorem paramsLegal_set {x : Params} {i : Param} {v : Pattern} (hx : paramsLegal x = true)
    (hv : legalParam i v = true) : paramsLegal (x.set i v) = true := by
  refine paramsLegal_iff.mpr fun j => ?_
  by_cases hji : j = i
  · subst hji
    rwa [params_get_set_same]
  · rw [params_get_set_other x hji]
    exact paramsLegal_iff.mp hx j

theorem paramsLegal_defaultParams : paramsLegal defaultParams = true := by decide +kernel

end Sys2Proof.Machine
end

section
/-!
What a command can do to the state, said once for every copy of the hardware; the frames of the
commands (R23, R25 to R28) and the ten bits of STATUS (R25) are read off it.
-/

namespace Sys2Proof.Machine

/-! ### STATUS -/

/-- Settles O9: the word is its three fields in order. -/
theorem statusWordFields : Obligations.StatusWordFields := by
  intro t
  refine ⟨BitVec.extractLsb'_append_eq_right, ?_, ?_⟩
  · simp only [statusWord, BitVec.getLsbD_append]
    simp
  · simp only [statusWord, BitVec.getLsbD_append]
    simp

/-! ### Every result of a command -/

/-- The register and the operand of a SET command (R81 to R84), none for the other commands. -/
def setTarget : Instr → Option (Param × Pattern)
  | .setShadow p => some (.shadow, p)
  | .setHighlight p => some (.highlight, p)
  | .setWidth p => some (.width, p)
  | .setBlur p => some (.radius, p)
  | _ => none

/-- The states a command can end in. -/
inductive CommandResult (s : State) : Instr → State → Prop
  /-- INIT (R80). -/
  | init : CommandResult s .init (respond .ok 0 { s with x := defaultParams })
  /-- GET_PARAMS (R85). -/
  | getParams : CommandResult s .getParams (respond .ok (paramsData s.x) s)
  /-- A SET command stores its clamped operand (R22). -/
  | stored {i : Instr} {j : Param} {p v : Pattern} (hset : setTarget i = some (j, p))
      (hv : clampedOperand j p = some v) :
      CommandResult s i (respond .ok 0 { s with x := s.x.set j v })
  /-- A SET command refuses a NaN (R68). -/
  | nanOperand {i : Instr} {j : Param} {p : Pattern} (hset : setTarget i = some (j, p))
      (hnan : isNaN p = true) : CommandResult s i (respond .illegalCommand 0 s)
  /-- APPLY of an image without pixels (R87, R171). -/
  | emptyImage {w h : Dim} (hempty : w = 0 ∨ h = 0) :
      CommandResult s (.apply w h)
        (respond .emptyImage 0 { s with status := setOutValid false s.status })
  /-- APPLY of an image with pixels (R86): some bytes of the image's size. -/
  | output {w h : Dim} {bytes : List Byte} (hw0 : w ≠ 0) (hh0 : h ≠ 0)
      (hlen : bytes.length = 3 * (w.toNat * h.toNat)) :
      CommandResult s (.apply w h) (respond .ok 0 (commitOutput w h bytes s))

section
variable {F : Type} (hw : Hardware F) {i : Instr} {s t : State}

theorem execAt_of_setTarget {j : Param} {p : Pattern} (hset : setTarget i = some (j, p)) :
    execAt hw i s = setParam j p s := by
  cases i with
  | setShadow q | setHighlight q | setWidth q | setBlur q =>
    cases hset
    rfl
  | _ => cases hset

/-- A SET command stores its operand or refuses it. -/
theorem commandResult_of_setTarget {j : Param} {p : Pattern} (hset : setTarget i = some (j, p))
    (h : execAt hw i s = .next t) : CommandResult s i t := by
  rw [execAt_of_setTarget hw hset] at h
  rcases setParam_cases j p s with ⟨v, hv, hnext⟩ | ⟨hnan, hnext⟩
  · obtain rfl := Host.Outcome.next.inj (hnext.symm.trans h)
    exact .stored hset hv
  · obtain rfl := Host.Outcome.next.inj (hnext.symm.trans h)
    exact .nanOperand hset hnan

/-- A command that goes on ends in one of the results, on every copy of the hardware. -/
theorem commandResult_of_execAt (h : execAt hw i s = .next t) : CommandResult s i t := by
  cases i with
  | init =>
    obtain rfl := Host.Outcome.next.inj h
    exact .init
  | getParams =>
    obtain rfl := Host.Outcome.next.inj h
    exact .getParams
  | setShadow p | setHighlight p | setWidth p | setBlur p => exact commandResult_of_setTarget hw rfl h
  | apply w ht =>
    by_cases hempty : w = 0 ∨ ht = 0
    · obtain rfl := Host.Outcome.next.inj ((applyWith_empty hw s hempty).symm.trans h)
      exact .emptyImage hempty
    · obtain ⟨hw0, hh0⟩ := not_or.mp hempty
      obtain ⟨out, -, hnext⟩ := applyWith_pixels hw s hw0 hh0
      obtain rfl := Host.Outcome.next.inj (hnext.symm.trans h)
      exact .output hw0 hh0 (outputBytes_length hw s.x w ht _ out)

end

/-- `exec` is the reference copy. -/
theorem execAt_referenceHardware (i : Instr) (s : State) :
    execAt referenceHardware i s = exec i s := by
  cases i <;> rfl

theorem commandResult_of_exec {i : Instr} {s t : State} (h : exec i s = .next t) :
    CommandResult s i t :=
  commandResult_of_execAt referenceHardware ((execAt_referenceHardware i s).trans h)

/-! ### Frames -/

section
variable {i : Instr} {s t : State}

/-- No command writes IBUF, the port or the draws of OBUF (R27). -/
theorem CommandResult.input_frame (h : CommandResult s i t) :
    t.ibuf = s.ibuf ∧ t.port = s.port ∧ t.obufEpoch = s.obufEpoch := by
  cases h <;> exact ⟨rfl, rfl, rfl⟩

/-- Only APPLY writes OUT_VALID, OUT_W, OUT_H and OBUF (R25, R26, R28). -/
theorem CommandResult.output_frame (h : CommandResult s i t) (hi : ∀ w h, i ≠ .apply w h) :
    t.status.outValid = s.status.outValid ∧ t.outW = s.outW ∧ t.outH = s.outH ∧ t.obuf = s.obuf := by
  cases h with
  | init | getParams | stored | nanOperand => exact ⟨rfl, rfl, rfl, rfl⟩
  | emptyImage | output => exact absurd rfl (hi _ _)

/-- Only INIT and the SET commands write the parameter registers (R23). -/
theorem CommandResult.params_frame (h : CommandResult s i t) (hinit : i ≠ .init)
    (hset : setTarget i = none) : t.x = s.x := by
  cases h with
  | init => exact absurd rfl hinit
  | stored hset' => cases hset.symm.trans hset'
  | getParams | nanOperand | emptyImage | output => rfl

/-- A SET command writes its own register only (R21, R23). -/
theorem CommandResult.set_frame (h : CommandResult s i t) {j k : Param} {p : Pattern}
    (hset : setTarget i = some (j, p)) (hk : k ≠ j) : t.x.get k = s.x.get k := by
  cases h with
  | stored hset' =>
    cases hset.symm.trans hset'
    exact params_get_set_other s.x hk _
  | nanOperand => rfl
  | init | getParams | emptyImage | output => cases hset

end

/-- Settles O20: the four frames above, for each kind of command. -/
theorem commandFrames : Obligations.CommandFrames := by
  intro i s t hexec
  have h := commandResult_of_exec hexec
  obtain ⟨hibuf, hport, hepoch⟩ := h.input_frame
  refine ⟨hibuf, fun a => by rw [readIbuf, readIbuf, hibuf], hport, hepoch, fun hi => ?_, ⟨?_, ?_⟩,
    ?_, ?_, ?_, ?_⟩
  · obtain ⟨hvalid, hW, hH, hobuf⟩ := h.output_frame hi
    exact ⟨hvalid, hW, hH, hobuf, fun a => by rw [readObuf, readObuf, hobuf, hepoch]⟩
  · rintro w ht rfl
    exact h.params_frame nofun rfl
  · rintro rfl
    exact h.params_frame nofun rfl
  · rintro p j rfl
    exact h.set_frame rfl
  · rintro p j rfl
    exact h.set_frame rfl
  · rintro p j rfl
    exact h.set_frame rfl
  · rintro p j rfl
    exact h.set_frame rfl

end Sys2Proof.Machine
end

section
/-!
Every step keeps the invariant of the engine (R22, R25, R26, R48, R89), on every copy of the hardware.
A command runs on a busy engine, so the part of the invariant that holds inside a command is named,
and a response is what restores the rest.
-/

namespace Sys2Proof.Machine

/-- The part of the invariant that also holds while a command is executed: all but the idle engine
and the code of the last response. -/
structure Consistent (s : State) : Prop where
  params : paramsLegal s.x = true
  output : outputComplete s
  ibufWf : Memory.wf s.ibuf = true
  obufWf : Memory.wf s.obuf = true

section
variable {s t : State}

/-- Acceptance touches BUSY only. -/
theorem Inv.consistent_accept (h : Inv s) : Consistent (accept s) :=
  ⟨h.params, h.output, h.ibufWf, h.obufWf⟩

/-- A response with a reachable code leaves an idle engine with that code in ERR (R69, R195). -/
theorem Consistent.inv_respond (h : Consistent s) {c : Code} (hc : errReachable (codeBits c) = true)
    (d : BitVec 128) : Inv (respond c d s) where
  idle := rfl
  params := h.params
  err := hc
  response := beq_self_eq_true _
  output := h.output
  ibufWf := h.ibufWf
  obufWf := h.obufWf

/-- An APPLY with pixels leaves every byte of the image in OBUF (R28, R48 (d)). -/
theorem outputComplete_commitOutput {w h : Dim} {bytes : List Byte} (hw0 : w ≠ 0) (hh0 : h ≠ 0)
    (hlen : bytes.length = 3 * (w.toNat * h.toNat)) (s : State) :
    outputComplete (commitOutput w h bytes s) := by
  refine fun _ => ⟨hw0, hh0, fun a ha => ?_⟩
  have ha' : a < bytes.length := by
    rw [hlen, ← Nat.mul_assoc]
    exact ha
  rw [commitOutput_obuf, memLookup_memStore, if_pos ha', List.getElem?_eq_getElem ha']
  rfl

/-- Without OUT_VALID there is no output to be complete. -/
theorem outputComplete_of_outValid_false (h : s.status.outValid = false) : outputComplete s :=
  fun hvalid => absurd (h.symm.trans hvalid) nofun

theorem Consistent.withParams (h : Consistent s) {x : Params} (hx : paramsLegal x = true) :
    Consistent { s with x := x } :=
  ⟨hx, h.output, h.ibufWf, h.obufWf⟩

theorem Consistent.clearOutput (h : Consistent s) :
    Consistent { s with status := setOutValid false s.status } :=
  ⟨h.params, outputComplete_of_outValid_false rfl, h.ibufWf, h.obufWf⟩

theorem Consistent.commitOutput (h : Consistent s) {wd ht : Dim} {bytes : List Byte} (hw0 : wd ≠ 0)
    (hh0 : ht ≠ 0) (hlen : bytes.length = 3 * (wd.toNat * ht.toNat)) :
    Consistent (commitOutput wd ht bytes s) :=
  ⟨h.params, outputComplete_commitOutput hw0 hh0 hlen s, h.ibufWf, memStore_wf h.obufWf bytes⟩

/-- Every result of a command meets the invariant. -/
theorem CommandResult.inv {i : Instr} (h : CommandResult s i t) (hs : Consistent s) : Inv t := by
  cases h with
  | init => exact (hs.withParams paramsLegal_defaultParams).inv_respond rfl _
  | getParams => exact hs.inv_respond rfl _
  | stored _ hv =>
    have hx := paramsLegal_set hs.params (legalParam_of_clampedOperand hv)
    exact (hs.withParams hx).inv_respond rfl _
  | nanOperand => exact hs.inv_respond rfl _
  | emptyImage => exact hs.clearOutput.inv_respond rfl _
  | output hw0 hh0 hlen => exact (hs.commitOutput hw0 hh0 hlen).inv_respond rfl _

/-- The host's write of a byte keeps the canonical form of IBUF and touches nothing else. -/
theorem Inv.hostWrite (h : Inv s) (a : Nat) (b : Byte) : Inv (hostWrite a b s) :=
  ⟨h.idle, h.params, h.err, h.response, h.output, memWrite_wf h.ibufWf a b, h.obufWf⟩

/-- Reset meets the invariant wherever the buffers are in canonical form (R190, I23). -/
theorem inv_hostReset (hi : Memory.wf s.ibuf = true) (ho : Memory.wf s.obuf = true) :
    Inv (hostReset s) where
  idle := rfl
  params := paramsLegal_defaultParams
  err := rfl
  response := rfl
  output := outputComplete_of_outValid_false rfl
  ibufWf := hi
  obufWf := by
    unfold hostReset
    split
    · rfl
    · exact ho

/-- The port is no part of the invariant. -/
theorem Inv.withPort (h : Inv s) (port : List HostMove) : Inv { s with port := port } :=
  ⟨h.idle, h.params, h.err, h.response, h.output, h.ibufWf, h.obufWf⟩

variable {F : Type} (hw : Hardware F)

/-- A command word keeps the invariant, legal or not (R173). -/
theorem runCommand_inv {u : CommandWord} (hs : Inv s)
    (h : runCommand hw.cfg (execAt hw) u s = .next t) : Inv t := by
  unfold runCommand at h
  cases hd : decodeAt hw.cfg u with
  | ok i =>
    rw [hd] at h
    exact (commandResult_of_execAt hw h).inv hs.consistent_accept
  | error e =>
    rw [hd] at h
    obtain rfl := Host.Outcome.next.inj h
    exact hs.consistent_accept.inv_respond (c := .illegalCommand) rfl 0

/-- Every host move an engine takes keeps the invariant. -/
theorem hostMove_inv {m : HostMove} (hs : Inv s)
    (h : hostMove hw.cfg (execAt hw) m s = .next t) : Inv t := by
  cases m with
  | command u => exact runCommand_inv hw hs ((if_neg (by simp [hs.idle])).symm.trans h)
  | writeIbuf a b =>
    obtain rfl := Host.Outcome.next.inj ((if_neg (by simp [hs.idle])).symm.trans h)
    exact hs.hostWrite a b
  | reset =>
    obtain rfl := Host.Outcome.next.inj h
    exact inv_hostReset hs.ibufWf hs.obufWf

/-- Every step of every copy of the hardware keeps the invariant. -/
theorem stepAt_inv (hs : Inv s) (h : stepAt hw s = .next t) : Inv t := by
  cases hp : s.port with
  | nil =>
    rw [stepAt_of_port_nil hw hp] at h
    obtain rfl := Host.Outcome.next.inj h
    exact hs
  | cons m rest =>
    rw [stepAt_of_port_cons hw hp] at h
    exact hostMove_inv hw (hs.withPort rest) h

end

/-- Settles O22, at the reference copy of the hardware. -/
theorem stepKeepsInvariant : Obligations.StepKeepsInvariant := fun s _ hs h =>
  stepAt_inv referenceHardware hs ((stepAt_referenceHardware s).trans h)

end Sys2Proof.Machine
end

section
/-!
The byte order of a serialised command (R43, decision D28) and the place of a pixel channel in a
frame buffer (R41, R45). Both write a number in digits: a serialised word is its base-256 digits, and
an offset has the channel, the column and the row as its digits to the bases 3, W and (unbounded) H.
-/

namespace Sys2Proof

/-! ### Serialised commands -/

@[simp] theorem length_wordBytes (n w : Nat) : (wordBytes n w).length = n := by
  induction n generalizing w with
  | zero => rfl
  | succ n ih => simp [wordBytes, ih]

/-- Reading `n` bytes back gives the number below `256 ^ n` they were made from. -/
theorem bytesToNat_wordBytes (n w : Nat) : bytesToNat (wordBytes n w) = w % 256 ^ n := by
  induction n generalizing w with
  | zero => simp [wordBytes, bytesToNat, Nat.mod_one]
  | succ n ih =>
    calc bytesToNat (wordBytes (n + 1) w)
        = w % 256 + 256 * (w / 256 % 256 ^ n) := by simp [wordBytes, bytesToNat, ih]
      _ = w % (256 * 256 ^ n) := Nat.mod_mul.symm
      _ = w % 256 ^ (n + 1) := by rw [Nat.pow_succ']

/-- The decoder on any eight serialised bytes sees the low 64 bits of the number (R43, R61). -/
theorem decodeBytes_wordBytes (w : Nat) :
    decodeBytes (wordBytes 8 w) = decode (BitVec.ofNat 64 w) := by
  have hlow : BitVec.ofNat 64 (w % 256 ^ 8) = BitVec.ofNat 64 w :=
    BitVec.eq_of_toNat_eq (by simp)
  rw [decodeBytes, if_pos (length_wordBytes 8 w), bytesToNat_wordBytes, hlow]

namespace Machine

/-- Settles O5: a command word is its own low 64 bits. -/
theorem decodeOfLittleEndianBytes : Obligations.DecodeOfLittleEndianBytes := fun w => by
  rw [decodeBytes_wordBytes, BitVec.ofNat_toNat, BitVec.setWidth_eq]

/-! ### Offsets of pixel channels -/

section Offsets

variable {w h x y c : Nat}

/-- The channel is the offset's last digit. -/
theorem off_mod_three (hc : c < 3) : off w x y c % 3 = c := by
  unfold off
  omega

/-- Without the channel, an offset is the pixel's number in row order. -/
theorem off_div_three (hc : c < 3) : off w x y c / 3 = y * w + x := by
  unfold off
  omega

theorem off_div_three_mod (hx : x < w) (hc : c < 3) : off w x y c / 3 % w = x := by
  rw [off_div_three hc, Nat.mul_add_mod', Nat.mod_eq_of_lt hx]

theorem off_div_three_div (hx : x < w) (hc : c < 3) : off w x y c / 3 / w = y := by
  rw [off_div_three hc, Nat.mul_comm y, Nat.mul_add_div (by omega), Nat.div_eq_of_lt hx, Nat.add_zero]

/-- Every number is the offset of its own digits. -/
theorem off_digits (w a : Nat) : off w (a / 3 % w) (a / 3 / w) (a % 3) = a := by
  unfold off
  rw [Nat.div_add_mod', Nat.div_add_mod]

/-- Pixels of the image have numbers below W·H, so their channels have offsets below 3·W·H. -/
theorem off_lt (hx : x < w) (hy : y < h) (hc : c < 3) : off w x y c < 3 * w * h := by
  have hpixel : y * w + x < w * h := index_lt hx hy
  rw [Nat.mul_assoc]
  unfold off
  omega

/-- The offset determines the pixel and the channel: they are its digits. -/
theorem off_inj {x' y' c' : Nat} (hx : x < w) (hx' : x' < w) (hc : c < 3) (hc' : c' < 3)
    (heq : off w x y c = off w x' y' c') : x = x' ∧ y = y' ∧ c = c' := by
  refine ⟨?_, ?_, ?_⟩
  · calc x = off w x y c / 3 % w := (off_div_three_mod hx hc).symm
      _ = x' := by rw [heq, off_div_three_mod hx' hc']
  · calc y = off w x y c / 3 / w := (off_div_three_div hx hc).symm
      _ = y' := by rw [heq, off_div_three_div hx' hc']
  · calc c = off w x y c % 3 := (off_mod_three hc).symm
      _ = c' := by rw [heq, off_mod_three hc']

/-- Every number below 3·W·H is an offset: the pixel and the channel are its digits. -/
theorem exists_off_eq {a : Nat} (ha : a < 3 * w * h) :
    ∃ x y c, x < w ∧ y < h ∧ c < 3 ∧ off w x y c = a := by
  have hpixel : a / 3 < w * h := Nat.div_lt_of_lt_mul (Nat.mul_assoc 3 w h ▸ ha)
  have hw : 0 < w := Nat.pos_of_mul_pos_right (Nat.zero_lt_of_lt hpixel)
  exact ⟨a / 3 % w, a / 3 / w, a % 3, Nat.mod_lt _ hw, Nat.div_lt_of_lt_mul hpixel,
    Nat.mod_lt _ (by decide), off_digits w a⟩

end Offsets

/-- Settles O29: the offsets of a W by H image are the numbers below 3·W·H, by their digits. -/
theorem pixelOffsetsCoverOnce : Obligations.PixelOffsetsCoverOnce := fun _ _ =>
  ⟨fun _ _ _ => off_lt, fun _ _ _ _ _ _ => off_inj, fun _ => exists_off_eq⟩

end Machine
end Sys2Proof
end

section
/-!
When the decoder refuses a word (R67): the errors of each format, then the branches of the decoder.
-/

namespace Sys2Proof

theorem exists_decodeN_eq_error {i : Instr} {opd : BitVec 32} :
    (∃ e, decodeN i opd = .error e) ↔ opd ≠ 0 := by
  unfold decodeN
  split
  · next h => exact iff_of_false nofun (not_not.mpr h)
  · next h => exact iff_of_true ⟨_, rfl⟩ h

theorem exists_decodeF_eq_error {mk : Pattern → Instr} {opd : BitVec 32} :
    (∃ e, decodeF mk opd = .error e) ↔ Machine.isNaN opd = true := by
  unfold decodeF
  split
  · next h => exact iff_of_true ⟨_, rfl⟩ h
  · next h => exact iff_of_false nofun h

/-- Settles O3: in each branch of the decoder the operation code is known, and what is left of the
four conditions is that of the branch's format. -/
theorem decodeRefusesExactly : Obligations.DecodeRefusesExactly := by
  intro cfg u
  by_cases hr : rsvField u = 0
  · rw [decodeAt, if_neg (not_not.mpr hr)]
    split_ifs with h1 h2 h3 h4 h5 h6 h7
    · simp [exists_decodeN_eq_error, h1, hr]
    · simp [exists_decodeN_eq_error, h2, hr]
    · simp [exists_decodeF_eq_error, h3, hr]
    · simp [exists_decodeF_eq_error, h4, hr]
    · simp [exists_decodeF_eq_error, h5, hr]
    · simp [exists_decodeF_eq_error, h6, hr]
    · simp [decodeD, h7, hr]
    · refine iff_of_true ⟨_, rfl⟩ (.inl ?_)
      simp only [List.mem_cons, List.not_mem_nil, or_false, not_or]
      exact ⟨h1, h2, h3, h4, h5, h6, h7⟩
  · rw [decodeAt, if_pos hr]
    exact iff_of_true ⟨_, rfl⟩ (.inr (.inl hr))

end Sys2Proof
end

section
/-!
The response of every command (R69, R88, R170), a NaN given to a SET command (R68), and the run of
CONSTRUCT (R71).
-/

namespace Sys2Proof.Machine

/-! ### Responses -/

/-- What a response tells the host: the code in ERR, one of the three that occur, and data only
where GET_PARAMS succeeds (R69, R89). -/
theorem CommandResult.responds {i : Instr} {s t : State} (h : CommandResult s i t) :
    ∃ r, t.response = some r ∧ r.code = t.status.err ∧ t.status.busy = false ∧
      (r.code = 0 ∨ r.code = 1 ∨ r.code = 4) ∧ (r.code ≠ 0 → r.data = 0) ∧
      (i ≠ .getParams → r.data = 0) := by
  cases h with
  | init | stored | output =>
    exact ⟨_, rfl, rfl, rfl, .inl rfl, fun _ => rfl, fun _ => rfl⟩
  | getParams =>
    exact ⟨_, rfl, rfl, rfl, .inl rfl, fun hc => absurd rfl hc, fun hi => absurd rfl hi⟩
  | emptyImage => exact ⟨_, rfl, rfl, rfl, .inr (.inl rfl), fun _ => rfl, fun _ => rfl⟩
  | nanOperand => exact ⟨_, rfl, rfl, rfl, .inr (.inr rfl), fun _ => rfl, fun _ => rfl⟩

/-- Settles O19: every command goes on, and every result of a command holds its response. -/
theorem everyCommandResponds : Obligations.EveryCommandResponds := by
  intro i s
  obtain ⟨t, ht, -⟩ := execAt_next referenceHardware s i
  obtain ⟨r, hr⟩ := (commandResult_of_execAt referenceHardware ht).responds
  exact ⟨t, r, (execAt_referenceHardware i s).symm.trans ht, hr⟩

/-! ### SET commands -/

theorem exec_of_setTarget {i : Instr} {j : Param} {p : Pattern} (hset : setTarget i = some (j, p))
    (s : State) : exec i s = setParam j p s :=
  (execAt_referenceHardware i s).symm.trans (execAt_of_setTarget referenceHardware hset)

/-- A NaN is refused: code 4, and no register written (R68, log entry 9). -/
theorem setParam_of_isNaN {p : Pattern} (hnan : isNaN p = true) (j : Param) (s : State) :
    setParam j p s = .next
      { s with status := ⟨4, s.status.outValid, false⟩, response := some ⟨4, 0⟩ } := by
  rw [setParam, (clampedOperand_eq_none j p).mpr hnan]
  exact raise_eq .illegalCommand false s

/-- Every operand but a NaN is stored clamped (R22). -/
theorem setParam_of_not_isNaN {p : Pattern} (hnum : isNaN p = false) (j : Param) (s : State) :
    ∃ v, clampedOperand j p = some v ∧
      setParam j p s = .next (respond .ok 0 { s with x := s.x.set j v }) :=
  (setParam_cases j p s).resolve_right fun h => by simp [hnum] at h

/-- Settles O14: the four commands are one operation on four registers. -/
theorem setCommandsRefuseNaN : Obligations.SetCommandsRefuseNaN := by
  intro s p hnan i hi
  have hset : ∃ j, setTarget i = some (j, p) := by
    simp only [List.mem_cons, List.not_mem_nil, or_false] at hi
    rcases hi with rfl | rfl | rfl | rfl <;> exact ⟨_, rfl⟩
  obtain ⟨j, hj⟩ := hset
  rw [exec_of_setTarget hj]
  exact setParam_of_isNaN hnan j s

/-! ### Runs of command words -/

/-- A step of an idle engine executes the well-formed instruction whose word is next on the port. -/
theorem step_of_encode {i : Instr} (hwf : i.wellFormed = true) {s : State} {rest : List HostMove}
    (hs : s.status.busy = false) (hp : s.port = .command (encode i) :: rest) :
    step s = exec i (accept { s with port := rest }) := by
  have hd : decodeAt referenceHardware.cfg (encode i) = .ok i := decodeOfEncode.1 i hwf
  rw [← stepAt_referenceHardware, stepAt_of_command referenceHardware hs hp,
    ← execAt_referenceHardware]
  simp only [runCommand, hd]

/-- One step on the word of INIT. -/
theorem step_of_encode_init {s : State} {rest : List HostMove}
    (hs : s.status.busy = false) (hp : s.port = .command (encode .init) :: rest) :
    ∃ t, step s = .next t ∧ t.port = rest ∧ t.status.busy = false :=
  ⟨_, step_of_encode rfl hs hp, rfl, rfl⟩

theorem wellFormed_of_setTarget {i : Instr} {j : Param} {p : Pattern}
    (hset : setTarget i = some (j, p)) : i.wellFormed = !isNaN p := by
  cases i with
  | setShadow q | setHighlight q | setWidth q | setBlur q =>
    cases hset
    rfl
  | _ => cases hset

/-- One step on the word of a SET command: its clamped operand goes into its register. -/
theorem step_of_encode_set {i : Instr} {j : Param} {p : Pattern} (hset : setTarget i = some (j, p))
    (hnum : isNaN p = false) {s : State} {rest : List HostMove} (hs : s.status.busy = false)
    (hp : s.port = .command (encode i) :: rest) :
    ∃ t v, step s = .next t ∧ t.port = rest ∧ t.status.busy = false ∧
      clampedOperand j p = some v ∧ t.x = s.x.set j v := by
  have hwf : i.wellFormed = true := by rw [wellFormed_of_setTarget hset, hnum]; rfl
  obtain ⟨v, hv, hnext⟩ := setParam_of_not_isNaN hnum j (accept { s with port := rest })
  exact ⟨_, v, (step_of_encode hwf hs hp).trans ((exec_of_setTarget hset _).trans hnext), rfl, rfl,
    hv, rfl⟩

theorem run_succ_of_step {M : Host.Core} {s t : M.State} (h : M.step s = .next t) (k : Nat) :
    M.run (k + 1) s = M.run k t := by
  simp only [Host.Core.run, h]

/-- Settles O18: INIT, then the four SET commands, each in its own step. -/
theorem constructSetsClampedArguments : Obligations.ConstructSetsClampedArguments := by
  intro s a b c d rest hs hnum hp
  simp only [List.forall_mem_cons, List.not_mem_nil, false_implies, implies_true, and_true] at hnum
  obtain ⟨ha, hb, hc, hd⟩ := hnum
  obtain ⟨s₀, h₀, hp₀, hs₀⟩ := step_of_encode_init hs hp
  obtain ⟨s₁, v₁, h₁, hp₁, hs₁, hv₁, hx₁⟩ :=
    step_of_encode_set (i := .setShadow a) rfl ha hs₀ hp₀
  obtain ⟨s₂, v₂, h₂, hp₂, hs₂, hv₂, hx₂⟩ :=
    step_of_encode_set (i := .setHighlight b) rfl hb hs₁ hp₁
  obtain ⟨s₃, v₃, h₃, hp₃, hs₃, hv₃, hx₃⟩ :=
    step_of_encode_set (i := .setWidth c) rfl hc hs₂ hp₂
  obtain ⟨s₄, v₄, h₄, hp₄, hs₄, hv₄, hx₄⟩ :=
    step_of_encode_set (i := .setBlur d) rfl hd hs₃ hp₃
  have hrun : Host.Core.run Sys2Proof.core 5 s = .next s₄ := by
    calc Host.Core.run Sys2Proof.core 5 s
        = Host.Core.run Sys2Proof.core 4 s₀ := run_succ_of_step h₀ 4
      _ = Host.Core.run Sys2Proof.core 3 s₁ := run_succ_of_step h₁ 3
      _ = Host.Core.run Sys2Proof.core 2 s₂ := run_succ_of_step h₂ 2
      _ = Host.Core.run Sys2Proof.core 1 s₃ := run_succ_of_step h₃ 1
      _ = .next s₄ := run_succ_of_step h₄ 0
  refine ⟨s₄, hrun, hp₄, hs₄, ?_⟩
  simp [hx₁, hx₂, hx₃, hx₄, hv₁, hv₂, hv₃, hv₄]

end Sys2Proof.Machine
end

section
/-!
The nearest pattern of a rational number (R70). A number is measured in units of the last place of
its binade; `pat` rounds it to an integer number of units. Every number of a pattern is either a
whole number of these units or lies below the binade, and neither kind is nearer than the rounded
one.
-/

namespace Sys2Proof.Machine

/-! ### Rounding to an integer -/

/-- `k` is a nearest integer to `x`, and even where another one is equally near. -/
structure RoundsTo (x : ℚ) (k : Nat) : Prop where
  near : |x - k| ≤ 1 / 2
  even_of_tie : |x - k| = 1 / 2 → k % 2 = 0

theorem roundsTo_of_lt {x : ℚ} {k : Nat} (h : |x - k| < 1 / 2) : RoundsTo x k :=
  ⟨h.le, fun htie => absurd htie h.ne⟩

/-- The model's rounding of a quotient, by the cases of its remainder. -/
theorem roundsTo_roundHalfEven (n : Nat) {d : Nat} (hd : 0 < d) :
    RoundsTo ((n : ℚ) / d) (roundHalfEven n d) := by
  have hd' : (0 : ℚ) < d := by exact_mod_cast hd
  obtain ⟨f, hf⟩ : ∃ f : ℚ, f = ((n % d : Nat) : ℚ) / d := ⟨_, rfl⟩
  have hfd : f * d = ((n % d : Nat) : ℚ) := by rw [hf, div_mul_cancel₀ _ hd'.ne']
  have hx : (n : ℚ) / d = (n / d : Nat) + f := by
    rw [div_eq_iff hd'.ne', add_mul, hfd]
    exact_mod_cast (Nat.div_add_mod' n d).symm
  have hf0 : 0 ≤ f := by rw [hf]; positivity
  have hf1 : f < 1 := by
    rw [hf, div_lt_one hd']
    exact_mod_cast Nat.mod_lt n hd
  have hlt : 2 * (n % d) < d ↔ f < 1 / 2 := by
    rw [hf, div_lt_iff₀ hd', one_div_mul_eq_div, lt_div_iff₀' two_pos]
    exact_mod_cast Iff.rfl
  have hgt : d < 2 * (n % d) ↔ 1 / 2 < f := by
    rw [hf, lt_div_iff₀ hd', one_div_mul_eq_div, div_lt_iff₀' two_pos]
    exact_mod_cast Iff.rfl
  rw [hx]
  unfold roundHalfEven
  simp only [hlt, hgt]
  split_ifs with hdown hup heven
  · exact roundsTo_of_lt (abs_lt.mpr ⟨by linarith, by linarith⟩)
  · exact roundsTo_of_lt (abs_lt.mpr ⟨by push_cast; linarith, by push_cast; linarith⟩)
  · exact ⟨abs_le.mpr ⟨by linarith, by linarith⟩, fun _ => heven⟩
  · exact ⟨abs_le.mpr ⟨by push_cast; linarith, by push_cast; linarith⟩, fun _ => by omega⟩

section
variable {x : ℚ} {k : Nat} (h : RoundsTo x k)
include h

theorem RoundsTo.le_of_le {N : Nat} (hx : x ≤ N) : k ≤ N := by
  have hk : (k : ℚ) < (N + 1 : Nat) := by
    push_cast
    linarith [neg_le_of_abs_le h.near]
  exact Nat.le_of_lt_succ (by exact_mod_cast hk)

theorem RoundsTo.ge_of_ge {N : Nat} (hx : (N : ℚ) ≤ x) : N ≤ k := by
  have hk : (N : ℚ) < (k + 1 : Nat) := by
    push_cast
    linarith [le_of_abs_le h.near]
  exact Nat.le_of_lt_succ (by exact_mod_cast hk)

/-- No integer is nearer, and none is equally near unless there is a tie. -/
theorem RoundsTo.nearest_int (j : ℤ) :
    |x - k| ≤ |x - j| ∧ (|x - k| = |x - j| → (k : ℚ) ≠ j → k % 2 = 0) := by
  by_cases hj : (k : ℤ) = j
  · subst hj
    exact ⟨le_rfl, fun _ hne => absurd rfl hne⟩
  · have hgap : (1 : ℚ) ≤ |(k : ℚ) - j| := by
      exact_mod_cast Int.one_le_abs (sub_ne_zero.mpr hj)
    have htriangle : |(k : ℚ) - j| ≤ |x - k| + |x - j| := by
      rw [abs_sub_comm x k]
      exact abs_sub_le _ _ _
    have hnear := h.near
    exact ⟨by linarith, fun heq _ => h.even_of_tie (by linarith)⟩

/-- No number below an integer that `x` has reached is as near. -/
theorem RoundsTo.nearer_than_below {N : Nat} (hx : (N : ℚ) ≤ x) {y : ℚ} (hy : y < N) :
    |x - k| < |x - y| :=
  calc |x - k| ≤ |x - (N : ℤ)| := (h.nearest_int N).1
    _ = x - N := abs_of_nonneg (by push_cast; linarith)
    _ < x - y := by linarith
    _ ≤ |x - y| := le_abs_self _

end

/-! ### Units in the last place -/

/-- The exponent of the binade of `v`; the subnormal numbers share that of the least normal ones. -/
def binade (v : ℚ) : Int := max (floorLog2 v.num.natAbs v.den) (-126)

/-- `|v|` in units of the last place of its binade. -/
def inUnits (v : ℚ) : ℚ := |v| * 2 ^ (23 - binade v)

/-- `inUnits v` as `pat` rounds it. -/
def roundedUnits (v : ℚ) : Nat :=
  let q := scaled v.num.natAbs (23 - binade v)
  roundHalfEven q.1 (v.den * q.2)

theorem natAbs_num_div_den (v : ℚ) : (v.num.natAbs : ℚ) / v.den = |v| := by
  rw [Rat.abs_def, Rat.divInt_eq_div, Int.cast_natCast, Int.cast_natCast]

theorem roundsTo_roundedUnits (v : ℚ) : RoundsTo (inUnits v) (roundedUnits v) := by
  have h := roundsTo_roundHalfEven (scaled v.num.natAbs (23 - binade v)).1
    (Nat.mul_pos v.den_pos (Nat.two_pow_pos (-(23 - binade v)).toNat))
  rwa [show 2 ^ (-(23 - binade v)).toNat = (scaled v.num.natAbs (23 - binade v)).2 from rfl,
    scaled_ratio, natAbs_num_div_den] at h

theorem neg_126_le_binade (v : ℚ) : -126 ≤ binade v := le_max_right _ _

section
variable {v : ℚ} (hv : v ≠ 0)
include hv

theorem floorLog2_bounds :
    (2 : ℚ) ^ floorLog2 v.num.natAbs v.den ≤ |v| ∧
      |v| < 2 ^ (floorLog2 v.num.natAbs v.den + 1) := by
  rw [← natAbs_num_div_den v]
  exact floorLog2_spec (Int.natAbs_pos.mpr (Rat.num_ne_zero.mpr hv)) v.den_pos

/-- A number lies below the end of its binade. -/
theorem inUnits_lt : inUnits v < 2 ^ 24 := by
  have hle : floorLog2 v.num.natAbs v.den + 1 ≤ binade v + 1 := by
    unfold binade
    omega
  calc inUnits v < 2 ^ (floorLog2 v.num.natAbs v.den + 1) * 2 ^ (23 - binade v) :=
        mul_lt_mul_of_pos_right (floorLog2_bounds hv).2 (by positivity)
    _ ≤ 2 ^ (binade v + 1) * 2 ^ (23 - binade v) :=
        mul_le_mul_of_nonneg_right (zpow_le_zpow_right₀ one_le_two hle) (by positivity)
    _ = 2 ^ 24 := by
        rw [← zpow_add₀ two_ne_zero, show binade v + 1 + (23 - binade v) = 24 by ring]
        norm_num

/-- A normal number has reached the beginning of its binade. -/
theorem le_inUnits (hnormal : binade v ≠ -126) : 2 ^ 23 ≤ inUnits v := by
  have heq : binade v = floorLog2 v.num.natAbs v.den := by
    unfold binade at *
    omega
  calc (2 : ℚ) ^ 23 = 2 ^ binade v * 2 ^ (23 - binade v) := by
        rw [← zpow_add₀ two_ne_zero, show binade v + (23 - binade v) = 23 by ring]
        norm_num
    _ ≤ inUnits v := by
        refine mul_le_mul_of_nonneg_right ?_ (by positivity)
        rw [heq]
        exact (floorLog2_bounds hv).1

theorem roundedUnits_le : roundedUnits v ≤ 2 ^ 24 :=
  (roundsTo_roundedUnits v).le_of_le (by exact_mod_cast (inUnits_lt hv).le)

theorem le_roundedUnits (hnormal : binade v ≠ -126) : 2 ^ 23 ≤ roundedUnits v :=
  (roundsTo_roundedUnits v).ge_of_ge (by exact_mod_cast le_inUnits hv hnormal)

/-- Up to the largest finite number the rounded number has a finite pattern. -/
theorem patternBits_lt (hmax : |v| ≤ (2 ^ 24 - 1) * 2 ^ 104) :
    (binade v + 126).toNat * 2 ^ 23 + roundedUnits v < 255 * 2 ^ 23 := by
  have htop : ∀ e : Int, binade v = e → inUnits v ≤ (2 ^ 24 - 1) * 2 ^ (127 - e) := by
    rintro e rfl
    calc inUnits v ≤ (2 ^ 24 - 1) * 2 ^ 104 * 2 ^ (23 - binade v) :=
          mul_le_mul_of_nonneg_right hmax (by positivity)
      _ = (2 ^ 24 - 1) * 2 ^ (127 - binade v) := by
          rw [mul_assoc, ← zpow_ofNat (2 : ℚ) 104, ← zpow_add₀ two_ne_zero]
          congr 2
          ring
  have hle := roundedUnits_le hv
  have hge := neg_126_le_binade v
  rcases lt_trichotomy (binade v) 127 with hlt | heq | hgt
  · omega
  · have hk : roundedUnits v ≤ 2 ^ 24 - 1 :=
      (roundsTo_roundedUnits v).le_of_le (by simpa using (htop 127 heq).trans_eq (by norm_num))
    rw [heq]
    omega
  · have hlow : (2 : ℚ) ^ 23 ≤ (2 ^ 24 - 1) * 2 ^ (127 - binade v) :=
      (le_inUnits hv (by omega)).trans (htop _ rfl)
    have hhalf : (2 : ℚ) ^ (127 - binade v) ≤ 2 ^ (-1 : Int) :=
      zpow_le_zpow_right₀ one_le_two (by omega)
    norm_num at hlow hhalf
    linarith

end

/-! ### The pattern of the rounded number -/

/-- A pattern's magnitude from its bits below the sign: `k` units of the exponent `a`, where `k` may
reach into the next exponent. -/
theorem magnitude_of_bits {p : Pattern} {neg : Bool} {a k : Nat}
    (hp : p.toNat = (if neg then 2 ^ 31 else 0) + (a * 2 ^ 23 + k)) (hk : k ≤ 2 ^ 24)
    (hnormal : a ≠ 0 → 2 ^ 23 ≤ k) (hfin : a * 2 ^ 23 + k < 255 * 2 ^ 23) :
    signBit p = neg ∧ expField p < 255 ∧ magnitude p = k * 2 ^ ((a : Int) - 149) := by
  have hsign : signBit p = neg := by
    rw [signBit_eq, hp]
    cases neg with
    | true => exact decide_eq_true (Nat.le_add_right _ _)
    | false => exact decide_eq_false (by rw [if_neg nofun]; omega)
  have hlow : p.toNat % 2 ^ 31 = a * 2 ^ 23 + k := by
    rw [hp]
    split <;> omega
  have hexp : expField p = (a * 2 ^ 23 + k) / 2 ^ 23 := by
    rw [expField_eq]
    omega
  have hfrac : fracField p = (a * 2 ^ 23 + k) % 2 ^ 23 := by
    rw [fracField_eq]
    omega
  refine ⟨hsign, by omega, ?_⟩
  rw [magnitude_eq, significand]
  by_cases hsub : k < 2 ^ 23
  · have ha : a = 0 := by omega
    rw [if_pos (by omega), show fracField p = k by omega, show expField p = 0 by omega, ha]
    rfl
  · rw [if_neg (by omega)]
    by_cases hcarry : k = 2 ^ 24
    · rw [show fracField p + 2 ^ 23 = 2 ^ 23 by omega, show expField p = a + 2 by omega, hcarry,
        show (max ((a + 2 : Nat) : Int) 1 - 150) = (a : Int) - 149 + 1 by omega,
        zpow_add_one₀ two_ne_zero]
      push_cast
      ring
    · rw [show fracField p + 2 ^ 23 = k by omega, show expField p = a + 1 by omega]
      congr 2
      push_cast
      omega

theorem val_of_finite {p : Pattern} (hfin : expField p < 255) :
    val p = .num (if signBit p then -magnitude p else magnitude p) :=
  if_neg (by omega)

/-- `|v|` rounded to a whole number of units. -/
def roundedAbs (v : ℚ) : ℚ := roundedUnits v * 2 ^ (binade v - 23)

section
variable {v : ℚ} (hv : v ≠ 0) (hmax : |v| ≤ (2 ^ 24 - 1) * 2 ^ 104)
include hv hmax

theorem toNat_pat :
    (pat v).toNat = (if decide (v < 0) then 2 ^ 31 else 0)
      + ((binade v + 126).toNat * 2 ^ 23 + roundedUnits v) := by
  have hlt := patternBits_lt hv hmax
  have hmag : patMagnitude v.num.natAbs v.den
      = (binade v + 126).toNat * 2 ^ 23 + roundedUnits v := min_eq_left hlt.le
  rw [pat, if_neg hv, hmag, BitVec.toNat_ofNat]
  by_cases hneg : v < 0
  · rw [if_pos hneg, if_pos (decide_eq_true hneg)]
    omega
  · rw [if_neg hneg, if_neg (by simpa using hneg)]
    omega

/-- What `pat` gives denotes the rounded number, with the sign of `v`. -/
theorem val_pat : val (pat v) = .num (if v < 0 then -roundedAbs v else roundedAbs v) := by
  have hge := neg_126_le_binade v
  have hnormal : (binade v + 126).toNat ≠ 0 → 2 ^ 23 ≤ roundedUnits v := fun h =>
    le_roundedUnits hv (by omega)
  obtain ⟨hsign, hfin, hmag⟩ := magnitude_of_bits (toNat_pat hv hmax) (roundedUnits_le hv) hnormal
    (patternBits_lt hv hmax)
  have hunit : (((binade v + 126).toNat : Int) - 149) = binade v - 23 := by omega
  rw [val_of_finite hfin, hsign, hmag, hunit, roundedAbs]
  simp

/-- The last bit of the pattern is the last bit of the number of units. -/
theorem pat_getLsbD_zero (heven : roundedUnits v % 2 = 0) : (pat v).getLsbD 0 = false := by
  rw [BitVec.getLsbD, Nat.testBit_zero, toNat_pat hv hmax, decide_eq_false_iff_not]
  split <;> omega

end

/-! ### The numbers of patterns, seen from a binade -/

/-- A whole number of units of the binade `e`, or a number below a normal binade `e`. -/
def OnGridOrBelow (e : Int) (y : ℚ) : Prop :=
  (∃ j : ℤ, y = j * 2 ^ (e - 23)) ∨ e ≠ -126 ∧ |y| < 2 ^ e

theorem OnGridOrBelow.neg {e : Int} {y : ℚ} (h : OnGridOrBelow e y) : OnGridOrBelow e (-y) := by
  rcases h with ⟨j, rfl⟩ | ⟨hne, hlt⟩
  · exact .inl ⟨-j, by push_cast; ring⟩
  · exact .inr ⟨hne, by rwa [abs_neg]⟩

/-- A pattern's significand has 24 bits (R21). -/
theorem significand_lt (p : Pattern) : significand p < 2 ^ 24 := by
  have := fracField_lt p
  unfold significand
  split <;> omega

/-- A pattern whose exponent is at least that of the units lies on their grid; any other one is too
small for the binade. -/
theorem onGridOrBelow_magnitude (e : Int) (p : Pattern) : OnGridOrBelow e (magnitude p) := by
  rw [magnitude_eq]
  generalize hx : (max (expField p) 1 : Int) - 150 = x
  by_cases hgrid : e - 23 ≤ x
  · refine .inl ⟨significand p * 2 ^ (x - (e - 23)).toNat, ?_⟩
    push_cast
    rw [mul_assoc, ← zpow_natCast, Int.toNat_of_nonneg (by omega), ← zpow_add₀ two_ne_zero,
      sub_add_cancel]
  · refine .inr ⟨by omega, ?_⟩
    have hsig : (significand p : ℚ) < 2 ^ (24 : Int) := by exact_mod_cast significand_lt p
    calc |(significand p : ℚ) * 2 ^ x| = significand p * 2 ^ x := abs_of_nonneg (by positivity)
      _ < 2 ^ (24 : Int) * 2 ^ x := mul_lt_mul_of_pos_right hsig (by positivity)
      _ = 2 ^ (24 + x) := (zpow_add₀ two_ne_zero _ _).symm
      _ ≤ 2 ^ e := zpow_le_zpow_right₀ one_le_two (by omega)

/-- Every number of a pattern is of one of the two kinds, whatever the binade. -/
theorem onGridOrBelow_of_val (e : Int) {p : Pattern} {q : ℚ} (h : val p = .num q) :
    OnGridOrBelow e q := by
  obtain ⟨-, rfl⟩ := val_num h
  have hmag := onGridOrBelow_magnitude e p
  split
  · exact hmag.neg
  · exact hmag

/-! ### The rounded number is nearest -/

/-- Neither kind of number is nearer to `|v|` than the rounded one, nor equally near unless the
number of units is even. -/
theorem roundedAbs_nearest {v : ℚ} (hv : v ≠ 0) {y : ℚ} (hy : OnGridOrBelow (binade v) y) :
    |(|v| - roundedAbs v)| ≤ |(|v| - y)| ∧
      (|(|v| - roundedAbs v)| = |(|v| - y)| → roundedAbs v ≠ y → roundedUnits v % 2 = 0) := by
  obtain ⟨u, hu⟩ : ∃ u : ℚ, u = 2 ^ (binade v - 23) := ⟨_, rfl⟩
  have hupos : 0 < u := by rw [hu]; positivity
  have hround := roundsTo_roundedUnits v
  have habs : |v| = inUnits v * u := by
    rw [inUnits, hu, mul_assoc, ← zpow_add₀ two_ne_zero,
      show 23 - binade v + (binade v - 23) = 0 by ring, zpow_zero, mul_one]
  have hscale : ∀ z : ℚ, |(|v| - z * u)| = |inUnits v - z| * u := fun z => by
    rw [habs, ← sub_mul, abs_mul, abs_of_pos hupos]
  rw [roundedAbs, ← hu, hscale]
  rcases hy with ⟨j, rfl⟩ | ⟨hnormal, hlt⟩
  · obtain ⟨hle, htie⟩ := hround.nearest_int j
    rw [← hu, hscale]
    refine ⟨mul_le_mul_of_nonneg_right hle hupos.le, fun heq hne => htie ?_ ?_⟩
    · exact mul_right_cancel₀ hupos.ne' heq
    · exact fun h => hne (by rw [h])
  · have hbelow : y / u < (2 ^ 23 : Nat) := by
      rw [div_lt_iff₀ hupos, hu]
      calc y ≤ |y| := le_abs_self y
        _ < 2 ^ binade v := hlt
        _ = ((2 ^ 23 : Nat) : ℚ) * 2 ^ (binade v - 23) := by
            rw [Nat.cast_pow, Nat.cast_ofNat, ← zpow_natCast, ← zpow_add₀ two_ne_zero]
            congr 1
            push_cast
            ring
    have hnearer := hround.nearer_than_below (N := 2 ^ 23)
      (by exact_mod_cast le_inUnits hv hnormal) hbelow
    have hfarther := mul_lt_mul_of_pos_right hnearer hupos
    rw [← div_mul_cancel₀ y hupos.ne', hscale]
    exact ⟨hfarther.le, fun heq => absurd heq hfarther.ne⟩

/-- Settles O17: for zero by itself, and else for `|v|`, with the sign of `v` put back. -/
theorem patIsNearest : Obligations.PatIsNearest := by
  intro v hmax
  by_cases hv : v = 0
  · subst hv
    exact ⟨0, (val_zero_iff _).mpr (.inl pat_zero), fun p q' _ => ⟨by simp, fun _ _ => rfl⟩⟩
  · refine ⟨_, val_pat hv hmax, fun p q' hq' => ?_⟩
    have hy := onGridOrBelow_of_val (binade v) hq'
    by_cases hneg : v < 0
    · obtain ⟨hle, htie⟩ := roundedAbs_nearest hv hy.neg
      have hflip : ∀ z, |v - z| = |(|v| - -z)| := fun z => by
        rw [abs_of_neg hneg, neg_sub_neg, abs_sub_comm]
      rw [if_pos hneg, hflip, hflip, neg_neg]
      exact ⟨hle, fun heq hne => pat_getLsbD_zero hv hmax
        (htie heq fun h => hne (by rw [h, neg_neg]))⟩
    · obtain ⟨hle, htie⟩ := roundedAbs_nearest hv hy
      rw [abs_of_nonneg (not_lt.mp hneg)] at hle htie
      rw [if_neg hneg]
      exact ⟨hle, fun heq hne => pat_getLsbD_zero hv hmax (htie heq hne)⟩

end Sys2Proof.Machine
end

section
/-!
The results of the parameter commands (R80 to R85): the defaults of INIT, the data of GET_PARAMS, the
pattern each SET command stores; and that a step of an idle engine never stops (R88, R195).
-/

namespace Sys2Proof.Machine

/-! ### INIT and GET_PARAMS -/

/-- Settles O11: the defaults are legal, so the clamp keeps them (R22). -/
theorem initResult : Obligations.InitResult := by
  refine ⟨rfl, fun s => ⟨_, rfl, rfl, fun i => ?_, rfl, fun _ => rfl, fun _ => rfl, rfl⟩⟩
  exact clampedOperand_of_legalParam (paramsLegal_iff.mp paramsLegal_defaultParams i)

/-- Each parameter register is its 32 bits of the response data of GET_PARAMS (R69, R85). -/
theorem paramsData_fields (x : Params) :
    (paramsData x).extractLsb' 0 32 = x.shadow ∧ (paramsData x).extractLsb' 32 32 = x.highlight ∧
      (paramsData x).extractLsb' 64 32 = x.width ∧ (paramsData x).extractLsb' 96 32 = x.radius := by
  have hsum : paramsData x
      = (x.radius ++ x.width ++ x.highlight ++ x.shadow : BitVec (32 + 32 + 32 + 32)) := rfl
  have hskip : ∀ {v start : Nat} (a : BitVec v) (b : BitVec 32),
      (a ++ b).extractLsb' (start + 32) 32 = a.extractLsb' start 32 := fun _ _ =>
    BitVec.extractLsb'_append_eq_of_le (Nat.le_add_left 32 _)
  rw [hsum]
  refine ⟨BitVec.extractLsb'_append_eq_right, ?_, ?_, ?_⟩
  · exact (hskip (start := 0) _ _).trans BitVec.extractLsb'_append_eq_right
  · exact (hskip (start := 32) _ _).trans
      ((hskip (start := 0) _ _).trans BitVec.extractLsb'_append_eq_right)
  · exact (hskip (start := 64) _ _).trans
      ((hskip (start := 32) _ _).trans BitVec.extractLsb'_append_eq_left)

/-- Settles O12, by the four fields of the response data. -/
theorem getParamsResult : Obligations.GetParamsResult := by
  refine ⟨rfl, fun s => ⟨_, ⟨0, paramsData s.x⟩, rfl, rfl, rfl, ?_⟩⟩
  obtain ⟨hshadow, hhighlight, hwidth, hradius⟩ := paramsData_fields s.x
  refine ⟨hshadow, hhighlight, hwidth, hradius, fun hx => ?_, rfl⟩
  exact (congrArg paramsData hx).trans (by decide)

/-! ### SET commands -/

theorem paramLo_eq_zero (i : Param) : paramLo i = 0 := by cases i <;> rfl

/-- What a SET command stores, when `top` is the pattern of the upper end of the range: `pat` of the
clamped value, case by case (R22). -/
theorem storesClamped_of_clampedOperand {i : Param} {top p v : Pattern}
    (htop : pat (paramHi i) = top) (hv : clampedOperand i p = some v) :
    storesClamped i top p v := by
  have hbottom : pat (paramLo i) = 0x00000000 := by rw [paramLo_eq_zero, pat_zero]
  have hstored : ∀ {r : FloatVal} {c : ℚ}, val p = r →
      clampVal r (paramLo i) (paramHi i) = some c → v = pat c := by
    rintro r c rfl hc
    rw [clampedOperand, hc] at hv
    exact (Option.some.inj hv).symm
  refine ⟨fun h => (hstored h rfl).trans hbottom, fun h => (hstored h rfl).trans htop, fun h => ?_,
    fun q hq => ⟨fun hlow => ?_, fun hhigh => ?_, fun hne hlo hhi => ?_⟩⟩
  · have hmem : clampVal (.num 0) (paramLo i) (paramHi i) = some 0 :=
      clampVal_num_of_mem (paramLo_eq_zero i).le
        ((paramLo_eq_zero i).ge.trans (paramLo_le_paramHi i))
    exact hstored ((val_zero_iff p).mpr h) hmem
  · exact (hstored hq (by simp [clampVal, hlow])).trans hbottom
  · have hnot : ¬ q < paramLo i := not_lt.mpr ((paramLo_le_paramHi i).trans hhigh.le)
    exact (hstored hq (by simp [clampVal, hnot, hhigh])).trans htop
  · exact (hstored hq (clampVal_num_of_mem hlo hhi)).trans (pat_of_val hq hne)

/-- A SET command whose operand is no NaN stores it clamped and answers (0, 0) (R22, R81 to R84). -/
theorem exec_set_stores {i : Instr} {j : Param} {top p : Pattern} (hset : setTarget i = some (j, p))
    (htop : pat (paramHi j) = top) (hnum : isNaN p = false) (s : State) :
    ∃ v, storesClamped j top p v ∧ exec i s = .next
      { s with
        x := s.x.set j v
        status := ⟨0, s.status.outValid, false⟩
        response := some ⟨0, 0⟩ } := by
  obtain ⟨v, hv, hnext⟩ := setParam_of_not_isNaN hnum j s
  exact ⟨v, storesClamped_of_clampedOperand htop hv, (exec_of_setTarget hset s).trans hnext⟩

/-- A SET command's word is its operation code, 24 zero bits, and the operand (R62, R64). -/
theorem encode_of_setTarget {i : Instr} {j : Param} {p : Pattern} {op : BitVec 8}
    {head : BitVec 32} (hset : setTarget i = some (j, p)) (hop : i.opcode = op)
    (hhead : op ++ (0 : BitVec 24) = head) : encode i = head ++ p := by
  subst hop hhead
  cases i with
  | setShadow q | setHighlight q | setWidth q | setBlur q =>
    cases hset
    rfl
  | _ => cases hset

/-- Settles O13: the four commands are one operation on four registers. -/
theorem setCommandsStoreClamped : Obligations.SetCommandsStoreClamped := by
  intro s p hnum
  refine ⟨encode_of_setTarget (i := .setShadow p) (op := 0x10) rfl rfl (by decide),
    encode_of_setTarget (i := .setHighlight p) (op := 0x11) rfl rfl (by decide),
    encode_of_setTarget (i := .setWidth p) (op := 0x12) rfl rfl (by decide),
    encode_of_setTarget (i := .setBlur p) (op := 0x13) rfl rfl (by decide), ?_, ?_, ?_, ?_⟩
  · exact exec_set_stores (i := .setShadow p) rfl pat_one hnum s
  · exact exec_set_stores (i := .setHighlight p) rfl pat_one hnum s
  · exact exec_set_stores (i := .setWidth p) rfl pat_one hnum s
  · exact exec_set_stores (i := .setBlur p) rfl pat_fifty hnum s

/-! ### Steps -/

/-- Settles O23: the invariant's engine is idle, and an idle engine takes every host move. -/
theorem invariantStatesStep : Obligations.InvariantStatesStep := by
  intro s hs
  obtain ⟨t, ht, -⟩ := stepAt_idle referenceHardware hs.idle
  exact ⟨t, (stepAt_referenceHardware s).symm.trans ht⟩

end Sys2Proof.Machine
end

section
/-!
APPLY on the machine (R86, R87, R91): what its stages do to the working image, the bytes it reads and
writes, what its output depends on, and what it does without pixels.
-/

namespace Sys2Proof.Machine

/-! ### The stage sequence -/

/-- Settles O49. -/
theorem pipelineNeverFails : Obligations.PipelineNeverFails := fun _ num cfg v _ _ img =>
  applyImage_ok (num := num) cfg v img

/-- A working pixel with another L value (R111). -/
def withLuma {F : Type} (l : F) (px : Triple F) : Triple F := ⟨l, px.c1, px.c2⟩

/-- What a zip of two planes takes from the second one alone. -/
theorem map_zipPlane_of_right {α β γ δ : Type} {w h : Nat} {f : α → β → γ} {g : γ → δ} {k : β → δ}
    (hk : ∀ a b, g (f a b) = k b) (p : Plane α w h) (q : Plane β w h) :
    (zipPlane f p q).px.map g = q.px.map k := by
  refine List.ext_getElem ?_ fun i _ _ => ?_
  · rw [List.length_map, List.length_map, q.size, Plane.size]
  · simp [zipPlane, hk]

/-- A plane has a value at every index below W·H. -/
theorem exists_px_getElem? {α : Type} {w h : Nat} (p : Plane α w h) {i : Nat} (hi : i < w * h) :
    ∃ a, p.px[i]? = some a :=
  ⟨_, List.getElem?_eq_getElem (p.size ▸ hi)⟩

/-- What the pointwise operations give at an index (R217). -/
theorem mapPlane_px {α β : Type} {w h : Nat} {p : Plane α w h} {i : Nat} {a : α} (f : α → β)
    (hp : p.px[i]? = some a) : (mapPlane f p).px[i]? = some (f a) := by
  simp [mapPlane, hp]

theorem zipPlane_px {α β γ : Type} {w h : Nat} {p : Plane α w h} {q : Plane β w h} {i : Nat} {a : α}
    {b : β} (f : α → β → γ) (hp : p.px[i]? = some a) (hq : q.px[i]? = some b) :
    (zipPlane f p q).px[i]? = some (f a b) := by
  simp [zipPlane, List.getElem?_zipWith, hp, hq]

section Stages
variable {F : Type} [num : Numerics F] {w h : Nat} (cfg : Cfg) (v : ParamValues F)

/-- SPLIT of an image of triples gives its three planes, and MERGE puts the corrected L plane in front
of the other two (R110, R111). -/
theorem correctLab_imageOfTriples_eq (lab : Plane (Triple F) w h) :
    correctLab cfg v (imageOfTriples lab)
      = .ok (zipPlane withLuma
          (correctedLuma cfg v (mapPlane Triple.c0 lab)) lab) := by
  have hchannel : ∀ c, channelPlane (imageOfTriples lab) c
      = mapPlane (fun t => [t.c0, t.c1, t.c2].getD c (num.nat 0)) lab := fun c =>
    plane_ext List.map_map
  have hsplit : split (imageOfTriples lab)
      = .ok [mapPlane Triple.c0 lab, mapPlane Triple.c1 lab, mapPlane Triple.c2 lab] := by
    simp only [split, hchannel]
    rfl
  simp only [correctLab, hsplit, merge]
  refine congrArg Except.ok (plane_ext ?_)
  simp only [zipPlane, mapPlane, List.zipWith_map_left, List.zipWith_map_right, List.zipWith_self]
  rfl

/-- The stage sequence, with SPLIT and MERGE carried out. -/
theorem applyImage_eq (img : Plane (Triple Byte) w h) :
    applyImage cfg v img
      = .ok (toBgr cfg (zipPlane withLuma
          (correctedLuma cfg v (mapPlane Triple.c0 (toLab cfg img))) (toLab cfg img))) := by
  rw [applyImage, correctLab_imageOfTriples_eq]

/-- The corrected luminance at a pixel: 255 times CORRECT of v = Ls/255 with the two masks of the input
luminance (R86, R112, R113, R150). -/
theorem correctedLuma_px {lp lum : Plane F w h} (hlum : normLum lp = lum) {i : Nat} {l s hl : F}
    (hlp : lp.px[i]? = some l) (hs : (shadowMask cfg lum v.tw v.br).px[i]? = some s)
    (hhl : (highlightMask cfg lum v.tw v.br).px[i]? = some hl) :
    (correctedLuma cfg v lp).px[i]?
      = some (correctPx cfg v.sa v.ha (l / num.nat 255) s hl * num.nat 255) := by
  subst hlum
  exact mapPlane_px _ (zipPlane_px _ (mapPlane_px _ hlp) (zipPlane_px _ hs hhl))

end Stages

/-- Settles O50: the planes are looked at one pixel at a time. -/
theorem onlyLuminanceChanges : Obligations.OnlyLuminanceChanges := by
  intro F num cfg v w h lab lum sm hm
  have hlum : normLum (mapPlane Triple.c0 lab) = lum := plane_ext List.map_map
  refine ⟨_, correctLab_imageOfTriples_eq cfg v lab,
    map_zipPlane_of_right (f := withLuma) (fun _ _ => rfl) _ _,
    map_zipPlane_of_right (f := withLuma) (fun _ _ => rfl) _ _, fun i hi => ?_⟩
  obtain ⟨px, hpx⟩ := exists_px_getElem? lab hi
  obtain ⟨s, hs⟩ := exists_px_getElem? sm hi
  obtain ⟨l, hl⟩ := exists_px_getElem? hm hi
  have hnew := correctedLuma_px cfg v hlum (mapPlane_px Triple.c0 hpx) hs hl
  exact ⟨px, s, l, hpx, hs, hl, zipPlane_px _ hnew hpx⟩

/-! ### The image in the buffers -/

section Buffers
variable {α : Type} {w h : Nat}

/-- The bytes of a list of pixels: three for each, blue, green, red (R41). -/
theorem flatMap_triple_getElem? (l : List (Triple α)) (i : Nat) :
    (l.flatMap fun t => [t.c0, t.c1, t.c2])[3 * i]? = l[i]?.map Triple.c0 ∧
      (l.flatMap fun t => [t.c0, t.c1, t.c2])[3 * i + 1]? = l[i]?.map Triple.c1 ∧
      (l.flatMap fun t => [t.c0, t.c1, t.c2])[3 * i + 2]? = l[i]?.map Triple.c2 := by
  induction l generalizing i with
  | nil => exact ⟨rfl, rfl, rfl⟩
  | cons t l ih =>
    cases i with
    | zero => exact ⟨rfl, rfl, rfl⟩
    | succ i => exact ih i

/-- The bytes of a pixel stand at its offsets (R41). -/
theorem imageBytes_off {p : Plane (Triple α) w h} {x y : Nat} {t : Triple α}
    (ht : p.px[y * w + x]? = some t) :
    (imageBytes p)[off w x y 0]? = some t.c0 ∧ (imageBytes p)[off w x y 1]? = some t.c1 ∧
      (imageBytes p)[off w x y 2]? = some t.c2 := by
  obtain ⟨h0, h1, h2⟩ := flatMap_triple_getElem? p.px (y * w + x)
  rw [ht] at h0 h1 h2
  exact ⟨h0, h1, h2⟩

theorem tabulate_px_getElem? (f : Nat → Nat → α) {x y : Nat} (hx : x < w) (hy : y < h) :
    (tabulate w h f).px[y * w + x]? = some (f x y) := by
  have hdiv : (y * w + x) / w = y := by
    rw [Nat.mul_comm, Nat.mul_add_div (by omega), Nat.div_eq_of_lt hx, Nat.add_zero]
  simp [tabulate, index_lt hx hy, Nat.mod_eq_of_lt hx, hdiv]

theorem tabulate_congr {f g : Nat → Nat → α} (hfg : ∀ x y, x < w → y < h → f x y = g x y) :
    tabulate w h f = tabulate w h g := by
  refine plane_ext (List.map_congr_left fun i hi => ?_)
  have hi' : i < w * h := List.mem_range.mp hi
  have hw : 0 < w := Nat.pos_of_mul_pos_right (Nat.zero_lt_of_lt hi')
  exact hfg _ _ (Nat.mod_lt _ hw) (Nat.div_lt_of_lt_mul hi')

/-- The image APPLY reads is a matter of the first 3·W·H bytes of IBUF (R42). -/
theorem loadImage_congr {s t : State}
    (hst : ∀ a < 3 * w * h, readIbuf s a = readIbuf t a) : loadImage s w h = loadImage t w h := by
  refine tabulate_congr fun x y hx hy => ?_
  simp only [pixelIn, hst _ (off_lt hx hy (show 0 < 3 by decide)),
    hst _ (off_lt hx hy (show 1 < 3 by decide)), hst _ (off_lt hx hy (show 2 < 3 by decide))]

/-- A decided byte is written as it is (R86). -/
theorem outputBytes_of_decided {F : Type} {hw : Hardware F} {x : Params} {wd hd : Dim}
    {img : Plane (Triple Byte) w h} {out : Plane (Triple (Option Byte)) w h} {a : Nat} {b : Byte}
    (hb : (imageBytes out)[a]? = some (some b)) :
    (outputBytes hw x wd hd img out)[a]? = some b := by
  simp [outputBytes, hb]

end Buffers

/-! ### APPLY without pixels -/

/-- Settles O24. -/
theorem applyEmptyImage : Obligations.ApplyEmptyImage := fun _ _ s hempty =>
  ⟨_, (applyWith_empty referenceHardware s hempty).trans (raise_eq _ _ s), rfl, fun _ => rfl,
    fun _ => rfl⟩

/-! ### APPLY with pixels -/

section Output
variable {w h : Dim} (s : State)

/-- The state APPLY of an image with pixels ends in, when `out` is its output plane (R86). -/
def applied (w h : Dim) (s : State) (out : Plane (Triple (Option Byte)) w.toNat h.toNat) : State :=
  respond .ok 0
    (commitOutput w h
      (outputBytes referenceHardware s.x w h (loadImage s w.toNat h.toNat) out) s)

/-- APPLY of an image with pixels answers an output plane and goes on (R86, R89). -/
theorem exec_apply_pixels (hw0 : w ≠ 0) (hh0 : h ≠ 0) :
    ∃ out, applyOutput w h s = .ok out ∧ exec (.apply w h) s = .next (applied w h s out) :=
  applyWith_pixels referenceHardware s hw0 hh0

variable (out : Plane (Triple (Option Byte)) w.toNat h.toNat)

/-- OBUF after APPLY below 3·W·H: the output bytes (R28). -/
theorem memLookup_applied {a : Nat} (ha : a < 3 * w.toNat * h.toNat) :
    memLookup (applied w h s out).obuf a
      = (outputBytes referenceHardware s.x w h (loadImage s w.toNat h.toNat) out)[a]? := by
  have hlt : a < (outputBytes referenceHardware s.x w h
      (loadImage s w.toNat h.toNat) out).length := by
    rwa [outputBytes_length, ← Nat.mul_assoc]
  rw [applied, respond_obuf, commitOutput_obuf, memLookup_memStore, if_pos hlt]

/-- OBUF after APPLY from 3·W·H on: as before (R28, R45). -/
theorem readObuf_applied {a : Nat} (ha : 3 * w.toNat * h.toNat ≤ a) :
    readObuf (applied w h s out) a = readObuf s a := by
  refine readObuf_respond_commitOutput s ?_
  rwa [outputBytes_length, ← Nat.mul_assoc]

variable {s out}

/-- A decided byte of the output plane is in OBUF after APPLY. -/
theorem memLookup_applied_of_decided {a : Nat} {b : Byte}
    (hb : (imageBytes out)[a]? = some (some b)) :
    memLookup (applied w h s out).obuf a = some b := by
  have hlt : a < 3 * w.toNat * h.toNat := by
    obtain ⟨hlen, -⟩ := List.getElem?_eq_some_iff.mp hb
    rwa [imageBytes_length, ← Nat.mul_assoc] at hlen
  rw [memLookup_applied s out hlt, outputBytes_of_decided hb]

theorem readObuf_applied_of_decided {a : Nat} {b : Byte}
    (hb : (imageBytes out)[a]? = some (some b)) : readObuf (applied w h s out) a = b := by
  rw [readObuf, memLookup_applied_of_decided hb, Option.getD_some]

end Output

/-- Settles O25. -/
theorem applyCompletes : Obligations.ApplyCompletes := by
  intro w h s hw0 hh0
  refine ⟨fun x y hx hy => tabulate_px_getElem? _ hx hy, ?_⟩
  obtain ⟨out, hout, hexec⟩ := exec_apply_pixels s hw0 hh0
  refine ⟨out, _, hout, hexec, rfl, fun a => readObuf_applied s out, fun x y _ _ px hpx => ?_⟩
  obtain ⟨h0, h1, h2⟩ := imageBytes_off hpx
  exact ⟨fun b hb => readObuf_applied_of_decided (h0.trans (congrArg some hb)),
    fun b hb => readObuf_applied_of_decided (h1.trans (congrArg some hb)),
    fun b hb => readObuf_applied_of_decided (h2.trans (congrArg some hb))⟩

/-- Settles O27: the image and the parameters are all that the output bytes are made of. -/
theorem applyDependsOnOperandsOnly : Obligations.ApplyDependsOnOperandsOnly := by
  intro w h s1 s2 hx hibuf
  by_cases hempty : w = 0 ∨ h = 0
  · refine ⟨_, _, applyWith_empty referenceHardware s1 hempty,
      applyWith_empty referenceHardware s2 hempty, rfl, rfl, fun hw0 hh0 => ?_⟩
    exact absurd hempty (not_or.mpr ⟨hw0, hh0⟩)
  · obtain ⟨hw0, hh0⟩ := not_or.mp hempty
    have himg : loadImage s1 w.toNat h.toNat = loadImage s2 w.toNat h.toNat := loadImage_congr hibuf
    have hsame : applyOutput w h s1 = applyOutput w h s2 := by
      simp only [applyOutput, applyOutputWith, hx, himg]
    obtain ⟨out, hout, hexec1⟩ := exec_apply_pixels s1 hw0 hh0
    obtain ⟨out', hout', hexec2⟩ := exec_apply_pixels s2 hw0 hh0
    obtain rfl : out = out' := Except.ok.inj (hout.symm.trans (hsame.trans hout'))
    refine ⟨_, _, hexec1, hexec2, rfl, rfl, fun _ _ => ⟨rfl, rfl, fun a ha => ?_⟩⟩
    rw [memLookup_applied s1 out ha, memLookup_applied s2 out ha, hx, himg]

/-! ### The radius from 20 on -/

/-- MBLUR takes the same of two radii from 20 on (R84, R140). -/
theorem blursAlike_of_twenty_le {u v : ℚ} (hu : 20 ≤ u) (hv : 20 ≤ v) :
    blursAlike Config.defaults u v := by
  have heps : Config.defaults.blurEps = 1 / 10 := rfl
  have hmax : Config.defaults.blurRmax = 20 := rfl
  refine .inr ⟨?_, ?_, ?_⟩
  · rw [heps]; linarith
  · rw [heps]; linarith
  · rw [hmax, min_eq_right hu, min_eq_right hv]

/-- Between rationals known exactly the enclosures choose as the rationals compare. -/
theorem enc_choose_lt_exact {α : Type} (a b : ℚ) (j : α → α → α) (yes no : Unit → α) :
    choose (encNumerics.lt? (.exact a) (.exact b)) j yes no = if a < b then yes () else no () := by
  show choose (some (decide (a < b))) j yes no = _
  by_cases h : a < b <;> simp [choose, h]

/-- On enclosures too, a radius known exactly and from 20 on blurs as 20 does. -/
theorem enc_mblur_of_twenty_le {w h : Nat} {u : ℚ} (hu : 20 ≤ u) (m : Plane Enc w h) :
    mblur (num := encNumerics) Config.defaults m (.exact u)
      = maskBlur (num := encNumerics) Config.defaults m (.exact 20) := by
  have heps : (1 / 10 : ℚ) < u := by linarith
  have hmin : minOf (num := encNumerics) (.exact u) (.exact 20) = .exact 20 := by
    unfold minOf ifLt
    rw [enc_choose_lt_exact]
    split_ifs with hlt
    · rfl
    · rw [le_antisymm (not_lt.mp hlt) hu]
  have hblur : mblur (num := encNumerics) Config.defaults m (.exact u)
      = maskBlur (num := encNumerics) Config.defaults m
          (minOf (num := encNumerics) (.exact u) (.exact 20)) := by
    unfold mblur choosePlane
    exact (enc_choose_lt_exact (1 / 10) u _ _ _).trans (if_pos heps)
  rw [hblur, hmin]

theorem enc_pattern {p : Pattern} {q : ℚ} (h : val p = .num q) :
    encNumerics.pattern p = .exact q := by
  show encPattern p = _
  rw [encPattern, h]

/-- The output plane of the reference copy is the same for two radii from 20 on. -/
theorem applyOutput_of_twenty_le {p q : Pattern} {u v : ℚ} (hp : val p = .num u)
    (hq : val q = .num v) (hu : 20 ≤ u) (hv : 20 ≤ v) (w h : Dim) (s : State) :
    applyOutput w h { s with x := { s.x with radius := p } }
      = applyOutput w h { s with x := { s.x with radius := q } } := by
  have himage := applyImage_congr_radius (num := encNumerics) (cfg := Config.defaults)
    (encNumerics.pattern s.x.shadow) (encNumerics.pattern s.x.highlight)
    (encNumerics.pattern s.x.width)
    (fun m => (enc_mblur_of_twenty_le hu m).trans (enc_mblur_of_twenty_le hv m).symm)
    (loadImage s w.toNat h.toNat)
  rw [← enc_pattern hp, ← enc_pattern hq] at himage
  exact himage

/-- Settles O28: the output planes agree in both numerics, and so do the keys of the undecided bytes. -/
theorem radiusSaturatesAtTwenty : Obligations.RadiusSaturatesAtTwenty := by
  intro w h s p q u v hp hq hu hv sp sq
  have halike := blursAlike_of_twenty_le hu hv
  have hsame : applyOutput w h sp = applyOutput w h sq := applyOutput_of_twenty_le hp hq hu hv w h s
  refine ⟨hsame, fun img => ?_, ?_⟩
  · unfold exactOutput paramValues
    simp only [sp, sq, exact_pattern hp, exact_pattern hq]
    exact applyImage_congr_radius (num := exactNumerics) _ _ _ (mblur_of_blursAlike halike) img
  · by_cases hempty : w = 0 ∨ h = 0
    · exact ⟨_, _, applyWith_empty referenceHardware sp hempty,
        applyWith_empty referenceHardware sq hempty, rfl, rfl, rfl, rfl, rfl, fun _ => rfl⟩
    · obtain ⟨hw0, hh0⟩ := not_or.mp hempty
      obtain ⟨out, hout, hexecp⟩ := exec_apply_pixels sp hw0 hh0
      obtain ⟨out', hout', hexecq⟩ := exec_apply_pixels sq hw0 hh0
      obtain rfl : out = out' := Except.ok.inj (hout.symm.trans (hsame.trans hout'))
      have hobuf : (applied w h sp out).obuf = (applied w h sq out).obuf :=
        congrArg (memStore s.obuf) (outputBytes_congr_radius (hw := referenceHardware)
          (effectiveRadius_of_blursAlike hp hq halike) s.x w h (loadImage s w.toNat h.toNat) out)
      refine ⟨_, _, hexecp, hexecq, hobuf, rfl, rfl, rfl, rfl, fun a => ?_⟩
      rw [readObuf, readObuf, hobuf]
      rfl

end Sys2Proof.Machine
end

section
/-!
The enclosures simulate EXACT (R19, R213). A relation between two numeric types that every operation of
NUM keeps is kept by every stage, because a stage is built from these operations alone; `encloses` is
such a relation between the enclosures and the real numbers.
-/

namespace Sys2Proof.Machine

/-! ### What a simulation is -/

/-- The comparison `e` answers, and `a` answers the same or cannot tell. -/
def Answers (a e : Option Bool) : Prop := ∃ t, e = some t ∧ (a = some t ∨ a = none)

/-- A partial result that is there is the reference's. -/
def Decides {α : Type} (o r : Option α) : Prop := ∀ a, o = some a → r = some a

/-- `R a x`: the number `a` of one numerics record stands for `x` of another one. Every operation keeps
it, the joined number of a choice stands for both branches, and a comparison or a floor of the first
record is that of the second one where it answers. -/
structure Simulates {F G : Type} [nf : Numerics F] [ng : Numerics G] (R : F → G → Prop) : Prop where
  nat (n : Nat) : R (nf.nat n) (ng.nat n)
  dec (q : ℚ) : R (nf.dec q) (ng.dec q)
  pattern (p : Pattern) : R (nf.pattern p) (ng.pattern p)
  add {a b : F} {x y : G} : R a x → R b y → R (a + b) (x + y)
  sub {a b : F} {x y : G} : R a x → R b y → R (a - b) (x - y)
  mul {a b : F} {x y : G} : R a x → R b y → R (a * b) (x * y)
  div {a b : F} {x y : G} : R a x → R b y → R (a / b) (x / y)
  pow {a b : F} {x y : G} : R a x → R b y → R (nf.pow a b) (ng.pow x y)
  exp {a : F} {x : G} : R a x → R (nf.exp a) (ng.exp x)
  lt {a b : F} {x y : G} : R a x → R b y → Answers (nf.lt? a b) (ng.lt? x y)
  le {a b : F} {x y : G} : R a x → R b y → Answers (nf.le? a b) (ng.le? x y)
  joinLeft {a b : F} {x : G} : R a x → R (nf.join a b) x
  joinRight {a b : F} {y : G} : R b y → R (nf.join a b) y
  undetermined (x : G) : R nf.undetermined x
  floor {a : F} {x : G} : R a x → Decides (nf.floor a) (ng.floor x)

theorem answers_decide {P : Prop} [Decidable P] {a : Option Bool}
    (h : ∀ t, a = some t → (t = true ↔ P)) : Answers a (some (decide P)) := by
  cases a with
  | none => exact ⟨_, rfl, .inr rfl⟩
  | some t => exact ⟨_, rfl, .inl (congrArg some (by simp [← h t rfl]))⟩

/-- The enclosures simulate EXACT. -/
theorem encloses_simulates : Simulates (nf := encNumerics) (ng := exactNumerics) encloses :=
  letI := encNumerics
  letI := exactNumerics
  { nat := fun _ => (Rat.cast_natCast _).symm
    dec := fun _ => rfl
    pattern := encPattern_sound
    add := encAdd_sound
    sub := encSub_sound
    mul := encMul_sound
    div := encDiv_sound
    pow := encPow_sound
    exp := encExp_sound
    lt := fun ha hb => @answers_decide _ (Classical.propDecidable _) _ fun _ => encLt_sound ha hb
    le := fun ha hb => @answers_decide _ (Classical.propDecidable _) _ fun _ => encLe_sound ha hb
    joinLeft := encJoin_left
    joinRight := encJoin_right
    undetermined := fun _ => trivial
    floor := fun ha _ h => congrArg some (encFloor_sound ha h).symm }

/-! ### Related planes and pixels -/

/-- Two triples related channel by channel. -/
structure TripleRel {α β : Type} (S : α → β → Prop) (s : Triple α) (t : Triple β) : Prop where
  c0 : S s.c0 t.c0
  c1 : S s.c1 t.c1
  c2 : S s.c2 t.c2

/-- Two planes related pixel by pixel. -/
def PlaneRel {α β : Type} {w h : Nat} (S : α → β → Prop) (p : Plane α w h) (q : Plane β w h) : Prop :=
  List.Forall₂ S p.px q.px

/-- Two kernel taps at one place, with related weights. -/
structure TapRel {F G : Type} (R : F → G → Prop) (s : Tap F) (t : Tap G) : Prop where
  dx : s.dx = t.dx
  dy : s.dy = t.dy
  weight : R s.weight t.weight

section Relations
variable {α β α' β' γ δ : Type} {w h : Nat} {S : α → β → Prop} {S' : α' → β' → Prop}
  {T : γ → δ → Prop}

/-- Two maps of one list are related where they are so at every element. -/
theorem forall₂_map_same {f : γ → α} {g : γ → β} (hfg : ∀ a, S (f a) (g a)) (l : List γ) :
    List.Forall₂ S (l.map f) (l.map g) := by
  rw [List.forall₂_map_left_iff, List.forall₂_map_right_iff, List.forall₂_same]
  exact fun a _ => hfg a

theorem forall₂_zipWith {l : List α} {m : List β} {l' : List α'} {m' : List β'}
    (hl : List.Forall₂ S l m) (hl' : List.Forall₂ S' l' m') {f : α → α' → γ} {g : β → β' → δ}
    (hfg : ∀ {a x b y}, S a x → S' b y → T (f a b) (g x y)) :
    List.Forall₂ T (List.zipWith f l l') (List.zipWith g m m') := by
  induction hl generalizing l' m' with
  | nil => exact .nil
  | cons hax _ ih =>
    cases hl' with
    | nil => exact .nil
    | cons hby hrest => exact .cons (hfg hax hby) (ih hrest)

theorem forall₂_getElem? {l : List α} {m : List β} (hlm : List.Forall₂ S l m) {i : Nat} {a : α}
    (ha : l[i]? = some a) : ∃ b, m[i]? = some b ∧ S a b := by
  induction hlm generalizing i with
  | nil => cases ha
  | cons hab _ ih =>
    cases i with
    | zero => exact ⟨_, rfl, Option.some.inj ha ▸ hab⟩
    | succ i => exact ih ha

theorem forall₂_getD {l : List α} {m : List β} (hlm : List.Forall₂ S l m) {a : α} {b : β}
    (hab : S a b) (i : Nat) : S (l.getD i a) (m.getD i b) := by
  induction hlm generalizing i with
  | nil => exact hab
  | cons hxy _ ih =>
    cases i with
    | zero => exact hxy
    | succ i => exact ih i

theorem planeRel_map {p : Plane α w h} {q : Plane β w h} (hp : PlaneRel S p q) {f : α → γ} {g : β → δ}
    (hfg : ∀ {a b}, S a b → T (f a) (g b)) : PlaneRel T (mapPlane f p) (mapPlane g q) :=
  List.rel_map (R := S) (P := T) (fun _ _ hab => hfg hab) hp

theorem planeRel_zip {p : Plane α w h} {q : Plane β w h} {p' : Plane α' w h} {q' : Plane β' w h}
    (hp : PlaneRel S p q) (hp' : PlaneRel S' p' q') {f : α → α' → γ} {g : β → β' → δ}
    (hfg : ∀ {a x b y}, S a x → S' b y → T (f a b) (g x y)) :
    PlaneRel T (zipPlane f p p') (zipPlane g q q') :=
  forall₂_zipWith hp hp' hfg

theorem planeRel_tabulate {f : Nat → Nat → α} {g : Nat → Nat → β} (hfg : ∀ x y, S (f x y) (g x y)) :
    PlaneRel S (tabulate w h f) (tabulate w h g) :=
  forall₂_map_same (fun _ => hfg _ _) _

theorem planeRel_planeAt {p : Plane α w h} {q : Plane β w h} (hp : PlaneRel S p q) {a : α} {b : β}
    (hab : S a b) (x y : Nat) : S (planeAt p a x y) (planeAt q b x y) :=
  forall₂_getD hp hab _

/-- The bytes of related images are related. -/
theorem planeRel_imageBytes {p : Plane (Triple α) w h} {q : Plane (Triple β) w h}
    (hp : PlaneRel (TripleRel S) p q) : List.Forall₂ S (imageBytes p) (imageBytes q) :=
  List.rel_flatMap hp fun _ _ ht => .cons ht.c0 (.cons ht.c1 (.cons ht.c2 .nil))

/-- A list joined with another one stands for what the first stands for, when the joined values do. -/
theorem forall₂_joinLeft {j : α → α → α} (hj : ∀ {a b x}, S a x → S (j a b) x) {l l' : List α}
    {m : List β} (hl : List.Forall₂ S l m) (hlen : l.length = l'.length) :
    List.Forall₂ S (List.zipWith j l l') m := by
  induction hl generalizing l' with
  | nil => exact .nil
  | cons hax _ ih =>
    cases l' with
    | nil => cases hlen
    | cons b l' => exact .cons (hj hax) (ih (Nat.succ.inj hlen))

theorem planeRel_joinLeft {j : α → α → α} (hj : ∀ {a b x}, S a x → S (j a b) x)
    {p p' : Plane α w h} {q : Plane β w h} (hp : PlaneRel S p q) :
    PlaneRel S (zipPlane j p p') q :=
  forall₂_joinLeft hj hp (p.size.trans p'.size.symm)

theorem planeRel_joinRight {j : α → α → α} (hj : ∀ {a b x}, S b x → S (j a b) x)
    {p p' : Plane α w h} {q : Plane β w h} (hp : PlaneRel S p' q) :
    PlaneRel S (zipPlane j p p') q := by
  show List.Forall₂ S (List.zipWith j p.px p'.px) q.px
  rw [List.zipWith_comm]
  exact forall₂_joinLeft hj hp (p'.size.trans p.size.symm)

/-- A value that stands for every one stands for those of any plane. -/
theorem planeRel_const {c : γ} (hc : ∀ b, T c b) (p : Plane α w h) (q : Plane δ w h) :
    PlaneRel T (mapPlane (fun _ => c) p) q := by
  refine List.forall₂_iff_get.mpr ⟨(mapPlane (fun _ => c) p).size.trans q.size.symm, fun i _ _ => ?_⟩
  simpa [mapPlane] using hc _

/-- A choice stands for the branch the reference's comparison takes. -/
theorem rel_choose {a e : Option Bool} (hans : Answers a e) {j : α → α → α} {j' : β → β → β}
    {yes no : Unit → α} {yes' no' : Unit → β} (hyes : S (yes ()) (yes' ())) (hno : S (no ()) (no' ()))
    (hleft : S (j (yes ()) (no ())) (yes' ())) (hright : S (j (yes ()) (no ())) (no' ())) :
    S (choose a j yes no) (choose e j' yes' no') := by
  obtain ⟨t, rfl, rfl | rfl⟩ := hans
  · cases t with
    | true => exact hyes
    | false => exact hno
  · cases t with
    | true => exact hleft
    | false => exact hright

theorem forall₂_weights {F G : Type} {R : F → G → Prop} {l : List (Tap F)} {m : List (Tap G)}
    (hl : List.Forall₂ (TapRel R) l m) :
    List.Forall₂ R (l.map Tap.weight) (m.map Tap.weight) :=
  List.rel_map (R := TapRel R) (fun _ _ ht => ht.weight) hl

theorem forall₂_nearTaps {F G : Type} {R : F → G → Prop} {l : List (Tap F)} {m : List (Tap G)}
    (hl : List.Forall₂ (TapRel R) l m) (w h x y : Nat) :
    List.Forall₂ (TapRel R) (nearTaps l w h x y) (nearTaps m w h x y) :=
  List.rel_filter (fun _ _ ht => by simp only [ht.dx, ht.dy]) hl

end Relations

namespace Simulates
variable {F G : Type} [nf : Numerics F] [ng : Numerics G] {R : F → G → Prop} (hR : Simulates R)
include hR

/-! ### The derived notions -/

section Derived
variable {a b c d : F} {x y u v : G}

theorem rel_ifLt (ha : R a x) (hb : R b y) (hc : R c u) (hd : R d v) :
    R (ifLt a b c d) (ifLt x y u v) :=
  rel_choose (hR.lt ha hb) hc hd (hR.joinLeft hc) (hR.joinRight hd)

theorem rel_ifLe (ha : R a x) (hb : R b y) (hc : R c u) (hd : R d v) :
    R (ifLe a b c d) (ifLe x y u v) :=
  rel_choose (hR.le ha hb) hc hd (hR.joinLeft hc) (hR.joinRight hd)

theorem rel_clamp (ha : R a x) (hb : R b y) (hc : R c u) : R (clamp a b c) (clamp x y u) :=
  hR.rel_ifLt ha hb hb (hR.rel_ifLt hc ha hc ha)

theorem rel_minOf (ha : R a x) (hb : R b y) : R (minOf a b) (minOf x y) := hR.rel_ifLt hb ha hb ha

theorem rel_maxOf (ha : R a x) (hb : R b y) : R (maxOf a b) (maxOf x y) := hR.rel_ifLt ha hb hb ha

theorem rel_frac (m n : Nat) : R (frac m n) (frac m n) := hR.div (hR.nat m) (hR.nat n)

theorem rel_ofInt (k : Int) : R (ofInt k) (ofInt k) := by
  unfold ofInt
  split
  · exact hR.nat _
  · exact hR.sub (hR.nat _) (hR.nat _)

theorem rel_addTerm (ha : R a x) (q : ℚ) (hb : R b y) : R (addTerm a q b) (addTerm x q y) := by
  unfold addTerm
  split
  · exact hR.sub ha (hR.mul (hR.dec _) hb)
  · exact hR.add ha (hR.mul (hR.dec _) hb)

theorem rel_sumLeft {l : List F} {m : List G} (hl : List.Forall₂ R l m) :
    R (sumLeft l) (sumLeft m) := by
  cases hl with
  | nil => exact hR.nat 0
  | cons hax hrest => exact List.rel_foldl (P := R) (R := R) (fun _ _ h1 _ _ h2 => hR.add h1 h2) hax hrest

end Derived

section Colour
variable {a : F} {x : G} {s : Triple F} {t : Triple G}

theorem rel_dotRow (row : Triple ℚ) (hs : TripleRel R s t) : R (dotRow row s) (dotRow row t) :=
  hR.rel_addTerm (hR.rel_addTerm (hR.mul (hR.dec _) hs.c0) _ hs.c1) _ hs.c2

theorem rel_matVec (m : Matrix3) (hs : TripleRel R s t) : TripleRel R (matVec m s) (matVec m t) :=
  ⟨hR.rel_dotRow _ hs, hR.rel_dotRow _ hs, hR.rel_dotRow _ hs⟩

/-! ### TOLAB -/

theorem rel_lin (ha : R a x) : R (lin a) (lin x) :=
  hR.rel_ifLt (hR.dec _) ha (hR.pow (hR.div (hR.add ha (hR.dec _)) (hR.dec _)) (hR.dec _))
    (hR.div ha (hR.dec _))

theorem rel_normByte (v : Byte) : R (normByte v) (normByte v) := hR.div (hR.nat _) (hR.nat _)

theorem rel_labSlope : R labSlope labSlope :=
  hR.mul (hR.nat _) (hR.mul (hR.rel_frac _ _) (hR.rel_frac _ _))

theorem rel_labThreshold : R labThreshold labThreshold :=
  hR.mul (hR.mul (hR.rel_frac _ _) (hR.rel_frac _ _)) (hR.rel_frac _ _)

theorem rel_labF (ha : R a x) : R (labF a) (labF x) :=
  hR.rel_ifLt hR.rel_labThreshold ha (hR.pow ha (hR.rel_frac _ _))
    (hR.add (hR.div ha hR.rel_labSlope) (hR.rel_frac _ _))

theorem rel_storeLab (hs : TripleRel R s t) : TripleRel R (storeLab s) (storeLab t) :=
  ⟨hR.div (hR.mul hs.c0 (hR.nat _)) (hR.nat _), hR.add hs.c1 (hR.nat _), hR.add hs.c2 (hR.nat _)⟩

theorem rel_xyzToLab (cfg : Cfg) (hs : TripleRel R s t) :
    TripleRel R (xyzToLab cfg s) (xyzToLab cfg t) := by
  have hx := hR.rel_labF (hR.div hs.c0 (hR.dec cfg.xn))
  have hy := hR.rel_labF (hR.div hs.c1 (hR.dec cfg.yn))
  have hz := hR.rel_labF (hR.div hs.c2 (hR.dec cfg.zn))
  exact ⟨hR.sub (hR.mul (hR.nat _) hy) (hR.nat _), hR.mul (hR.nat _) (hR.sub hx hy),
    hR.mul (hR.nat _) (hR.sub hy hz)⟩

theorem rel_tolabPx (cfg : Cfg) (p : Triple Byte) : TripleRel R (tolabPx cfg p) (tolabPx cfg p) :=
  hR.rel_storeLab (hR.rel_xyzToLab cfg (hR.rel_matVec cfg.mFwd
    ⟨hR.rel_lin (hR.rel_normByte _), hR.rel_lin (hR.rel_normByte _), hR.rel_lin (hR.rel_normByte _)⟩))

theorem rel_toLab {w h : Nat} (cfg : Cfg) (img : Plane (Triple Byte) w h) :
    PlaneRel (TripleRel R) (toLab cfg img) (toLab cfg img) :=
  forall₂_map_same (hR.rel_tolabPx cfg) _

/-! ### TOBGR -/

theorem rel_loadLab (hs : TripleRel R s t) : TripleRel R (loadLab s) (loadLab t) :=
  ⟨hR.div (hR.mul hs.c0 (hR.nat _)) (hR.nat _), hR.sub hs.c1 (hR.nat _), hR.sub hs.c2 (hR.nat _)⟩

theorem rel_labFinv (ha : R a x) : R (labFinv a) (labFinv x) :=
  hR.rel_ifLt (hR.rel_frac _ _) ha (hR.mul (hR.mul ha ha) ha)
    (hR.mul hR.rel_labSlope (hR.sub ha (hR.rel_frac _ _)))

theorem rel_labToXyz (cfg : Cfg) (hs : TripleRel R s t) :
    TripleRel R (labToXyz cfg s) (labToXyz cfg t) := by
  have hy := hR.div (hR.add hs.c0 (hR.nat 16)) (hR.nat 116)
  have hx := hR.add hy (hR.div hs.c1 (hR.nat 500))
  have hz := hR.sub hy (hR.div hs.c2 (hR.nat 200))
  exact ⟨hR.mul (hR.dec _) (hR.rel_labFinv hx), hR.mul (hR.dec _) (hR.rel_labFinv hy),
    hR.mul (hR.dec _) (hR.rel_labFinv hz)⟩

theorem rel_gam (ha : R a x) : R (gam a) (gam x) :=
  hR.rel_ifLt (hR.dec _) ha
    (hR.sub (hR.mul (hR.dec _) (hR.pow ha (hR.div (hR.nat _) (hR.dec _)))) (hR.dec _))
    (hR.mul (hR.dec _) ha)

theorem rel_tobgrLevels (cfg : Cfg) (hs : TripleRel R s t) :
    TripleRel R (tobgrLevels cfg s) (tobgrLevels cfg t) := by
  have hrgb := hR.rel_matVec cfg.mInv (hR.rel_labToXyz cfg (hR.rel_loadLab hs))
  exact ⟨hR.rel_gam hrgb.c2, hR.rel_gam hrgb.c1, hR.rel_gam hrgb.c0⟩

theorem rel_level (ha : R a x) : R (level a) (level x) :=
  hR.mul (hR.rel_clamp ha (hR.nat _) (hR.nat _)) (hR.nat _)

/-- An integer that the rounding decides is the reference's (R166). -/
theorem decides_roundNearest (cfg : Cfg) (ha : R a x) :
    Decides (roundNearest cfg a) (roundNearest cfg x) := by
  intro k hk
  obtain ⟨n, hfloor, hn⟩ := Option.bind_eq_some_iff.mp hk
  have hfloor' := hR.floor (hR.add ha (hR.rel_frac 1 2)) n hfloor
  unfold roundNearest
  rw [hfloor', Option.bind_some]
  dsimp only at hn ⊢
  split_ifs at hn ⊢ with hup
  · exact hn
  · obtain ⟨tie, htie, hk⟩ := Option.map_eq_some_iff.mp hn
    obtain ⟨tie', htie', hsame⟩ := hR.le ha (hR.add (hR.nat (n - 1)) (hR.rel_frac 1 2))
    rw [htie] at hsame
    obtain rfl : tie = tie' := by simpa using hsame
    rw [htie', Option.map_some, hk]

theorem decides_toU8 (cfg : Cfg) (ha : R a x) : Decides (toU8 cfg a) (toU8 cfg x) := by
  intro b hb
  obtain ⟨n, hn, rfl⟩ := Option.map_eq_some_iff.mp hb
  rw [toU8, hR.decides_roundNearest cfg (hR.rel_level ha) n hn, Option.map_some]

theorem rel_tobgrPx (cfg : Cfg) (hs : TripleRel R s t) :
    TripleRel Decides (tobgrPx cfg s) (tobgrPx cfg t) := by
  have hlevels := hR.rel_tobgrLevels cfg hs
  exact ⟨hR.decides_toU8 cfg hlevels.c0, hR.decides_toU8 cfg hlevels.c1,
    hR.decides_toU8 cfg hlevels.c2⟩

/-! ### CORRECT -/

theorem rel_correctPx (cfg : Cfg) {sa ha v m l : F} {sa' ha' v' m' l' : G} (hsa : R sa sa')
    (hha : R ha ha') (hv : R v v') (hm : R m m') (hl : R l l') :
    R (correctPx cfg sa ha v m l) (correctPx cfg sa' ha' v' m' l') := by
  have hone := hR.nat 1
  have hrest := hR.sub hone hv
  have hc := hR.sub (hR.add hv (hR.mul (hR.mul (hR.mul hsa hm) hrest) (hR.dec cfg.kDamp)))
    (hR.mul (hR.mul (hR.mul hha hl) hv) (hR.dec cfg.kDamp))
  exact hR.rel_clamp hc (hR.mul hv (hR.dec _)) (hR.sub hone (hR.mul hrest (hR.dec _)))

end Colour

/-! ### The blur -/

section Planes
variable {w h : Nat} {p : Plane F w h} {q : Plane G w h} {r : F} {r' : G}

theorem rel_choosePlane {a e : Option Bool} (hans : Answers a e) {yes no : Unit → Plane F w h}
    {yes' no' : Unit → Plane G w h} (hyes : PlaneRel R (yes ()) (yes' ()))
    (hno : PlaneRel R (no ()) (no' ())) :
    PlaneRel R (choosePlane a yes no) (choosePlane e yes' no') :=
  rel_choose hans hyes hno (planeRel_joinLeft hR.joinLeft hyes) (planeRel_joinRight hR.joinRight hno)

theorem decides_ksize (hr : R r r') : Decides (ksize r) (ksize r') := by
  intro k hk
  obtain ⟨n, hn, rfl⟩ := Option.map_eq_some_iff.mp hk
  have hsum := hR.add (hR.add (hR.mul (hR.nat 2) hr) (hR.nat 1)) (hR.rel_frac 1 2)
  rw [ksize, hR.floor hsum n hn, Option.map_some]

theorem rel_gauss (hr : R r r') (dx dy : Int) : R (gauss r dx dy) (gauss r' dx dy) := by
  have hx := hR.rel_ofInt dx
  have hy := hR.rel_ofInt dy
  exact hR.exp (hR.div (hR.sub (hR.nat 0) (hR.add (hR.mul hx hx) (hR.mul hy hy)))
    (hR.mul (hR.mul (hR.nat 2) hr) hr))

theorem rel_kernel (hr : R r r') (half : Nat) :
    List.Forall₂ (TapRel R) (kernel r half) (kernel r' half) := by
  have hraw : List.Forall₂ (TapRel R) ((cells half).map fun c => Tap.mk c.1 c.2 (gauss r c.1 c.2))
      ((cells half).map fun c => Tap.mk c.1 c.2 (gauss r' c.1 c.2)) :=
    forall₂_map_same (fun c => ⟨rfl, rfl, hR.rel_gauss hr c.1 c.2⟩) _
  have htotal := hR.rel_sumLeft (forall₂_weights hraw)
  exact List.rel_map (R := TapRel R) (fun _ _ ht => ⟨ht.dx, ht.dy, hR.div ht.weight htotal⟩) hraw

theorem rel_conv {l : List (Tap F)} {m : List (Tap G)} (hl : List.Forall₂ (TapRel R) l m)
    (hp : PlaneRel R p q) (x y : Nat) : R (conv l p x y) (conv m q x y) := by
  have hnear := forall₂_nearTaps hl w h x y
  have hterm : ∀ s t, TapRel R s t →
      R (s.weight * tapValue p x y s) (t.weight * tapValue q x y t) := by
    intro s t ht
    unfold tapValue
    rw [ht.dx, ht.dy]
    exact hR.mul ht.weight (planeRel_planeAt hp (hR.nat 0) _ _)
  exact hR.div (hR.rel_sumLeft (List.rel_map (R := TapRel R) hterm hnear))
    (hR.rel_sumLeft (forall₂_weights hnear))

theorem rel_convPlane (hr : R r r') (half : Nat) (hp : PlaneRel R p q) :
    PlaneRel R (convPlane r half p) (convPlane r' half q) :=
  planeRel_tabulate (hR.rel_conv (hR.rel_kernel hr half) hp)

theorem rel_gblur (cfg : Cfg) (hp : PlaneRel R p q) (hr : R r r') :
    PlaneRel R (gblur cfg p r) (gblur cfg q r') := by
  refine hR.rel_choosePlane (hR.lt hr (hR.dec _)) hp ?_
  cases hk : ksize r with
  | none => exact planeRel_const hR.undetermined p _
  | some n =>
    rw [hR.decides_ksize hr n hk]
    exact hR.rel_convPlane hr _ hp

theorem rel_fblur (cfg : Cfg) (hp : PlaneRel R p q) (hr : R r r') :
    PlaneRel R (fblur cfg p r) (fblur cfg q r') := by
  have hhalf := hR.div hr (hR.nat 2)
  have hthird := hR.div hr (hR.nat 3)
  refine hR.rel_choosePlane (hR.le hr (hR.dec _)) (hR.rel_gblur cfg hp hr) ?_
  refine hR.rel_choosePlane (hR.le hr (hR.dec _)) ?_ ?_
  · exact hR.rel_gblur cfg (hR.rel_gblur cfg hp hhalf) hhalf
  · exact hR.rel_gblur cfg (hR.rel_gblur cfg (hR.rel_gblur cfg hp hthird) hthird) hthird

/-! ### The masks -/

theorem rel_maskBlur (cfg : Cfg) (hp : PlaneRel R p q) (hr : R r r') :
    PlaneRel R (maskBlur cfg p r) (maskBlur cfg q r') := by
  unfold maskBlur
  split
  · exact hR.rel_fblur cfg hp hr
  · exact hR.rel_gblur cfg hp hr

theorem rel_mblur (cfg : Cfg) (hp : PlaneRel R p q) (hr : R r r') :
    PlaneRel R (mblur cfg p r) (mblur cfg q r') :=
  hR.rel_choosePlane (hR.lt (hR.dec _) hr)
    (hR.rel_maskBlur cfg hp (hR.rel_minOf hr (hR.dec _))) hp

theorem rel_planeMax (hp : PlaneRel R p q) : R (planeMax p) (planeMax q) := by
  obtain ⟨l, hl⟩ := p
  obtain ⟨m, hm⟩ := q
  cases (show List.Forall₂ R l m from hp) with
  | nil => exact hR.nat 0
  | cons hax hrest =>
    exact List.rel_foldl (P := R) (R := R) (fun _ _ h1 _ _ h2 => hR.rel_maxOf h1 h2) hax hrest

theorem rel_renorm (hp : PlaneRel R p q) : PlaneRel R (renorm p) (renorm q) := by
  have hmax := hR.rel_planeMax hp
  exact hR.rel_choosePlane (hR.lt (hR.nat 0) hmax) (planeRel_map hp fun hv => hR.div hv hmax) hp

theorem rel_shadowFalloff (cfg : Cfg) {v lo t : F} {v' lo' t' : G} (hv : R v v') (hlo : R lo lo')
    (ht : R t t') : R (shadowFalloff cfg v lo t) (shadowFalloff cfg v' lo' t') :=
  hR.sub (hR.nat 1) (hR.div (hR.mul (hR.sub (hR.nat 1) (hR.dec _)) (hR.sub hv hlo)) (hR.sub ht hlo))

theorem rel_smask0Px (cfg : Cfg) {tw v : F} {tw' v' : G} (htw : R tw tw') (hv : R v v') :
    R (smask0Px cfg tw v) (smask0Px cfg tw' v') := by
  have ht := hR.mul (hR.dec cfg.w1Shadow) htw
  have hlo := hR.mul ht (hR.dec cfg.w2Full)
  exact hR.rel_ifLe hv hlo (hR.nat 1)
    (hR.rel_ifLe hv ht (hR.rel_shadowFalloff cfg hv hlo ht) (hR.nat 0))

theorem rel_hmask0Px (cfg : Cfg) {tw v : F} {tw' v' : G} (htw : R tw tw') (hv : R v v') :
    R (hmask0Px cfg tw v) (hmask0Px cfg tw' v') := by
  have ht := hR.sub (hR.nat 1) (hR.mul (hR.dec cfg.w3Highlight) htw)
  have hlo := hR.mul (hR.dec cfg.hlRampLo) ht
  exact hR.rel_ifLe ht hv (hR.nat 1)
    (hR.rel_ifLe hlo hv (hR.div (hR.sub hv hlo) (hR.sub ht hlo)) (hR.nat 0))

theorem rel_shadowMask (cfg : Cfg) {tw : F} {tw' : G} (hp : PlaneRel R p q) (htw : R tw tw')
    (hr : R r r') : PlaneRel R (shadowMask cfg p tw r) (shadowMask cfg q tw' r') :=
  hR.rel_renorm (hR.rel_mblur cfg (planeRel_map hp (hR.rel_smask0Px cfg htw)) hr)

theorem rel_highlightMask (cfg : Cfg) {tw : F} {tw' : G} (hp : PlaneRel R p q) (htw : R tw tw')
    (hr : R r r') : PlaneRel R (highlightMask cfg p tw r) (highlightMask cfg q tw' r') :=
  hR.rel_renorm (hR.rel_mblur cfg (planeRel_map hp (hR.rel_hmask0Px cfg htw)) hr)

/-! ### The stage sequence -/

/-- The luminance after NORM to DENORM, with the parameters of a register file (R86). -/
theorem rel_correctedLuma (cfg : Cfg) (x : Params) (hp : PlaneRel R p q) :
    PlaneRel R (correctedLuma cfg (paramValues x) p) (correctedLuma cfg (paramValues x) q) := by
  have hlum : PlaneRel R (normLum p) (normLum q) := planeRel_map hp fun hv => hR.div hv (hR.nat 255)
  have hs := hR.rel_shadowMask cfg hlum (hR.pattern x.width) (hR.pattern x.radius)
  have hl := hR.rel_highlightMask cfg hlum (hR.pattern x.width) (hR.pattern x.radius)
  have hmasks := planeRel_zip (T := fun m n => R m.1 n.1 ∧ R m.2 n.2) hs hl
    (f := Prod.mk) (g := Prod.mk) And.intro
  refine planeRel_map (planeRel_zip (T := R) hlum hmasks fun hv hm => ?_) fun hv =>
    hR.mul hv (hR.nat 255)
  exact hR.rel_correctPx cfg (hR.pattern x.shadow) (hR.pattern x.highlight) hv hm.1 hm.2

/-- The two output images of one input: a decided byte is the reference's (R86). -/
theorem decides_applyImage (cfg : Cfg) (x : Params) (img : Plane (Triple Byte) w h)
    {out ref : Plane (Triple (Option Byte)) w h}
    (hout : applyImage cfg (paramValues (num := nf) x) img = .ok out)
    (href : applyImage cfg (paramValues (num := ng) x) img = .ok ref) :
    PlaneRel (TripleRel Decides) out ref := by
  obtain rfl := Except.ok.inj ((applyImage_eq cfg _ img).symm.trans hout)
  obtain rfl := Except.ok.inj ((applyImage_eq cfg _ img).symm.trans href)
  have hlab := hR.rel_toLab cfg img
  have hluma := hR.rel_correctedLuma cfg x (planeRel_map hlab TripleRel.c0)
  have hmerged := planeRel_zip (T := TripleRel R) (f := withLuma) (g := withLuma) hluma hlab
    fun hl ht => ⟨hl, ht.c1, ht.c2⟩
  exact planeRel_map hmerged (hR.rel_tobgrPx cfg)

end Planes

end Simulates

/-! ### The reference's bytes -/

/-- Every byte of the EXACT pipeline is defined (R166). -/
theorem isSome_of_mem_exactOutput {w h : Nat} {cfg : Cfg} {x : Params} {img : Plane (Triple Byte) w h}
    {ref : Plane (Triple (Option Byte)) w h} (href : exactOutput cfg x img = .ok ref) {o : Option Byte}
    (ho : o ∈ imageBytes ref) : o.isSome = true := by
  obtain rfl := Except.ok.inj ((applyImage_eq (num := exactNumerics) cfg _ img).symm.trans href)
  obtain ⟨t, ht, hot⟩ := List.mem_flatMap.mp ho
  obtain ⟨s, -, rfl⟩ := List.mem_map.mp ht
  simp only [List.mem_cons, List.not_mem_nil, or_false, tobgrPx, exact_toU8] at hot
  rcases hot with rfl | rfl | rfl <;> rfl

/-- Settles O26: the enclosures simulate EXACT, so the stages on enclosures simulate the stages in
EXACT. -/
theorem applyWritesExactBytes : Obligations.ApplyWritesExactBytes := by
  intro w h s hw0 hh0
  obtain ⟨out, hout, hexec⟩ := exec_apply_pixels s hw0 hh0
  obtain ⟨ref, href⟩ := applyImage_ok (num := exactNumerics) Config.defaults
    (paramValues (num := exactNumerics) s.x) (loadImage s w.toNat h.toNat)
  have hbytes := planeRel_imageBytes (Simulates.decides_applyImage (nf := encNumerics)
    (ng := exactNumerics) encloses_simulates Config.defaults s.x (loadImage s w.toNat h.toNat)
    hout href)
  refine ⟨out, ref, _, hout, href, hexec, fun _ => isSome_of_mem_exactOutput href, fun a b hb => ?_⟩
  obtain ⟨o, ho, hdecides⟩ := forall₂_getElem? hbytes hb
  exact ⟨ho.trans (congrArg some (hdecides b rfl)), memLookup_applied_of_decided hb⟩

end Sys2Proof.Machine
end

section
/-!
TOBGR undoes TOLAB on 8-bit pixels in EXACT (R168), and with both amounts zero APPLY returns its input
(R90). The matrices of R102 and R163 are inverse only up to their seven decimals, and CORRECT moves the
L value of a white pixel, whose Y is 1.0000001; both changes stay far below half an 8-bit step.
-/

namespace Sys2Proof.Machine

/-! ### From a linear value to its byte -/

/-- Powers of numbers that differ by a bit less than half an 8-bit step differ visibly. -/
theorem rpow_gap {a b : ℝ} (hb : 9 / 100 ≤ b) (hb1 : b ≤ 1) (hab : b + 1 / 600 ≤ a) :
    b ^ (12 / 5 : ℝ) + 1 / 50000 ≤ a ^ (12 / 5 : ℝ) := by
  have hb0 : 0 < b := by linarith
  have ha0 : 0 < a := by linarith
  have hsplit : ∀ z : ℝ, 0 < z → z ^ (12 / 5 : ℝ) = z ^ 2 * z ^ (2 / 5 : ℝ) := fun z hz => by
    rw [← Real.rpow_two, ← Real.rpow_add hz]
    norm_num
  have hroot : b ≤ b ^ (2 / 5 : ℝ) := by
    simpa using Real.rpow_le_rpow_of_exponent_ge hb0 hb1 (by norm_num : (2 / 5 : ℝ) ≤ 1)
  have hmono : b ^ (2 / 5 : ℝ) ≤ a ^ (2 / 5 : ℝ) :=
    Real.rpow_le_rpow hb0.le (by linarith) (by norm_num)
  have hsquares : 1 / 600 * (2 * b) ≤ a ^ 2 - b ^ 2 := by nlinarith
  rw [hsplit a ha0, hsplit b hb0]
  calc b ^ 2 * b ^ (2 / 5 : ℝ) + 1 / 50000
      ≤ b ^ 2 * b ^ (2 / 5 : ℝ) + 1 / 600 * (2 * b) * b := by nlinarith
    _ ≤ b ^ 2 * b ^ (2 / 5 : ℝ) + (a ^ 2 - b ^ 2) * b ^ (2 / 5 : ℝ) :=
        add_le_add_right (mul_le_mul hsquares hroot hb0.le (by nlinarith)) _
    _ = a ^ 2 * b ^ (2 / 5 : ℝ) := by ring
    _ ≤ a ^ 2 * a ^ (2 / 5 : ℝ) := mul_le_mul_of_nonneg_left hmono (sq_nonneg a)

/-- From the byte 11 on the linear value lies above the threshold of the gamma curve (R101, R164). -/
theorem threshold_le_rpow {b : ℝ} (hb : 93 / 1000 ≤ b) : 32 / 10000 ≤ b ^ (12 / 5 : ℝ) := by
  have hb0 : 0 ≤ b := by linarith
  have hfifth : (b ^ (12 / 5 : ℝ)) ^ 5 = b ^ 12 := by
    rw [← Real.rpow_natCast, ← Real.rpow_mul hb0, ← Real.rpow_natCast]
    norm_num
  refine le_of_pow_le_pow_left₀ (n := 5) (by norm_num) (Real.rpow_nonneg hb0 _) ?_
  rw [hfifth]
  calc (32 / 10000 : ℝ) ^ 5 ≤ (93 / 1000) ^ 12 := by norm_num
    _ ≤ b ^ 12 := pow_le_pow_left₀ (by norm_num) hb 12

theorem rpow_rpow_gamma {b : ℝ} (hb : 0 ≤ b) : (b ^ (12 / 5 : ℝ)) ^ (5 / 12 : ℝ) = b := by
  rw [← Real.rpow_mul hb]
  norm_num

/-- The gamma curve of a number near the linear value of a byte is within half a step of the byte
(R101, R164). -/
theorem gam_near {k : Nat} (hk : k ≤ 255) {t : ℝ}
    (ht : |t - lin (num := exactNumerics) ((k : ℝ) / 255)| ≤ 1 / 100000) :
    (k : ℝ) - 1 / 2 < gam (num := exactNumerics) t * 255 ∧
      gam (num := exactNumerics) t * 255 < k + 1 / 2 := by
  obtain ⟨hlo, hhi⟩ := abs_le.mp ht
  have hkr : (k : ℝ) ≤ 255 := by exact_mod_cast hk
  rw [exact_lin] at hlo hhi
  rw [exact_gam]
  rcases Nat.lt_or_ge k 11 with hsmall | hlarge
  · have hk10 : (k : ℝ) ≤ 10 := by exact_mod_cast Nat.le_of_lt_succ hsmall
    rw [if_neg (by linarith)] at hlo hhi
    rw [if_neg (by linarith)]
    constructor <;> linarith
  · have hk11 : (11 : ℝ) ≤ k := by exact_mod_cast hlarge
    rw [if_pos (by linarith)] at hlo hhi
    obtain ⟨b, hb⟩ : ∃ b : ℝ, b = ((k : ℝ) / 255 + 55 / 1000) / (1055 / 1000) := ⟨_, rfl⟩
    rw [← hb] at hlo hhi
    have hb0 : 93 / 1000 ≤ b := by rw [hb]; linarith
    have hb1 : b ≤ 1 := by rw [hb]; linarith
    have hthreshold := threshold_le_rpow hb0
    have ht0 : 0 < t := by linarith
    rw [if_pos (by linarith)]
    have hbelow : b - 1 / 600 < t ^ (5 / 12 : ℝ) := by
      have hgap := rpow_gap (a := b) (b := b - 1 / 600) (by linarith) (by linarith) (by linarith)
      rw [← rpow_rpow_gamma (b := b - 1 / 600) (by linarith)]
      exact Real.rpow_lt_rpow (Real.rpow_nonneg (by linarith) _) (by linarith) (by norm_num)
    have habove : t ^ (5 / 12 : ℝ) < b + 1 / 600 := by
      have hgap := rpow_gap (a := b + 1 / 600) (b := b) (by linarith) hb1 le_rfl
      rw [← rpow_rpow_gamma (b := b + 1 / 600) (by linarith)]
      exact Real.rpow_lt_rpow ht0.le (by linarith) (by norm_num)
    constructor <;> linarith

/-- The clamp to [0,1] keeps a level within half a step of a byte there (R165). -/
theorem level_near {k : Nat} (hk : k ≤ 255) {t : ℝ} (hlo : (k : ℝ) - 1 / 2 < t * 255)
    (hhi : t * 255 < k + 1 / 2) :
    (k : ℝ) - 1 / 2 < max 0 (min t 1) * 255 ∧ max 0 (min t 1) * 255 < k + 1 / 2 := by
  have hkr : (k : ℝ) ≤ 255 := by exact_mod_cast hk
  have hk0 : (0 : ℝ) ≤ k := k.cast_nonneg
  rcases le_total t 0 with h0 | h0
  · rw [level_of_nonpos h0]
    constructor <;> linarith
  · rcases le_total t 1 with h1 | h1
    · rw [level_of_unit h0 h1]
      exact ⟨hlo, hhi⟩
    · rw [level_of_one_le h1]
      constructor <;> linarith

/-- A number near the linear value of a byte becomes that byte, by any rule for ties (R164 to R166). -/
theorem toU8_gam_of_near (cfg : Cfg) {v : Byte} {t : ℝ}
    (ht : |t - lin (num := exactNumerics) (normByte (num := exactNumerics) v)| ≤ 1 / 100000) :
    toU8 (num := exactNumerics) cfg (gam (num := exactNumerics) t) = some v := by
  have hv : v.toNat ≤ 255 := Nat.le_of_lt_succ v.isLt
  rw [exact_normByte] at ht
  obtain ⟨hlo, hhi⟩ := gam_near hv ht
  obtain ⟨hlo', hhi'⟩ := level_near hv hlo hhi
  rw [exact_toU8, nearestByRule_of_near _ hlo' hhi', BitVec.ofNat_toNat, BitVec.setWidth_eq]

/-! ### From XYZ to the pixel -/

/-- The linear (red, green, blue) values of a pixel (R101). -/
noncomputable def linearRgb (p : Triple Byte) : Triple ℝ :=
  ⟨lin (num := exactNumerics) (normByte (num := exactNumerics) p.c2),
    lin (num := exactNumerics) (normByte (num := exactNumerics) p.c1),
    lin (num := exactNumerics) (normByte (num := exactNumerics) p.c0)⟩

/-- Two triples of real numbers that differ by far less than a byte does. -/
def Near : Triple ℝ → Triple ℝ → Prop := TripleRel fun a b => |a - b| ≤ 1 / 100000

/-- A stored Lab triple whose linear values are near those of a pixel becomes that pixel (R160). -/
theorem tobgrPx_of_near {cfg : Cfg} {s : Triple ℝ} {p : Triple Byte}
    (hs : Near (matVec (num := exactNumerics) cfg.mInv
      (labToXyz (num := exactNumerics) cfg (loadLab (num := exactNumerics) s))) (linearRgb p)) :
    tobgrPx (num := exactNumerics) cfg s = ⟨some p.c0, some p.c1, some p.c2⟩ := by
  have hblue := toU8_gam_of_near cfg hs.c2
  have hgreen := toU8_gam_of_near cfg hs.c1
  have hred := toU8_gam_of_near cfg hs.c0
  simp only [tobgrPx, tobgrLevels, toRgb, hblue, hgreen, hred]

theorem cube_cbrt {t : ℝ} (ht : 0 ≤ t) : (t ^ (1 / 3 : ℝ)) ^ 3 = t := by
  rw [← Real.rpow_natCast, ← Real.rpow_mul ht]
  norm_num

/-- The two thresholds of R104 and R162 are the same. -/
theorem lt_cbrt_of_cube_lt {t : ℝ} (h : (6 / 29 : ℝ) ^ 3 < t) : 6 / 29 < t ^ (1 / 3 : ℝ) := by
  have ht : 0 ≤ t := le_trans (by norm_num) h.le
  refine lt_of_pow_lt_pow_left₀ 3 (Real.rpow_nonneg ht _) ?_
  rwa [cube_cbrt ht]

/-- The two nonlinearities of Lab are inverse (R104, R162). -/
theorem labFinv_labF (t : ℝ) :
    labFinv (num := exactNumerics) (labF (num := exactNumerics) t) = t := by
  rw [exact_labF, exact_labFinv]
  by_cases h : (6 / 29 : ℝ) ^ 3 < t
  · rw [if_pos h, if_pos (lt_cbrt_of_cube_lt h), cube_cbrt (le_trans (by norm_num) h.le)]
  · have hle : t / (3 * (6 / 29) ^ 2) + 4 / 29 ≤ 6 / 29 := by
      rw [not_lt] at h
      norm_num at h ⊢
      linarith
    rw [if_neg h, if_neg (not_lt.mpr hle)]
    ring

/-- A linear value of a byte lies below a line through (1, 1), and is not negative. -/
theorem lin_bounds {c : ℝ} (h0 : 0 ≤ c) (h1 : c ≤ 1) :
    0 ≤ lin (num := exactNumerics) c ∧
      lin (num := exactNumerics) c ≤ (c + 55 / 1000) / (1055 / 1000) := by
  rw [exact_lin]
  split
  · have hb0 : 0 < (c + 55 / 1000) / (1055 / 1000) := by positivity
    have hb1 : (c + 55 / 1000) / (1055 / 1000) ≤ 1 := by linarith
    refine ⟨Real.rpow_nonneg hb0.le _, ?_⟩
    simpa using Real.rpow_le_rpow_of_exponent_ge hb0 hb1 (by norm_num : (1 : ℝ) ≤ 12 / 5)
  · constructor <;> linarith

theorem lin_normByte_bounds (v : Byte) :
    0 ≤ lin (num := exactNumerics) (normByte (num := exactNumerics) v) ∧
      lin (num := exactNumerics) (normByte (num := exactNumerics) v)
        ≤ ((v.toNat : ℝ) / 255 + 55 / 1000) / (1055 / 1000) := by
  have hv : (v.toNat : ℝ) ≤ 255 := by exact_mod_cast Nat.le_of_lt_succ v.isLt
  rw [exact_normByte]
  exact lin_bounds (by positivity) (by linarith)

theorem lin_normByte_le_one (v : Byte) :
    lin (num := exactNumerics) (normByte (num := exactNumerics) v) ≤ 1 := by
  have hv : (v.toNat : ℝ) ≤ 255 := by exact_mod_cast Nat.le_of_lt_succ v.isLt
  linarith [(lin_normByte_bounds v).2]

/-- M_INV undoes M_FWD up to the seven decimals of both (R163). -/
theorem near_mInv_mFwd (p : Triple Byte) :
    Near (matVec (num := exactNumerics) Config.mInv
      (matVec (num := exactNumerics) Config.mFwd (linearRgb p))) (linearRgb p) := by
  obtain ⟨hred, -⟩ := lin_normByte_bounds p.c2
  obtain ⟨hgreen, -⟩ := lin_normByte_bounds p.c1
  obtain ⟨hblue, -⟩ := lin_normByte_bounds p.c0
  have hred1 := lin_normByte_le_one p.c2
  have hgreen1 := lin_normByte_le_one p.c1
  have hblue1 := lin_normByte_le_one p.c0
  rw [exact_matVec, exact_matVec]
  simp only [Near, linearRgb, Config.mInv, Config.mFwd]
  push_cast
  refine ⟨abs_le.mpr ⟨?_, ?_⟩, abs_le.mpr ⟨?_, ?_⟩, abs_le.mpr ⟨?_, ?_⟩⟩ <;> linarith

section
variable (cfg : Cfg) (xyz : Triple ℝ)

/-- TOBGR's XYZ of what TOLAB stores, when the stored L is that of the value `g` in place of f(Y/YN)
(R103 to R106, R161, R162). -/
theorem labToXyz_withLuma (g : ℝ) :
    labToXyz (num := exactNumerics) cfg (loadLab (num := exactNumerics)
        (withLuma (255 / 100 * (116 * g - 16))
          (storeLab (num := exactNumerics) (xyzToLab (num := exactNumerics) cfg xyz))))
      = let fx := labF (num := exactNumerics) (xyz.c0 / (cfg.xn : ℝ))
        let fy := labF (num := exactNumerics) (xyz.c1 / (cfg.yn : ℝ))
        let fz := labF (num := exactNumerics) (xyz.c2 / (cfg.zn : ℝ))
        ⟨(cfg.xn : ℝ) * labFinv (num := exactNumerics) (g + (fx - fy)),
          (cfg.yn : ℝ) * labFinv (num := exactNumerics) g,
          (cfg.zn : ℝ) * labFinv (num := exactNumerics) (g + (fz - fy))⟩ := by
  rw [exact_storeLab_xyzToLab, exact_labToXyz_loadLab]
  dsimp only [withLuma]
  congr 3 <;> ring

/-- With the L value TOLAB stored, TOBGR's XYZ is TOLAB's. -/
theorem labToXyz_storeLab (hx : cfg.xn ≠ 0) (hy : cfg.yn ≠ 0) (hz : cfg.zn ≠ 0) :
    labToXyz (num := exactNumerics) cfg (loadLab (num := exactNumerics)
      (storeLab (num := exactNumerics) (xyzToLab (num := exactNumerics) cfg xyz))) = xyz := by
  have hx' : (cfg.xn : ℝ) ≠ 0 := by exact_mod_cast hx
  have hy' : (cfg.yn : ℝ) ≠ 0 := by exact_mod_cast hy
  have hz' : (cfg.zn : ℝ) ≠ 0 := by exact_mod_cast hz
  have h := labToXyz_withLuma cfg xyz (labF (num := exactNumerics) (xyz.c1 / (cfg.yn : ℝ)))
  dsimp only at h
  rw [add_sub_cancel, add_sub_cancel, labFinv_labF, labFinv_labF, labFinv_labF,
    mul_div_cancel₀ _ hx', mul_div_cancel₀ _ hy', mul_div_cancel₀ _ hz'] at h
  rw [exact_storeLab_xyzToLab] at h ⊢
  exact h

end

/-- TOBGR undoes TOLAB on every pixel (R168). -/
theorem tobgrPx_tolabPx (p : Triple Byte) :
    tobgrPx (num := exactNumerics) Config.defaults
        (tolabPx (num := exactNumerics) Config.defaults p)
      = ⟨some p.c0, some p.c1, some p.c2⟩ := by
  refine tobgrPx_of_near ?_
  have hxyz := labToXyz_storeLab Config.defaults
    (matVec (num := exactNumerics) Config.mFwd (linearRgb p)) (by norm_num [Config.defaults])
    (by norm_num [Config.defaults]) (by norm_num [Config.defaults])
  exact hxyz.symm ▸ near_mInv_mFwd p

/-! ### A luminance above 1 -/

/-- f(Y/YN) of a pixel, the value its luminance is made of (R103, R104). -/
noncomputable def lumaF (p : Triple Byte) : ℝ :=
  labF (num := exactNumerics)
    ((matVec (num := exactNumerics) Config.mFwd (linearRgb p)).c1 / (Config.defaults.yn : ℝ))

/-- Below 1 the nonlinearity of Lab stays below 1, and it never falls below 4/29 (R104). -/
theorem labF_bounds {t : ℝ} (h0 : 0 ≤ t) :
    4 / 29 ≤ labF (num := exactNumerics) t ∧ (t ≤ 1 → labF (num := exactNumerics) t ≤ 1) := by
  rw [exact_labF]
  split
  · next h =>
    exact ⟨by linarith [lt_cbrt_of_cube_lt h], fun h1 => Real.rpow_le_one h0 h1 (by norm_num)⟩
  · next h =>
    rw [not_lt] at h
    norm_num at h ⊢
    constructor
    · linarith
    · intro _; linarith

/-- The XYZ value Y (R102). -/
theorem matVec_mFwd_c1 (t : Triple ℝ) :
    (matVec (num := exactNumerics) Config.mFwd t).c1
      = 2126729 / 10000000 * t.c0 + 7151522 / 10000000 * t.c1 + 721750 / 10000000 * t.c2 := by
  rw [exact_matVec]
  simp only [Config.mFwd]
  push_cast
  rfl

theorem defaults_yn : ((Config.defaults.yn : ℚ) : ℝ) = 1 := by norm_num [Config.defaults]

theorem lumaF_ge (p : Triple Byte) : 4 / 29 ≤ lumaF p := by
  obtain ⟨hred, -⟩ := lin_normByte_bounds p.c2
  obtain ⟨hgreen, -⟩ := lin_normByte_bounds p.c1
  obtain ⟨hblue, -⟩ := lin_normByte_bounds p.c0
  refine (labF_bounds ?_).1
  rw [matVec_mFwd_c1, defaults_yn, linearRgb]
  linarith

/-- Only a white pixel has a luminance above 1, because the middle row of M_FWD sums to 1.0000001. -/
theorem white_of_one_lt_lumaF {p : Triple Byte} (h : 1 < lumaF p) :
    p.c0.toNat = 255 ∧ p.c1.toNat = 255 ∧ p.c2.toNat = 255 := by
  obtain ⟨hred0, hred⟩ := lin_normByte_bounds p.c2
  obtain ⟨hgreen0, hgreen⟩ := lin_normByte_bounds p.c1
  obtain ⟨hblue0, hblue⟩ := lin_normByte_bounds p.c0
  have hY : 1 < 2126729 / 10000000 * (linearRgb p).c0 + 7151522 / 10000000 * (linearRgb p).c1
      + 721750 / 10000000 * (linearRgb p).c2 := by
    by_contra hle
    rw [← matVec_mFwd_c1, not_lt] at hle
    refine absurd ((labF_bounds ?_).2 ?_) (not_le.mpr h)
    · rw [matVec_mFwd_c1, defaults_yn, linearRgb]
      linarith
    · rwa [defaults_yn, div_one]
  rw [linearRgb] at hY
  have hmax : ∀ v : Byte, (v.toNat : ℝ) ≤ 255 := fun v => by
    exact_mod_cast Nat.le_of_lt_succ v.isLt
  have hfull : ∀ v : Byte, 254 < (v.toNat : ℝ) → v.toNat = 255 := fun v hv => by
    have : 254 < v.toNat := by exact_mod_cast hv
    omega
  have h0 := hmax p.c0
  have h1 := hmax p.c1
  have h2 := hmax p.c2
  exact ⟨hfull _ (by linarith), hfull _ (by linarith), hfull _ (by linarith)⟩

theorem lin_normByte_of_255 {v : Byte} (hv : v.toNat = 255) :
    lin (num := exactNumerics) (normByte (num := exactNumerics) v) = 1 := by
  have hbase : ((255 : ℝ) / 255 + 55 / 1000) / (1055 / 1000) = 1 := by norm_num
  rw [exact_normByte, hv, exact_lin, Nat.cast_ofNat, hbase, Real.one_rpow]
  norm_num

/-- White in XYZ: X and Z are those of the reference white, Y is 1.0000001 (R102). -/
theorem matVec_mFwd_white :
    matVec (num := exactNumerics) Config.mFwd ⟨1, 1, 1⟩
      = ⟨95047 / 100000, 10000001 / 10000000, 108883 / 100000⟩ := by
  rw [exact_matVec]
  simp only [Config.mFwd]
  norm_num

/-- Near 1 the nonlinearity of Lab is a cube root, and does not move away from 1. -/
theorem labF_above_one {t : ℝ} (ht : 1 ≤ t) :
    1 ≤ labF (num := exactNumerics) t ∧ labF (num := exactNumerics) t ≤ t := by
  rw [exact_labF, if_pos (lt_of_lt_of_le (by norm_num) ht)]
  refine ⟨Real.one_le_rpow ht (by norm_num), ?_⟩
  simpa using Real.rpow_le_rpow_of_exponent_le ht (by norm_num : (1 / 3 : ℝ) ≤ 1)

/-- Near 1 the inverse nonlinearity is a cube. -/
theorem labFinv_near_one {u : ℝ} (hu : |u| ≤ 1 / 10000000) :
    |labFinv (num := exactNumerics) (1 + u) - 1| ≤ 1 / 1000000 := by
  obtain ⟨hlo, hhi⟩ := abs_le.mp hu
  have hfactor : |3 + 3 * u + u ^ 2| ≤ 4 := abs_le.mpr ⟨by nlinarith, by nlinarith⟩
  rw [exact_labFinv, if_pos (by linarith)]
  calc |(1 + u) ^ 3 - 1| = |u| * |3 + 3 * u + u ^ 2| := by rw [← abs_mul]; congr 1; ring
    _ ≤ 1 / 10000000 * 4 := mul_le_mul hu hfactor (abs_nonneg _) (by norm_num)
    _ ≤ 1 / 1000000 := by norm_num

/-- A triple near the reference white is near (1, 1, 1) after the matrix (R163). -/
theorem near_mInv_white {a b c : ℝ} (ha : |a - 1| ≤ 1 / 1000000) (hb : |b - 1| ≤ 1 / 1000000)
    (hc : |c - 1| ≤ 1 / 1000000) :
    Near (matVec (num := exactNumerics) Config.mInv
      ⟨(Config.defaults.xn : ℝ) * a, (Config.defaults.yn : ℝ) * b, (Config.defaults.zn : ℝ) * c⟩)
      ⟨1, 1, 1⟩ := by
  obtain ⟨ha0, ha1⟩ := abs_le.mp ha
  obtain ⟨hb0, hb1⟩ := abs_le.mp hb
  obtain ⟨hc0, hc1⟩ := abs_le.mp hc
  rw [exact_matVec]
  simp only [Near, Config.mInv, Config.defaults]
  push_cast
  refine ⟨abs_le.mpr ⟨?_, ?_⟩, abs_le.mpr ⟨?_, ?_⟩, abs_le.mpr ⟨?_, ?_⟩⟩ <;> linarith

/-! ### CORRECT with both amounts zero -/

/-- The value CORRECT leaves of f(Y/YN) when both amounts are zero: above 1 its upper bound acts. -/
noncomputable def keptF (y : ℝ) : ℝ := min y (7 / 10 + 3 / 10 * y)

/-- CORRECT with both amounts zero is its clamp alone (R150). -/
theorem correctPx_zero (cfg : Cfg) (v s hl : ℝ) :
    correctPx (num := exactNumerics) cfg 0 0 v s hl
      = clamp (num := exactNumerics) v (v * (cfg.cMargin : ℝ)) (1 - (1 - v) * (cfg.cMargin : ℝ)) := by
  unfold correctPx
  simp only [exact_sub, exact_mul, exact_nat, exact_dec, Nat.cast_one, zero_mul, add_zero, sub_zero]

/-- What it makes of a stored L value, whatever the masks are (R151). -/
theorem correctPx_zero_luma {y : ℝ} (hy : 4 / 29 ≤ y) (s hl : ℝ) :
    correctPx (num := exactNumerics) Config.defaults 0 0 (255 / 100 * (116 * y - 16) / 255) s hl * 255
      = 255 / 100 * (116 * keptF y - 16) := by
  have hmargin : ((Config.defaults.cMargin : ℚ) : ℝ) = 3 / 10 := by norm_num [Config.defaults]
  rw [correctPx_zero, hmargin, exact_clamp _ _ _ (by linarith), keptF]
  rcases le_total y 1 with hle | hgt
  · rw [min_eq_left (by linarith : y ≤ 7 / 10 + 3 / 10 * y), min_eq_left (by linarith),
      max_eq_right (by linarith)]
    ring
  · rw [min_eq_right (by linarith : 7 / 10 + 3 / 10 * y ≤ y), min_eq_right (by linarith),
      max_eq_right (by linarith)]
    ring

/-- TOLAB in the terms of the linear values (R100). -/
theorem tolabPx_eq (p : Triple Byte) :
    tolabPx (num := exactNumerics) Config.defaults p
      = storeLab (num := exactNumerics) (xyzToLab (num := exactNumerics) Config.defaults
          (matVec (num := exactNumerics) Config.mFwd (linearRgb p))) := rfl

theorem tolabPx_c0 (p : Triple Byte) :
    (tolabPx (num := exactNumerics) Config.defaults p).c0 = 255 / 100 * (116 * lumaF p - 16) := by
  rw [tolabPx_eq, exact_storeLab_xyzToLab, lumaF]

/-- A white pixel stays white with the L value that CORRECT leaves. -/
theorem near_white {p : Triple Byte} (hp : 1 < lumaF p) :
    Near (matVec (num := exactNumerics) Config.mInv (labToXyz (num := exactNumerics) Config.defaults
      (loadLab (num := exactNumerics) (withLuma (255 / 100 * (116 * (7 / 10 + 3 / 10 * lumaF p) - 16))
        (tolabPx (num := exactNumerics) Config.defaults p))))) (linearRgb p) := by
  obtain ⟨h0, h1, h2⟩ := white_of_one_lt_lumaF hp
  have hwhite : linearRgb p = ⟨1, 1, 1⟩ := by
    rw [linearRgb, lin_normByte_of_255 h0, lin_normByte_of_255 h1, lin_normByte_of_255 h2]
  have hone : labF (num := exactNumerics) 1 = 1 :=
    le_antisymm (labF_above_one le_rfl).2 (labF_above_one le_rfl).1
  obtain ⟨e, he⟩ : ∃ e, lumaF p = 1 + e := ⟨lumaF p - 1, by ring⟩
  have hluma : labF (num := exactNumerics) (10000001 / 10000000 / (Config.defaults.yn : ℝ))
      = 1 + e := by
    rw [← he, lumaF, hwhite, matVec_mFwd_white]
  have he1 : e ≤ 1 / 10000000 := by
    have h := (labF_above_one (t := 10000001 / 10000000) (by norm_num)).2
    rw [defaults_yn, div_one] at hluma
    linarith
  have hX : (95047 / 100000 : ℝ) / (Config.defaults.xn : ℝ) = 1 := by norm_num [Config.defaults]
  have hZ : (108883 / 100000 : ℝ) / (Config.defaults.zn : ℝ) = 1 := by norm_num [Config.defaults]
  have hside : 7 / 10 + 3 / 10 * (1 + e) + (1 - (1 + e)) = 1 + (-(7 / 10) * e) := by ring
  have hmid : 7 / 10 + 3 / 10 * (1 + e) = 1 + 3 / 10 * e := by ring
  rw [tolabPx_eq, labToXyz_withLuma, hwhite, matVec_mFwd_white]
  dsimp only
  rw [he, hluma, hX, hZ, hone, hside, hmid]
  have hnear := labFinv_near_one (u := -(7 / 10) * e) (abs_le.mpr ⟨by linarith, by linarith⟩)
  exact near_mInv_white hnear
    (labFinv_near_one (abs_le.mpr ⟨by linarith, by linarith⟩)) hnear

/-- TOBGR with the L value that CORRECT leaves gives the pixel back. -/
theorem tobgrPx_keptF (p : Triple Byte) :
    tobgrPx (num := exactNumerics) Config.defaults
        (withLuma (255 / 100 * (116 * keptF (lumaF p) - 16))
          (tolabPx (num := exactNumerics) Config.defaults p))
      = ⟨some p.c0, some p.c1, some p.c2⟩ := by
  rcases le_or_gt (lumaF p) 1 with hle | hgt
  · have hkept : keptF (lumaF p) = lumaF p := min_eq_left (by linarith)
    rw [hkept, ← tolabPx_c0]
    exact tobgrPx_tolabPx p
  · have hkept : keptF (lumaF p) = 7 / 10 + 3 / 10 * lumaF p := min_eq_right (by linarith)
    rw [hkept]
    exact tobgrPx_of_near (near_white hgt)

/-! ### The output image -/

theorem plane_eq_of_px {α : Type} {w h : Nat} {p q : Plane α w h}
    (hpq : ∀ i < w * h, p.px[i]? = q.px[i]?) : p = q := by
  refine plane_ext (List.ext_getElem? fun i => ?_)
  rcases Nat.lt_or_ge i (w * h) with hi | hi
  · exact hpq i hi
  · rw [List.getElem?_eq_none (p.size.trans_le hi), List.getElem?_eq_none (q.size.trans_le hi)]

/-- The stored L value of a pixel after NORM to DENORM, when both amounts are zero. -/
theorem correctedLuma_zero_px {w h : Nat} {v : ParamValues ℝ} (hsa : v.sa = 0) (hha : v.ha = 0)
    {img : Plane (Triple Byte) w h} {i : Nat} {p : Triple Byte} (hp : img.px[i]? = some p) :
    (correctedLuma (num := exactNumerics) Config.defaults v (mapPlane Triple.c0
        (toLab (num := exactNumerics) Config.defaults img))).px[i]?
      = some (255 / 100 * (116 * keptF (lumaF p) - 16)) := by
  have hi : i < w * h := by
    obtain ⟨hlen, -⟩ := List.getElem?_eq_some_iff.mp hp
    rwa [img.size] at hlen
  obtain ⟨lp, hlp⟩ : ∃ lp, lp = mapPlane Triple.c0
    (toLab (num := exactNumerics) Config.defaults img) := ⟨_, rfl⟩
  obtain ⟨s, hs⟩ := exists_px_getElem? (shadowMask (num := exactNumerics) Config.defaults
    (normLum (num := exactNumerics) lp) v.tw v.br) hi
  obtain ⟨hl, hhl⟩ := exists_px_getElem? (highlightMask (num := exactNumerics) Config.defaults
    (normLum (num := exactNumerics) lp) v.tw v.br) hi
  have hl0 : lp.px[i]? = some (255 / 100 * (116 * lumaF p - 16)) := by
    rw [hlp, ← tolabPx_c0]
    exact mapPlane_px _ (mapPlane_px _ hp)
  have hnew := correctedLuma_px (num := exactNumerics) Config.defaults v rfl hl0 hs hhl
  rw [hsa, hha] at hnew
  rw [← hlp, hnew]
  exact congrArg some (correctPx_zero_luma (lumaF_ge p) s hl)

/-- Settles O31: at every pixel CORRECT leaves an L value that TOBGR turns back into the pixel. -/
theorem noCorrectionIsIdentity : Obligations.NoCorrectionIsIdentity := by
  intro w h x img hshadow hhighlight
  have hzero : exactNumerics.pattern 0x00000000 = 0 := by
    rw [exact_pattern ((val_zero_iff _).mpr (.inl rfl)), Rat.cast_zero]
  unfold exactOutput
  rw [applyImage_eq (num := exactNumerics)]
  refine congrArg Except.ok (plane_eq_of_px fun i hi => ?_)
  obtain ⟨p, hp⟩ := exists_px_getElem? img hi
  have hluma := correctedLuma_zero_px (v := paramValues (num := exactNumerics) x)
    ((congrArg exactNumerics.pattern hshadow).trans hzero)
    ((congrArg exactNumerics.pattern hhighlight).trans hzero) hp
  have hlab : (toLab (num := exactNumerics) Config.defaults img).px[i]?
      = some (tolabPx (num := exactNumerics) Config.defaults p) := mapPlane_px _ hp
  refine (mapPlane_px _ (zipPlane_px withLuma hluma hlab)).trans ?_
  rw [tobgrPx_keptF, mapPlane_px _ hp]

end Sys2Proof.Machine
end

section
/-!
The curves of the forward conversion in EXACT (R101, R104, R162): on each side of its threshold a curve
is one formula, and the values of the two formulas lie on the two sides of one bound.  So a value of a
curve tells which formula made it, which gives the inverse and the order.
-/

namespace Sys2Proof.Machine

/-! ### The Lab nonlinearity and its inverse (R104, R162) -/

theorem labF_of_gt {t : ℝ} (h : (6 / 29) ^ 3 < t) :
    labF (num := exactNumerics) t = t ^ (1 / 3 : ℝ) := by
  rw [exact_labF, if_pos h]

theorem labF_of_le {t : ℝ} (h : t ≤ (6 / 29) ^ 3) :
    labF (num := exactNumerics) t = t / (3 * (6 / 29) ^ 2) + 4 / 29 := by
  rw [exact_labF, if_neg (not_lt.mpr h)]

theorem labFinv_of_gt {t : ℝ} (h : 6 / 29 < t) : labFinv (num := exactNumerics) t = t ^ 3 := by
  rw [exact_labFinv, if_pos h]

theorem labFinv_of_le {t : ℝ} (h : t ≤ 6 / 29) :
    labFinv (num := exactNumerics) t = 3 * (6 / 29) ^ 2 * (t - 4 / 29) := by
  rw [exact_labFinv, if_neg (not_lt.mpr h)]

theorem lt_labF_of_gt {t : ℝ} (h : (6 / 29) ^ 3 < t) : 6 / 29 < labF (num := exactNumerics) t :=
  labF_of_gt h ▸ lt_cbrt_of_cube_lt h

/-- The line of R104 ends where its power begins: both have the value 6/29 at the threshold. -/
theorem labF_le_of_le {t : ℝ} (h : t ≤ (6 / 29) ^ 3) : labF (num := exactNumerics) t ≤ 6 / 29 := by
  rw [labF_of_le h]
  calc t / (3 * (6 / 29) ^ 2) + 4 / 29 ≤ (6 / 29) ^ 3 / (3 * (6 / 29) ^ 2) + 4 / 29 := by gcongr
    _ = 6 / 29 := by norm_num

/-- The other composition of the two nonlinearities (R104, R162); the first is `labFinv_labF`. -/
theorem labF_labFinv (t : ℝ) :
    labF (num := exactNumerics) (labFinv (num := exactNumerics) t) = t := by
  rcases lt_or_ge (6 / 29) t with hgt | hle
  · have ht : 0 ≤ t := by linarith
    have hcube : (6 / 29 : ℝ) ^ 3 < t ^ 3 := pow_lt_pow_left₀ hgt (by norm_num) (by norm_num)
    rw [labFinv_of_gt hgt, labF_of_gt hcube, one_div]
    exact Real.pow_rpow_inv_natCast ht three_ne_zero
  · have hlow : 3 * (6 / 29) ^ 2 * (t - 4 / 29) ≤ (6 / 29 : ℝ) ^ 3 := by linarith
    rw [labFinv_of_le hle, labF_of_le hlow]
    ring

/-- Settles O44: each composition is the identity. -/
theorem labNonlinearityInverse : Obligations.LabNonlinearityInverse :=
  fun t => ⟨labFinv_labF t, labF_labFinv t⟩

/-! ### The order of the curves (R101, R104) -/

theorem labF_strictMono : StrictMono (labF (num := exactNumerics)) := by
  intro t u htu
  rcases lt_or_ge ((6 / 29) ^ 3) t with ht | ht
  · have ht0 : 0 ≤ t := le_trans (by norm_num) ht.le
    rw [labF_of_gt ht, labF_of_gt (ht.trans htu)]
    exact Real.rpow_lt_rpow ht0 htu (by norm_num)
  · rcases lt_or_ge ((6 / 29) ^ 3) u with hu | hu
    · exact (labF_le_of_le ht).trans_lt (lt_labF_of_gt hu)
    · rw [labF_of_le ht, labF_of_le hu]
      gcongr

theorem lin_of_gt {c : ℝ} (h : 4045 / 100000 < c) :
    lin (num := exactNumerics) c = ((c + 55 / 1000) / (1055 / 1000)) ^ (12 / 5 : ℝ) := by
  rw [exact_lin, if_pos h]

theorem lin_of_le {c : ℝ} (h : c ≤ 4045 / 100000) :
    lin (num := exactNumerics) c = c / (1292 / 100) := by
  rw [exact_lin, if_neg (not_lt.mpr h)]

theorem lin_zero : lin (num := exactNumerics) 0 = 0 := by
  rw [lin_of_le (by norm_num), zero_div]

theorem lin_one : lin (num := exactNumerics) 1 = 1 := by
  have hbase : ((1 : ℝ) + 55 / 1000) / (1055 / 1000) = 1 := by norm_num
  rw [lin_of_gt (by norm_num), hbase, Real.one_rpow]

/-- The gamma curve increases along the levels of bytes: up to 10 they lie on its line, below 32/10000,
and from 11 on they lie on its power, from 32/10000 on (R101). -/
theorem lin_level_lt {j k : Nat} (hjk : j < k) :
    lin (num := exactNumerics) ((j : ℝ) / 255) < lin (num := exactNumerics) ((k : ℝ) / 255) := by
  have hlt : (j : ℝ) < k := Nat.cast_lt.mpr hjk
  rcases Nat.lt_or_ge j 11 with hj | hj
  · have hj10 : (j : ℝ) ≤ 10 := Nat.cast_le_ofNat.mpr (Nat.le_of_lt_succ hj)
    rw [lin_of_le (by linarith)]
    rcases Nat.lt_or_ge k 11 with hk | hk
    · have hk10 : (k : ℝ) ≤ 10 := Nat.cast_le_ofNat.mpr (Nat.le_of_lt_succ hk)
      rw [lin_of_le (by linarith)]
      linarith
    · have hk11 : (11 : ℝ) ≤ k := Nat.ofNat_le_cast.mpr hk
      rw [lin_of_gt (by linarith)]
      calc (j : ℝ) / 255 / (1292 / 100) < 32 / 10000 := by linarith
        _ ≤ ((k / 255 + 55 / 1000) / (1055 / 1000)) ^ (12 / 5 : ℝ) :=
          threshold_le_rpow (by linarith)
  · have hj11 : (11 : ℝ) ≤ j := Nat.ofNat_le_cast.mpr hj
    rw [lin_of_gt (by linarith), lin_of_gt (by linarith)]
    exact Real.rpow_lt_rpow (by positivity) (by linarith) (by norm_num)

/-- Settles O45: each curve is increasing on each side of its threshold and across it. -/
theorem forwardCurvesIncrease : Obligations.ForwardCurvesIncrease := by
  refine ⟨lin_zero, lin_one, fun b c hbc => ?_, fun _ _ htu => labF_strictMono htu⟩
  rw [exact_normByte, exact_normByte]
  exact lin_level_lt hbc

end Sys2Proof.Machine
end

section
/-!
SPLIT, MERGE, NORM and DENORM (R110 to R114): what SPLIT and MERGE answer, when each raises its
error, and that each pair of stages is inverse.  The channels of a merged image are the planes it was
made of; the other way round, a pixel of three channels is the list of its three values.
-/

namespace Sys2Proof.Machine

/-! ### What SPLIT and MERGE answer (R110, R111, R172) -/

/-- The image of triples that MERGE makes of three planes (R111). -/
def mergedPlane {α : Type} {w h : Nat} (l a b : Plane α w h) : Plane (Triple α) w h :=
  zipPlane (fun x bc => ⟨x, bc.1, bc.2⟩) l (zipPlane Prod.mk a b)

theorem merge_three {F : Type} {w h : Nat} (l a b : Plane F w h) :
    merge [l, a, b] = .ok (mergedPlane l a b) := rfl

theorem split_of_three_channels {F : Type} [Numerics F] {w h : Nat} {im : Image F w h}
    (hc : im.channels = 3) :
    split im = .ok [channelPlane im 0, channelPlane im 1, channelPlane im 2] := if_pos hc

theorem split_eq_error_iff {F : Type} [Numerics F] {w h : Nat} (im : Image F w h) :
    split im = .error .channelCount ↔ im.channels ≠ 3 := by
  rcases eq_or_ne im.channels 3 with hc | hc
  · rw [split_of_three_channels hc]
    exact iff_of_false nofun (not_not.mpr hc)
  · exact iff_of_true (if_neg hc) hc

theorem merge_eq_error_iff {F : Type} {w h : Nat} (ps : List (Plane F w h)) :
    merge ps = .error .planeCount ↔ ps.length ≠ 3 := by
  match ps with
  | [_, _, _] => exact iff_of_false nofun (not_not.mpr rfl)
  | [] | [_] | [_, _] => exact iff_of_true rfl (by simp)
  | _ :: _ :: _ :: _ :: _ => exact iff_of_true rfl (by simp)

/-- Settles O48, from the two equivalences; the codes are those of R170. -/
theorem stageErrors : Obligations.StageErrors :=
  ⟨fun _ _ _ _ => split_eq_error_iff, fun _ _ _ _ => merge_eq_error_iff, rfl, rfl⟩

/-! ### The channels of a merged image -/

section
variable {α : Type} {w h : Nat}

theorem image_ext {im im' : Image α w h} (hc : im.channels = im'.channels)
    (hp : im.plane = im'.plane) : im = im' := by
  cases im
  cases im'
  cases hc
  cases hp
  rfl

theorem mapPlane_eq_self {f : α → α} {p : Plane α w h} (hf : ∀ v ∈ p.px, f v = v) :
    mapPlane f p = p :=
  plane_ext ((List.map_congr_left hf).trans p.px.map_id')

/-- A function that undoes a zip on one side gives the plane of that side back. -/
theorem mapPlane_zipPlane_right {β γ : Type} {f : α → β → γ} {g : γ → β}
    (hg : ∀ a b, g (f a b) = b) (p : Plane α w h) (q : Plane β w h) : mapPlane g (zipPlane f p q) = q :=
  plane_ext ((map_zipPlane_of_right (k := id) hg p q).trans q.px.map_id)

theorem mapPlane_zipPlane_left {β γ : Type} {f : α → β → γ} {g : γ → α}
    (hg : ∀ a b, g (f a b) = a) (p : Plane α w h) (q : Plane β w h) : mapPlane g (zipPlane f p q) = p := by
  have hswap : zipPlane f p q = zipPlane (fun b a => f a b) q p := plane_ext List.zipWith_comm
  rw [hswap]
  exact mapPlane_zipPlane_right (fun b a => hg a b) q p

theorem mapPlane_c0_mergedPlane (l a b : Plane α w h) :
    mapPlane Triple.c0 (mergedPlane l a b) = l :=
  mapPlane_zipPlane_left (fun _ _ => rfl) l _

theorem mapPlane_c1_mergedPlane (l a b : Plane α w h) :
    mapPlane Triple.c1 (mergedPlane l a b) = a := by
  calc mapPlane Triple.c1 (mergedPlane l a b)
      = mapPlane Prod.fst (zipPlane Prod.mk a b) :=
        plane_ext (map_zipPlane_of_right (g := Triple.c1) (k := Prod.fst) (fun _ _ => rfl) l _)
    _ = a := mapPlane_zipPlane_left (fun _ _ => rfl) a b

theorem mapPlane_c2_mergedPlane (l a b : Plane α w h) :
    mapPlane Triple.c2 (mergedPlane l a b) = b := by
  calc mapPlane Triple.c2 (mergedPlane l a b)
      = mapPlane Prod.snd (zipPlane Prod.mk a b) :=
        plane_ext (map_zipPlane_of_right (g := Triple.c2) (k := Prod.snd) (fun _ _ => rfl) l _)
    _ = b := mapPlane_zipPlane_right (fun _ _ => rfl) a b

/-- Planes made from one plane, merged: the triples are made pixel by pixel. -/
theorem mergedPlane_mapPlane {β : Type} (f g k : β → α) (p : Plane β w h) :
    mergedPlane (mapPlane f p) (mapPlane g p) (mapPlane k p)
      = mapPlane (fun v => ⟨f v, g v, k v⟩) p := by
  refine plane_ext ?_
  simp only [mergedPlane, zipPlane, mapPlane, List.zipWith_map_left, List.zipWith_map_right,
    List.zipWith_self]

end

/-! ### The round trips (R114) -/

section
variable {F : Type} [num : Numerics F] {w h : Nat}

/-- SPLIT of an image of triples gives its three component planes (R110). -/
theorem split_imageOfTriples (p : Plane (Triple F) w h) :
    split (imageOfTriples p)
      = .ok [mapPlane Triple.c0 p, mapPlane Triple.c1 p, mapPlane Triple.c2 p] := by
  have hchannel : ∀ c, channelPlane (imageOfTriples p) c
      = mapPlane (fun t => [t.c0, t.c1, t.c2].getD c (num.nat 0)) p := fun _ =>
    plane_ext List.map_map
  rw [split_of_three_channels rfl, hchannel, hchannel, hchannel]
  rfl

theorem split_mergedPlane (l a b : Plane F w h) :
    split (imageOfTriples (mergedPlane l a b)) = .ok [l, a, b] := by
  rw [split_imageOfTriples, mapPlane_c0_mergedPlane, mapPlane_c1_mergedPlane,
    mapPlane_c2_mergedPlane]

/-- A pixel of three channels is the list of its values at the three channels. -/
theorem getD_three {α : Type} {v : List α} (hv : v.length = 3) (d : α) :
    [v.getD 0 d, v.getD 1 d, v.getD 2 d] = v := by
  obtain ⟨x, y, z, rfl⟩ := List.length_eq_three.mp hv
  rfl

theorem mergedPlane_channelPlane {im : Image F w h} (hc : im.channels = 3) :
    imageOfTriples (mergedPlane (channelPlane im 0) (channelPlane im 1) (channelPlane im 2))
      = im := by
  refine image_ext hc.symm ?_
  calc mapPlane (fun t => [t.c0, t.c1, t.c2])
        (mergedPlane (channelPlane im 0) (channelPlane im 1) (channelPlane im 2))
      = mapPlane (fun v => [v.getD 0 (num.nat 0), v.getD 1 (num.nat 0), v.getD 2 (num.nat 0)])
          im.plane := by
        simp only [channelPlane, mergedPlane_mapPlane]
        exact plane_ext List.map_map
    _ = im.plane := mapPlane_eq_self fun v hv => getD_three ((im.uniform v hv).trans hc) _

end

/-- In EXACT, 255 times a 255th part is the value again (R112, R113). -/
theorem denormLum_normLum {w h : Nat} (p : Plane ℝ w h) :
    denormLum (num := exactNumerics) (normLum (num := exactNumerics) p) = p := by
  have hcomp : denormLum (num := exactNumerics) (normLum (num := exactNumerics) p)
      = mapPlane (fun v : ℝ => v / 255 * 255) p := plane_ext List.map_map
  rw [hcomp]
  exact mapPlane_eq_self fun v _ => div_mul_cancel₀ v (by norm_num)

/-- Settles O47, from the round trip of each pair of stages. -/
theorem splitMergeRoundTrip : Obligations.SplitMergeRoundTrip :=
  ⟨fun _ _ _ _ _ hc =>
      ⟨_, _, split_of_three_channels hc, merge_three _ _ _, mergedPlane_channelPlane hc⟩,
    fun _ _ _ _ l a b => ⟨_, merge_three l a b, split_mergedPlane l a b⟩,
    fun _ _ => denormLum_normLum⟩

end Sys2Proof.Machine
end

section
/-!
The blur's size and pass plan in EXACT (R120, R121, R126, R140): the kernel size in closed form with a
bound on each side, and each branch of GBLUR and FBLUR as a plain condition on the radius.
-/

namespace Sys2Proof.Machine

/-! ### The kernel size (R121, R127) -/

/-- The kernel size of R121 in EXACT. -/
noncomputable def kernelSize (r : ℝ) : Nat := max 3 (⌊2 * r + 3 / 2⌋₊ ||| 1)

theorem exact_ksize (r : ℝ) : ksize (num := exactNumerics) r = some (kernelSize r) := by
  have hround : 2 * r + 1 + 2⁻¹ = 2 * r + 3 / 2 := by ring
  simp [ksize, kernelSize, hround]

/-- Setting the last bit keeps an odd number and takes an even one to its successor. -/
theorem or_one_eq (m : Nat) : m ||| 1 = 2 * (m / 2) + 1 := by
  have hhalf : (m ||| 1) / 2 = m / 2 := by simp [Nat.or_div_two]
  have hodd : (m ||| 1) % 2 = 1 := Nat.or_mod_two_eq_one.mpr (.inr rfl)
  omega

theorem kernelSize_eq (r : ℝ) : kernelSize r = max 3 (2 * (⌊2 * r + 3 / 2⌋₊ / 2) + 1) := by
  rw [kernelSize, or_one_eq]

theorem kernelSize_odd (r : ℝ) : kernelSize r % 2 = 1 := by
  rw [kernelSize_eq]
  omega

theorem three_le_kernelSize (r : ℝ) : 3 ≤ kernelSize r := le_max_left _ _

theorem kernelSize_le {r : ℝ} {k : Nat} (hk : 1 ≤ k) (hr : r < k + 1 / 4) :
    kernelSize r ≤ 2 * k + 1 := by
  have hfloor : ⌊2 * r + 3 / 2⌋₊ < 2 * k + 2 := by
    rw [Nat.floor_lt' (by omega)]
    push_cast
    linarith
  rw [kernelSize_eq]
  omega

theorem le_kernelSize {r : ℝ} {k : Nat} (hr : (k : ℝ) ≤ r + 3 / 4) : 2 * k + 1 ≤ kernelSize r := by
  have hfloor : 2 * k ≤ ⌊2 * r + 3 / 2⌋₊ := Nat.le_floor (by push_cast; linarith)
  rw [kernelSize_eq]
  omega

/-- At a tie the even neighbour is `m` or `m + 1`, and the last bit set makes one odd number of both. -/
theorem kernelSize_of_tie {r : ℝ} {m : Nat} (htie : 2 * r + 1 = m + 1 / 2) :
    kernelSize r = max 3 ((if m % 2 = 0 then m else m + 1) ||| 1) := by
  have hup : 2 * r + 3 / 2 = ((m + 1 : Nat) : ℝ) := by push_cast; linarith
  rw [kernelSize_eq, hup, Nat.floor_natCast, or_one_eq]
  split <;> omega

/-- Settles O38, from the bounds of the kernel size and its value at a tie. -/
theorem kernelSizes : Obligations.KernelSizes := by
  refine ⟨fun r _ hr => ?_, fun r m _ htie => ?_, fun r n hn => ?_⟩
  · have hmax : kernelSize r ≤ 2 * 50 + 1 := kernelSize_le (by omega) (by push_cast; linarith)
    exact ⟨_, exact_ksize r, kernelSize_odd r, three_le_kernelSize r, hmax⟩
  · rw [exact_ksize, kernelSize_of_tie htie]
  · obtain rfl : kernelSize r = n := Option.some.inj ((exact_ksize r).symm.trans hn)
    refine ⟨fun _ hr => ?_, fun hlo hhi => ⟨?_, ?_⟩, fun hlo hhi => ⟨?_, ?_⟩⟩
    · exact kernelSize_le (k := 8) (by omega) (by push_cast; linarith)
    · exact le_kernelSize (k := 4) (by push_cast; linarith)
    · exact kernelSize_le (k := 10) (by omega) (by push_cast; linarith)
    · exact le_kernelSize (k := 7) (by push_cast; linarith)
    · exact kernelSize_le (k := 17) (by omega) (by push_cast; linarith)

/-! ### The passes (R120, R126, R140) -/

/-- GBLUR in EXACT: the plane itself below `BLUR_IDENT`, else one pass with the kernel of R121. -/
theorem exact_gblur {w h : Nat} (cfg : Cfg) (p : Plane ℝ w h) (r : ℝ) :
    gblur (num := exactNumerics) cfg p r
      = if r < (cfg.blurIdent : ℝ) then p
        else convPlane (num := exactNumerics) r ((kernelSize r - 1) / 2) p := by
  unfold gblur choosePlane
  rw [exact_choose_lt, exact_ksize]
  rfl

/-- FBLUR in EXACT: one, two or three passes by the thresholds `FB_T1` and `FB_T2`. -/
theorem exact_fblur {w h : Nat} (cfg : Cfg) (p : Plane ℝ w h) (r : ℝ) :
    fblur (num := exactNumerics) cfg p r
      = if r ≤ (cfg.fbT1 : ℝ) then gblur (num := exactNumerics) cfg p r
        else if r ≤ (cfg.fbT2 : ℝ) then
          gblur (num := exactNumerics) cfg (gblur (num := exactNumerics) cfg p (r / 2)) (r / 2)
        else
          gblur (num := exactNumerics) cfg (gblur (num := exactNumerics) cfg
            (gblur (num := exactNumerics) cfg p (r / 3)) (r / 3)) (r / 3) := by
  unfold fblur choosePlane
  rw [exact_choose_le, exact_choose_le]
  rfl

/-- R15: a valid configuration has the identity radius 1/10 of R120. -/
theorem blurIdent_of_valid {cfg : Cfg} (hv : cfg.valid = true) : (cfg.blurIdent : ℝ) = 1 / 10 := by
  have hident : cfg.blurIdent = 1 / 10 := by
    simp only [Cfg.valid, Bool.and_eq_true, decide_eq_true_eq] at hv
    tauto
  rw [hident]
  norm_num

/-- Settles O37: the reference constants put into the branches of the three operations. -/
theorem blurPassPlan : Obligations.BlurPassPlan := by
  have hident := blurIdent_of_valid Config.defaults_valid
  have hone : (Config.defaults.fbT1 : ℝ) = 8 := by norm_num [Config.defaults]
  have htwo : (Config.defaults.fbT2 : ℝ) = 20 := by norm_num [Config.defaults]
  have heps : (Config.defaults.blurEps : ℝ) = 1 / 10 := by norm_num [Config.defaults]
  have hmax : (Config.defaults.blurRmax : ℝ) = 20 := by norm_num [Config.defaults]
  intro w h p r
  dsimp only
  refine ⟨fun hr => ?_, fun hr => ?_, fun hlo hhi => ?_, fun hr => ?_, fun hr => ?_, fun hr => ?_⟩
  · rw [exact_gblur, hident, if_pos hr]
  · rw [exact_fblur, hone, if_pos hr]
  · rw [exact_fblur, hone, htwo, if_neg (not_le.mpr hlo), if_pos hhi]
  · have hlo : 8 < r := by linarith
    rw [exact_fblur, hone, htwo, if_neg (not_le.mpr hlo), if_neg (not_le.mpr hr)]
  · rw [exact_mblur, heps, if_neg (not_lt.mpr hr)]
  · rw [exact_mblur, heps, hmax, if_pos hr]
    rfl

end Sys2Proof.Machine
end

section
/-!
One pass of the blur in EXACT (R122, R123): the lists the pass runs over, kernel cells in order, have as
sums the finite sums over the window of offsets, and the kernel's normalisation cancels.  So a pixel is
the weighted average of the neighbours in the window.
-/

namespace Sys2Proof.Machine

/-! ### The window of offsets (R122, R123) -/

/-- The offsets along one axis that stay inside it: `Nx(x)` and `Ny(y)` of R124. -/
noncomputable def axisWindow (half size at' : Nat) : Finset ℤ :=
  {d ∈ Finset.Icc (-(half : ℤ)) half | 0 ≤ (at' : ℤ) + d ∧ (at' : ℤ) + d < size}

/-- `N(x, y)` of R123: the kernel offsets whose pixel lies in the plane. -/
noncomputable def window (w h half x y : Nat) : Finset (ℤ × ℤ) :=
  axisWindow half w x ×ˢ axisWindow half h y

/-- All offsets of a kernel. -/
noncomputable def kernelSquare (half : Nat) : Finset (ℤ × ℤ) :=
  Finset.Icc (-(half : ℤ)) half ×ˢ Finset.Icc (-(half : ℤ)) half

theorem mem_axisWindow {half size at' : Nat} {d : ℤ} :
    d ∈ axisWindow half size at'
      ↔ (-(half : ℤ) ≤ d ∧ d ≤ half) ∧ 0 ≤ (at' : ℤ) + d ∧ (at' : ℤ) + d < size := by
  simp [axisWindow]

theorem mem_window {w h half x y : Nat} {d : ℤ × ℤ} :
    d ∈ window w h half x y ↔ d.1 ∈ axisWindow half w x ∧ d.2 ∈ axisWindow half h y :=
  Finset.mem_product

theorem window_eq_filter (w h half x y : Nat) :
    window w h half x y
      = {d ∈ kernelSquare half | 0 ≤ (x : ℤ) + d.1 ∧ (x : ℤ) + d.1 < w ∧
          0 ≤ (y : ℤ) + d.2 ∧ (y : ℤ) + d.2 < h} := by
  ext d
  simp only [mem_window, mem_axisWindow, kernelSquare, Finset.mem_filter, Finset.mem_product,
    Finset.mem_Icc]
  tauto

theorem inBounds_of_mem_window {w h half x y : Nat} {d : ℤ × ℤ} (hd : d ∈ window w h half x y) :
    0 ≤ (x : ℤ) + d.1 ∧ (x : ℤ) + d.1 < w ∧ 0 ≤ (y : ℤ) + d.2 ∧ (y : ℤ) + d.2 < h := by
  rw [window_eq_filter] at hd
  exact (Finset.mem_filter.mp hd).2

theorem zero_mem_axisWindow {half size at' : Nat} (hat : at' < size) :
    (0 : ℤ) ∈ axisWindow half size at' := by
  rw [mem_axisWindow]
  omega

/-- The pixel itself is in its window. -/
theorem zero_mem_window {w h half x y : Nat} (hx : x < w) (hy : y < h) :
    (0, 0) ∈ window w h half x y :=
  mem_window.mpr ⟨zero_mem_axisWindow hx, zero_mem_axisWindow hy⟩

/-! ### The model's lists of offsets and cells -/

theorem offsets_eq_map (half : Nat) :
    offsets half = (List.range (2 * half + 1)).map fun i : Nat => (i : ℤ) - half := by
  simp [offsets, ← List.map_eq_flatMap]

theorem mem_offsets {half : Nat} {d : ℤ} : d ∈ offsets half ↔ -(half : ℤ) ≤ d ∧ d ≤ half := by
  simp only [offsets_eq_map, List.mem_map, List.mem_range]
  constructor
  · rintro ⟨i, hi, rfl⟩
    omega
  · rintro ⟨hlo, hhi⟩
    exact ⟨(d + half).toNat, by omega, by omega⟩

theorem nodup_offsets (half : Nat) : (offsets half).Nodup := by
  rw [offsets_eq_map]
  exact List.nodup_range.map fun i j hij => by simpa using hij

theorem cells_eq_map_swap (half : Nat) :
    cells half = ((offsets half).product (offsets half)).map Prod.swap := by
  simp [cells, List.product, List.map_flatMap, Function.comp_def]

theorem nodup_cells (half : Nat) : (cells half).Nodup := by
  rw [cells_eq_map_swap]
  exact ((nodup_offsets half).product (nodup_offsets half)).map Prod.swap_injective

theorem mem_cells {half : Nat} {d : ℤ × ℤ} : d ∈ cells half ↔ d ∈ kernelSquare half := by
  simp only [cells_eq_map_swap, List.mem_map, Prod.exists, List.pair_mem_product, mem_offsets,
    kernelSquare, Finset.mem_product, Finset.mem_Icc]
  constructor
  · rintro ⟨a, b, ⟨ha, hb⟩, rfl⟩
    exact ⟨hb, ha⟩
  · rintro ⟨hx, hy⟩
    exact ⟨d.2, d.1, ⟨hy, hx⟩, rfl⟩

/-- A sum along a list without repetitions is the sum over the set of its members. -/
theorem sum_map_eq_sum_finset {ι : Type} {l : List ι} {s : Finset ι} (hl : l.Nodup)
    (hs : ∀ d, d ∈ l ↔ d ∈ s) (f : ι → ℝ) : (l.map f).sum = ∑ d ∈ s, f d := by
  classical
  have hset : l.toFinset = s := Finset.ext fun d => List.mem_toFinset.trans (hs d)
  rw [← hset, List.sum_toFinset f hl]

theorem sum_cells (half : Nat) (f : ℤ × ℤ → ℝ) :
    ((cells half).map f).sum = ∑ d ∈ kernelSquare half, f d :=
  sum_map_eq_sum_finset (nodup_cells half) (fun _ => mem_cells) f

theorem sum_nearCells (w h half x y : Nat) (f : ℤ × ℤ → ℝ) :
    (((cells half).filter fun d => inBounds w h x y d.1 d.2).map f).sum
      = ∑ d ∈ window w h half x y, f d := by
  refine sum_map_eq_sum_finset ((nodup_cells half).filter _) (fun d => ?_) f
  simp [window_eq_filter, mem_cells, inBounds, and_assoc]

theorem sum_nearOffsets (half size at' : Nat) (f : ℤ → ℝ) :
    ((nearOffsets half size at').map f).sum = ∑ d ∈ axisWindow half size at', f d := by
  refine sum_map_eq_sum_finset ((nodup_offsets half).filter _) (fun d => ?_) f
  simp [mem_axisWindow, mem_offsets]

/-! ### The weights (R122, R124) -/

/-- The Gaussian weight of an offset, not yet normalised. -/
noncomputable def blurWeight (r : ℝ) (d : ℤ × ℤ) : ℝ :=
  Real.exp (-((d.1 : ℝ) ^ 2 + (d.2 : ℝ) ^ 2) / (2 * r ^ 2))

theorem exact_gauss (r : ℝ) (d : ℤ × ℤ) :
    gauss (num := exactNumerics) r d.1 d.2 = blurWeight r d := by
  simp only [gauss, blurWeight, exact_ofInt, exact_exp, exact_div, exact_sub, exact_mul, exact_add,
    exact_nat]
  congr 2 <;> push_cast <;> ring

theorem exact_gauss1 (r : ℝ) (d : ℤ) :
    gauss1 (num := exactNumerics) r d = Real.exp (-(d : ℝ) ^ 2 / (2 * r ^ 2)) := by
  simp only [gauss1, exact_ofInt, exact_exp, exact_div, exact_sub, exact_mul, exact_nat]
  congr 2 <;> push_cast <;> ring

/-- The square weight is the product of the weights along the axes (R124). -/
theorem blurWeight_eq_mul (r : ℝ) (d : ℤ × ℤ) :
    blurWeight r d
      = gauss1 (num := exactNumerics) r d.1 * gauss1 (num := exactNumerics) r d.2 := by
  rw [exact_gauss1, exact_gauss1, ← Real.exp_add, blurWeight]
  congr 1
  ring

theorem blurWeight_pos (r : ℝ) (d : ℤ × ℤ) : 0 < blurWeight r d := Real.exp_pos _

theorem sum_blurWeight_pos (r : ℝ) {s : Finset (ℤ × ℤ)} (hs : (0, 0) ∈ s) :
    0 < ∑ d ∈ s, blurWeight r d :=
  Finset.sum_pos (fun d _ => blurWeight_pos r d) ⟨_, hs⟩

theorem sum_kernelSquare_pos (r : ℝ) (half : Nat) : 0 < ∑ d ∈ kernelSquare half, blurWeight r d :=
  sum_blurWeight_pos r (by simp [kernelSquare])

/-! ### The kernel and one pass (R122, R123) -/

/-- The tap of R122 at an offset: its weight over the sum of all. -/
noncomputable def gaussTap (r : ℝ) (half : Nat) (d : ℤ × ℤ) : Tap ℝ :=
  ⟨d.1, d.2, blurWeight r d / ∑ e ∈ kernelSquare half, blurWeight r e⟩

/-- The kernel in EXACT: the taps of the cells in order. -/
theorem exact_kernel (r : ℝ) (half : Nat) :
    kernel (num := exactNumerics) r half = (cells half).map (gaussTap r half) := by
  have htotal : sumLeft (num := exactNumerics) (((cells half).map fun d =>
      Tap.mk d.1 d.2 (gauss (num := exactNumerics) r d.1 d.2)).map Tap.weight)
        = ∑ e ∈ kernelSquare half, blurWeight r e := by
    rw [exact_sumLeft, List.map_map, ← sum_cells]
    exact congrArg List.sum (List.map_congr_left fun d _ => exact_gauss r d)
  unfold kernel
  dsimp only
  rw [htotal, List.map_map]
  exact List.map_congr_left fun d _ => by simp [exact_gauss, gaussTap]

/-- The taps sum to 1 (R122). -/
theorem sum_kernel_weights (r : ℝ) (half : Nat) :
    ((kernel (num := exactNumerics) r half).map Tap.weight).sum = 1 := by
  rw [exact_kernel, List.map_map]
  calc ((cells half).map (Tap.weight ∘ gaussTap r half)).sum
      = ∑ d ∈ kernelSquare half, blurWeight r d / ∑ e ∈ kernelSquare half, blurWeight r e :=
        sum_cells half _
    _ = 1 := by rw [← Finset.sum_div, div_self (sum_kernelSquare_pos r half).ne']

theorem nearTaps_kernel (r : ℝ) (w h half x y : Nat) :
    nearTaps (kernel (num := exactNumerics) r half) w h x y
      = ((cells half).filter fun d => inBounds w h x y d.1 d.2).map (gaussTap r half) := by
  rw [exact_kernel, nearTaps, List.filter_map]
  rfl

/-- The pixel at an offset from `(x, y)`. -/
noncomputable def neighbour {w h : Nat} (p : Plane ℝ w h) (x y : Nat) (d : ℤ × ℤ) : ℝ :=
  planeAt p 0 ((x : ℤ) + d.1).toNat ((y : ℤ) + d.2).toNat

theorem exact_tapValue {w h : Nat} (p : Plane ℝ w h) (x y : Nat) (t : Tap ℝ) :
    tapValue (num := exactNumerics) p x y t = neighbour p x y (t.dx, t.dy) := by
  simp [tapValue, neighbour]

theorem sum_mul_div_eq_centerMass {ι : Type} (s : Finset ι) (g v : ι → ℝ) :
    (∑ i ∈ s, g i * v i) / ∑ i ∈ s, g i = s.centerMass g v :=
  div_eq_inv_mul _ _

/-- The border-renormalised average of R123: the kernel's normalisation cancels. -/
theorem exact_conv {w h : Nat} (r : ℝ) (half : Nat) (p : Plane ℝ w h) (x y : Nat) :
    conv (num := exactNumerics) (kernel (num := exactNumerics) r half) p x y
      = (window w h half x y).centerMass (blurWeight r) (neighbour p x y) := by
  have hscale : (∑ e ∈ kernelSquare half, blurWeight r e)⁻¹ ≠ 0 :=
    inv_ne_zero (sum_kernelSquare_pos r half).ne'
  rw [← (window w h half x y).centerMass_smul_left (neighbour p x y) hscale,
    ← sum_mul_div_eq_centerMass]
  unfold conv
  simp only [nearTaps_kernel, exact_sumLeft, exact_mul, exact_tapValue, gaussTap, List.map_map,
    Function.comp_def, sum_nearCells, Pi.smul_apply, smul_eq_mul, div_eq_inv_mul]

/-- A pixel of one pass is the weighted average of its window (R123). -/
theorem planeAt_convPlane {w h : Nat} (r : ℝ) (half : Nat) (p : Plane ℝ w h) {x y : Nat}
    (hx : x < w) (hy : y < h) :
    planeAt (convPlane (num := exactNumerics) r half p) 0 x y
      = (window w h half x y).centerMass (blurWeight r) (neighbour p x y) :=
  (planeAt_tabulate _ 0 hx hy).trans (exact_conv r half p x y)

/-- Settles O52, from the kernel and the pass in EXACT. -/
theorem blurWeights : Obligations.BlurWeights := by
  intro w h half p r _
  refine ⟨fun t ht => ?_, sum_kernel_weights r half, fun x y hx hy => ?_, fun cfg hv hr => ?_⟩
  · rw [exact_kernel] at ht
    obtain ⟨d, hd, rfl⟩ := List.mem_map.mp ht
    exact ⟨mem_cells.mp hd, rfl⟩
  · rw [planeAt_convPlane r half p hx hy, ← sum_mul_div_eq_centerMass, window_eq_filter]
    rfl
  · refine ⟨_, exact_ksize r, ?_⟩
    rw [exact_gblur, blurIdent_of_valid hv, if_neg (not_lt.mpr hr)]

/-! ### The separable form (R124) -/

/-- Averaging along two axes in turn is averaging over their product with the product weights. -/
theorem centerMass_product {ι κ : Type} (s : Finset ι) (t : Finset κ) (a : ι → ℝ) (b : κ → ℝ)
    (v : ι × κ → ℝ) :
    (s ×ˢ t).centerMass (fun d => a d.1 * b d.2) v
      = t.centerMass b fun j => s.centerMass a fun i => v (i, j) := by
  have hweights : ∑ d ∈ s ×ˢ t, a d.1 * b d.2 = (∑ i ∈ s, a i) * ∑ j ∈ t, b j := by
    rw [Finset.sum_mul_sum, Finset.sum_product]
  simp only [Finset.centerMass, smul_eq_mul, hweights, mul_inv, Finset.sum_product_right]
  generalize (∑ i ∈ s, a i)⁻¹ = c
  generalize (∑ j ∈ t, b j)⁻¹ = e
  simp only [Finset.mul_sum]
  exact Finset.sum_congr rfl fun j _ => Finset.sum_congr rfl fun i _ => by ring

theorem planeAt_rowPass {w h : Nat} (r : ℝ) (half : Nat) (p : Plane ℝ w h) {x y : Nat}
    (hx : x < w) (hy : y < h) :
    planeAt (rowPass (num := exactNumerics) r half p) 0 x y
      = (axisWindow half w x).centerMass (gauss1 (num := exactNumerics) r)
          fun d => planeAt p 0 ((x : ℤ) + d).toNat y := by
  unfold rowPass
  rw [← sum_mul_div_eq_centerMass, planeAt_tabulate _ 0 hx hy]
  simp only [exact_sumLeft, exact_div, exact_mul, sum_nearOffsets]
  simp

theorem planeAt_columnPass {w h : Nat} (r : ℝ) (half : Nat) (p : Plane ℝ w h) {x y : Nat}
    (hx : x < w) (hy : y < h) :
    planeAt (columnPass (num := exactNumerics) r half p) 0 x y
      = (axisWindow half h y).centerMass (gauss1 (num := exactNumerics) r)
          fun d => planeAt p 0 x ((y : ℤ) + d).toNat := by
  unfold columnPass
  rw [← sum_mul_div_eq_centerMass, planeAt_tabulate _ 0 hx hy]
  simp only [exact_sumLeft, exact_div, exact_mul, sum_nearOffsets]
  simp

/-- Settles O36: the window and the weight are products along the axes, so the average over the
window is the average down the column of the averages along the rows. -/
theorem separableEqualsSquare : Obligations.SeparableEqualsSquare := by
  intro w h half p r _
  refine plane_eq_of_planeAt 0 fun x y hx hy => ?_
  have hrow : ∀ d ∈ axisWindow half h y,
      planeAt (rowPass (num := exactNumerics) r half p) 0 x ((y : ℤ) + d).toNat
        = (axisWindow half w x).centerMass (gauss1 (num := exactNumerics) r)
            fun e => neighbour p x y (e, d) := fun d hd =>
    planeAt_rowPass r half p hx (by have := mem_axisWindow.mp hd; omega)
  unfold separablePlane
  rw [planeAt_columnPass r half _ hx hy, planeAt_convPlane r half p hx hy,
    Finset.centerMass_congr_fun fun d hd _ => hrow d hd, ← centerMass_product]
  exact congrArg (fun g => (window w h half x y).centerMass g (neighbour p x y))
    (funext fun d => (blurWeight_eq_mul r d).symm)

end Sys2Proof.Machine
end

section
/-!
What GBLUR keeps (R125): a weighted average with positive weights stays within every bound, and a
symmetry of the plane carries the window of a pixel to the window of its image, weights and values along.
-/

namespace Sys2Proof.Machine

variable {w h : Nat}

/-! ### Averages (R125 (a) to (d)) -/

theorem planeAt_mem {α : Type} (p : Plane α w h) (d : α) {x y : Nat} (hx : x < w) (hy : y < h) :
    planeAt p d x y ∈ p.px := by
  have hi : y * w + x < p.px.length := p.size ▸ index_lt hx hy
  rw [planeAt, List.getD_eq_getElem _ _ hi]
  exact List.getElem_mem hi

theorem neighbour_mem {p : Plane ℝ w h} {half x y : Nat} {d : ℤ × ℤ}
    (hd : d ∈ window w h half x y) : neighbour p x y d ∈ p.px := by
  obtain ⟨hx0, hxw, hy0, hyh⟩ := inBounds_of_mem_window hd
  exact planeAt_mem p 0 (by omega) (by omega)

/-- Every value of a tabulated plane is the value at one of its pixels. -/
theorem exists_of_mem_tabulate {α : Type} {f : Nat → Nat → α} {v : α}
    (hv : v ∈ (tabulate w h f).px) : ∃ x y, x < w ∧ y < h ∧ f x y = v := by
  obtain ⟨i, hi, rfl⟩ := List.mem_map.mp hv
  have hi' : i < w * h := List.mem_range.mp hi
  have hw : 0 < w := Nat.pos_of_mul_pos_right (Nat.zero_lt_of_lt hi')
  exact ⟨_, _, Nat.mod_lt _ hw, Nat.div_lt_of_lt_mul hi', rfl⟩

/-- R125 (a) for one pass: an average lies in every interval that holds the plane. -/
theorem convPlane_within (r : ℝ) (half : Nat) {p : Plane ℝ w h} {lo hi : ℝ}
    (hp : planeWithin p lo hi) :
    planeWithin (convPlane (num := exactNumerics) r half p) lo hi := by
  intro v hv
  obtain ⟨x, y, hx, hy, rfl⟩ := exists_of_mem_tabulate hv
  rw [exact_conv]
  exact (convex_Icc lo hi).centerMass_mem (fun d _ => (blurWeight_pos r d).le)
    (sum_blurWeight_pos r (zero_mem_window hx hy)) fun d hd => hp _ (neighbour_mem hd)

/-- R125 (d) for one pass: the pixel itself has a positive weight in its average. -/
theorem convPlane_pos (r : ℝ) (half : Nat) {p : Plane ℝ w h} (hp : ∀ v ∈ p.px, 0 ≤ v) {x y : Nat}
    (hx : x < w) (hy : y < h) (hpos : 0 < planeAt p 0 x y) :
    0 < planeAt (convPlane (num := exactNumerics) r half p) 0 x y := by
  have hself : 0 < blurWeight r (0, 0) * neighbour p x y (0, 0) :=
    mul_pos (blurWeight_pos r _) (by simpa [neighbour] using hpos)
  rw [planeAt_convPlane r half p hx hy, ← sum_mul_div_eq_centerMass]
  refine div_pos ?_ (sum_blurWeight_pos r (zero_mem_window hx hy))
  exact Finset.sum_pos' (fun d hd => mul_nonneg (blurWeight_pos r d).le (hp _ (neighbour_mem hd)))
    ⟨_, zero_mem_window hx hy, hself⟩

theorem gblur_within (cfg : Cfg) (r : ℝ) {p : Plane ℝ w h} {lo hi : ℝ} (hp : planeWithin p lo hi) :
    planeWithin (gblur (num := exactNumerics) cfg p r) lo hi := by
  rw [exact_gblur]
  split
  · exact hp
  · exact convPlane_within r _ hp

theorem planeAt_constPlane {α : Type} (v d : α) {x y : Nat} (hx : x < w) (hy : y < h) :
    planeAt (constPlane w h v) d x y = v := planeAt_tabulate (fun _ _ => v) d hx hy

theorem constPlane_within_self (w h : Nat) (v : ℝ) : planeWithin (constPlane w h v) v v := by
  intro u hu
  obtain ⟨_, _, _, _, rfl⟩ := exists_of_mem_tabulate hu
  exact ⟨le_rfl, le_rfl⟩

theorem eq_constPlane_of_within {p : Plane ℝ w h} {v : ℝ} (hp : planeWithin p v v) :
    p = constPlane w h v := by
  refine plane_eq_of_planeAt 0 fun x y hx hy => ?_
  obtain ⟨hlo, hhi⟩ := hp _ (planeAt_mem p 0 hx hy)
  exact (le_antisymm hhi hlo).trans (planeAt_constPlane v 0 hx hy).symm

/-- R125 (b): a plane between `v` and `v` is the constant plane. -/
theorem gblur_constPlane (cfg : Cfg) (r v : ℝ) :
    gblur (num := exactNumerics) cfg (constPlane w h v) r = constPlane w h v :=
  eq_constPlane_of_within (gblur_within cfg r (constPlane_within_self w h v))

theorem eq_constPlane_of_one_pixel (p : Plane ℝ 1 1) : p = constPlane 1 1 (planeAt p 0 0 0) := by
  refine plane_eq_of_planeAt 0 fun x y hx hy => ?_
  obtain rfl := Nat.lt_one_iff.mp hx
  obtain rfl := Nat.lt_one_iff.mp hy
  exact (planeAt_constPlane _ 0 hx hy).symm

/-- Settles O34: each branch of GBLUR keeps the bounds and the positive pixels; a constant plane, which
a plane of one pixel is, lies between equal bounds. -/
theorem gblurAverages : Obligations.GblurAverages := by
  intro cfg w h p r _
  refine ⟨fun lo hi => gblur_within cfg r, ?_, ?_, fun hp x y hx hy hpos => ?_⟩
  · rintro v rfl
    exact gblur_constPlane cfg r v
  · rintro rfl rfl
    rw [eq_constPlane_of_one_pixel p]
    exact gblur_constPlane cfg r _
  · rw [exact_gblur]
    split
    · exact hpos
    · exact convPlane_pos r _ hp hx hy hpos

/-! ### Symmetries (R125 (e)) -/

/-- An average does not change when its places are renamed, weights and values along. -/
theorem centerMass_equiv {ι κ : Type} (σ : ι ≃ κ) {s : Finset ι} {t : Finset κ} {a v : ι → ℝ}
    {b u : κ → ℝ} (hmem : ∀ d, d ∈ s ↔ σ d ∈ t) (hweight : ∀ d, a d = b (σ d))
    (hval : ∀ d ∈ s, v d = u (σ d)) : s.centerMass a v = t.centerMass b u := by
  have hsum : ∑ d ∈ s, a d = ∑ e ∈ t, b e := Finset.sum_equiv σ hmem fun d _ => hweight d
  have hprod : ∑ d ∈ s, a d • v d = ∑ e ∈ t, b e • u e :=
    Finset.sum_equiv σ hmem fun d hd => by rw [hweight d, hval d hd]
  rw [Finset.centerMass, Finset.centerMass, hsum, hprod]

theorem convPlane_transposePlane (r : ℝ) (half : Nat) (p : Plane ℝ w h) :
    convPlane (num := exactNumerics) r half (transposePlane p 0)
      = transposePlane (convPlane (num := exactNumerics) r half p) 0 := by
  refine plane_eq_of_planeAt 0 fun x y hx hy => ?_
  unfold transposePlane
  rw [planeAt_tabulate _ 0 hx hy, planeAt_convPlane r half _ hx hy,
    planeAt_convPlane r half p hy hx]
  refine centerMass_equiv (Equiv.prodComm ℤ ℤ) (fun d => ?_) (fun d => ?_) fun d hd => ?_
  · rw [mem_window, mem_window]
    exact and_comm
  · simp [blurWeight, add_comm]
  · obtain ⟨hx0, hxw, hy0, hyh⟩ := inBounds_of_mem_window hd
    exact planeAt_tabulate _ 0 (by omega) (by omega)

theorem convPlane_mirrorColumns (r : ℝ) (half : Nat) (p : Plane ℝ w h) :
    convPlane (num := exactNumerics) r half (mirrorColumns p 0)
      = mirrorColumns (convPlane (num := exactNumerics) r half p) 0 := by
  refine plane_eq_of_planeAt 0 fun x y hx hy => ?_
  unfold mirrorColumns
  rw [planeAt_tabulate _ 0 hx hy, planeAt_convPlane r half _ hx hy,
    planeAt_convPlane r half p (by omega) hy]
  refine centerMass_equiv ((Equiv.neg ℤ).prodCongr (Equiv.refl ℤ)) (fun d => ?_) (fun d => ?_)
    fun d hd => ?_
  · simp only [mem_window, mem_axisWindow, Equiv.prodCongr_apply, Prod.map, Equiv.neg_apply,
      Equiv.refl_apply]
    omega
  · simp [blurWeight]
  · obtain ⟨hx0, hxw, hy0, hyh⟩ := inBounds_of_mem_window hd
    have hmirror : w - 1 - ((x : ℤ) + d.1).toNat = (((w - 1 - x : Nat) : ℤ) + -d.1).toNat := by
      omega
    refine (planeAt_tabulate _ 0 (by omega) (by omega)).trans ?_
    rw [hmirror]
    rfl

/-- Mirroring the rows is mirroring the columns of the transposed plane. -/
theorem mirrorRows_eq_transpose (p : Plane ℝ w h) :
    mirrorRows p 0 = transposePlane (mirrorColumns (transposePlane p 0) 0) 0 := by
  refine plane_eq_of_planeAt 0 fun x y hx hy => ?_
  unfold mirrorRows transposePlane mirrorColumns
  rw [planeAt_tabulate _ 0 hx hy, planeAt_tabulate _ 0 hx hy, planeAt_tabulate _ 0 hy hx,
    planeAt_tabulate _ 0 (by omega) hx]

theorem convPlane_mirrorRows (r : ℝ) (half : Nat) (p : Plane ℝ w h) :
    convPlane (num := exactNumerics) r half (mirrorRows p 0)
      = mirrorRows (convPlane (num := exactNumerics) r half p) 0 := by
  rw [mirrorRows_eq_transpose, mirrorRows_eq_transpose, convPlane_transposePlane,
    convPlane_mirrorColumns, convPlane_transposePlane]

/-- GBLUR commutes with every map of planes that each pass commutes with. -/
theorem gblur_commutes {w' h' : Nat} {f : Plane ℝ w h → Plane ℝ w' h'} (cfg : Cfg) (r : ℝ)
    (hf : ∀ half p, convPlane (num := exactNumerics) r half (f p)
      = f (convPlane (num := exactNumerics) r half p)) (p : Plane ℝ w h) :
    gblur (num := exactNumerics) cfg (f p) r = f (gblur (num := exactNumerics) cfg p r) := by
  rw [exact_gblur, exact_gblur, apply_ite f, hf]

/-- Settles O35: each pass commutes with the three symmetries. -/
theorem gblurSymmetric : Obligations.GblurSymmetric := fun cfg _ _ p r =>
  ⟨gblur_commutes cfg r (f := (transposePlane · 0)) (convPlane_transposePlane r) p,
    gblur_commutes cfg r (f := (mirrorColumns · 0)) (convPlane_mirrorColumns r) p,
    gblur_commutes cfg r (f := (mirrorRows · 0)) (convPlane_mirrorRows r) p⟩

end Sys2Proof.Machine
end

section
/-!
The threshold functions of the masks in EXACT (R135 to R138): each is a clamped line, the shadow one cut
off above its threshold; bounds and order follow from that form.
-/

namespace Sys2Proof.Machine

/-! ### The shadow threshold (R135, R136) -/

/-- T of R135, above which the shadow mask is 0. -/
noncomputable def shadowTop (cfg : Cfg) (tw : ℝ) : ℝ := (cfg.w1Shadow : ℝ) * tw

/-- lo of R135, up to which the shadow mask is 1. -/
noncomputable def shadowFull (cfg : Cfg) (tw : ℝ) : ℝ := shadowTop cfg tw * (cfg.w2Full : ℝ)

/-- The line of R135 from 1 at lo to P at T. -/
noncomputable def shadowLine (cfg : Cfg) (tw v : ℝ) : ℝ :=
  1 - (1 - (cfg.shPartial : ℝ)) * (v - shadowFull cfg tw) / (shadowTop cfg tw - shadowFull cfg tw)

theorem shadowLine_start (cfg : Cfg) (tw : ℝ) : shadowLine cfg tw (shadowFull cfg tw) = 1 := by
  simp [shadowLine]

/-- SMASK0 in EXACT: the two non-strict comparisons of R135. -/
theorem exact_smask0Px (cfg : Cfg) (tw v : ℝ) :
    smask0Px (num := exactNumerics) cfg tw v
      = if v ≤ shadowFull cfg tw then 1
        else if v ≤ shadowTop cfg tw then shadowLine cfg tw v else 0 := by
  unfold smask0Px shadowFalloff
  rw [exact_ifLe, exact_ifLe]
  simp only [exact_nat, Nat.cast_one, Nat.cast_zero]
  rfl

/-- R14: the constants of the shadow mask in a valid configuration. -/
theorem shadowConstants_of_valid {cfg : Cfg} (hv : cfg.valid = true) :
    (0 ≤ (cfg.w1Shadow : ℝ) ∧ (cfg.w1Shadow : ℝ) ≤ 1) ∧
      (0 ≤ (cfg.w2Full : ℝ) ∧ (cfg.w2Full : ℝ) < 1) ∧
      (0 ≤ (cfg.shPartial : ℝ) ∧ (cfg.shPartial : ℝ) ≤ 1) := by
  simp only [Cfg.valid, Bool.and_eq_true, decide_eq_true_eq] at hv
  have hw1 : 0 ≤ cfg.w1Shadow ∧ cfg.w1Shadow ≤ 1 := ⟨le_of_lt (by tauto), by tauto⟩
  have hw2 : 0 ≤ cfg.w2Full ∧ cfg.w2Full < 1 := by tauto
  have hpartial : 0 ≤ cfg.shPartial ∧ cfg.shPartial ≤ 1 := by tauto
  exact_mod_cast And.intro hw1 (And.intro hw2 hpartial)

section
variable {cfg : Cfg} {tw : ℝ} (hv : cfg.valid = true) (h0 : 0 ≤ tw)
include hv h0

theorem shadowTop_nonneg : 0 ≤ shadowTop cfg tw := by
  obtain ⟨⟨hw1, -⟩, -, -⟩ := shadowConstants_of_valid hv
  exact mul_nonneg hw1 h0

theorem shadowFull_le_shadowTop : shadowFull cfg tw ≤ shadowTop cfg tw := by
  obtain ⟨-, ⟨-, hw2⟩, -⟩ := shadowConstants_of_valid hv
  exact mul_le_of_le_one_right (shadowTop_nonneg hv h0) hw2.le

theorem shadowTop_le_one (h1 : tw ≤ 1) : shadowTop cfg tw ≤ 1 := by
  obtain ⟨⟨-, hw1⟩, -, -⟩ := shadowConstants_of_valid hv
  exact mul_le_one₀ hw1 h0 h1

theorem shadowLine_antitone : Antitone (shadowLine cfg tw) := by
  intro u v huv
  obtain ⟨-, -, -, hpartial⟩ := shadowConstants_of_valid hv
  have hwidth := shadowFull_le_shadowTop hv h0
  unfold shadowLine
  gcongr

theorem one_le_shadowLine {v : ℝ} (hlo : v ≤ shadowFull cfg tw) : 1 ≤ shadowLine cfg tw v :=
  (shadowLine_start cfg tw).symm.trans_le (shadowLine_antitone hv h0 hlo)

theorem shadowLine_le_one {v : ℝ} (hlo : shadowFull cfg tw ≤ v) : shadowLine cfg tw v ≤ 1 :=
  (shadowLine_antitone hv h0 hlo).trans_eq (shadowLine_start cfg tw)

/-- The line has not fallen below P at T; at tonal width 0, where it has no width, it is 1. -/
theorem shadowLine_nonneg {v : ℝ} (hvt : v ≤ shadowTop cfg tw) : 0 ≤ shadowLine cfg tw v := by
  obtain ⟨-, -, hpartial, -⟩ := shadowConstants_of_valid hv
  have hwidth := sub_nonneg.mpr (shadowFull_le_shadowTop hv h0)
  have hfall : (1 - (cfg.shPartial : ℝ)) * (shadowTop cfg tw - shadowFull cfg tw)
      / (shadowTop cfg tw - shadowFull cfg tw) ≤ 1 :=
    div_le_one_of_le₀ (mul_le_of_le_one_left hwidth (by linarith)) hwidth
  refine le_trans ?_ (shadowLine_antitone hv h0 hvt)
  exact sub_nonneg.mpr hfall

/-- SMASK0 is its line, cut at 1, up to T, and 0 above. -/
theorem exact_smask0Px_cut (v : ℝ) :
    smask0Px (num := exactNumerics) cfg tw v
      = if v ≤ shadowTop cfg tw then min 1 (shadowLine cfg tw v) else 0 := by
  have hlt := shadowFull_le_shadowTop hv h0
  rw [exact_smask0Px]
  by_cases hlo : v ≤ shadowFull cfg tw
  · rw [if_pos hlo, if_pos (hlo.trans hlt), min_eq_left (one_le_shadowLine hv h0 hlo)]
  · rw [if_neg hlo, min_eq_right (shadowLine_le_one hv h0 (not_le.mp hlo).le)]

theorem smask0Px_mem_unit (v : ℝ) :
    0 ≤ smask0Px (num := exactNumerics) cfg tw v ∧ smask0Px (num := exactNumerics) cfg tw v ≤ 1 := by
  rw [exact_smask0Px_cut hv h0]
  split
  · next hvt => exact ⟨le_min zero_le_one (shadowLine_nonneg hv h0 hvt), min_le_left _ _⟩
  · exact ⟨le_rfl, zero_le_one⟩

theorem smask0Px_antitone : Antitone (smask0Px (num := exactNumerics) cfg tw) := by
  intro u v huv
  by_cases hvt : v ≤ shadowTop cfg tw
  · rw [exact_smask0Px_cut hv h0 u, exact_smask0Px_cut hv h0 v, if_pos hvt, if_pos (huv.trans hvt)]
    exact min_le_min_left 1 (shadowLine_antitone hv h0 huv)
  · rw [exact_smask0Px_cut hv h0 v, if_neg hvt]
    exact (smask0Px_mem_unit hv h0 u).1

end

/-- At tonal width 0 the line has no width: T and lo are 0. -/
theorem smask0Px_zero_width (cfg : Cfg) (v : ℝ) :
    smask0Px (num := exactNumerics) cfg 0 v = if v ≤ 0 then 1 else 0 := by
  have htop : shadowTop cfg 0 = 0 := mul_zero _
  have hfull : shadowFull cfg 0 = 0 := by rw [shadowFull, htop, zero_mul]
  rw [exact_smask0Px, htop, hfull]
  split_ifs <;> rfl

/-- Settles O39: the branches of R135, then the clamped line for the bounds and the order. -/
theorem shadowThreshold : Obligations.ShadowThreshold := by
  intro cfg tw hv h0 h1
  have above : ∀ v, shadowTop cfg tw < v → smask0Px (num := exactNumerics) cfg tw v = 0 := by
    intro v htv
    rw [exact_smask0Px_cut hv h0, if_neg (not_le.mpr htv)]
  refine ⟨fun v => ⟨fun hlo => ?_, fun hlo htop => ?_, above v⟩, smask0Px_mem_unit hv h0,
    fun u v huv => smask0Px_antitone hv h0 huv, fun hzero v => ?_,
    fun v hone => above v ((shadowTop_le_one hv h0 h1).trans_lt hone)⟩
  · exact (exact_smask0Px cfg tw v).trans (if_pos hlo)
  · exact (exact_smask0Px cfg tw v).trans ((if_neg (not_le.mpr hlo)).trans (if_pos htop))
  · rw [hzero, smask0Px_zero_width]

/-! ### The highlight threshold (R137, R138) -/

/-- T of R137, from which on the highlight mask is 1. -/
noncomputable def highlightTop (cfg : Cfg) (tw : ℝ) : ℝ := 1 - (cfg.w3Highlight : ℝ) * tw

/-- The ramp of R137 from 0 at nine tenths of `t` to 1 at `t`. -/
noncomputable def highlightRamp (t v : ℝ) : ℝ := (v - 9 / 10 * t) / (t / 10)

/-- R14, R15: the constants of the highlight mask in a valid configuration. -/
theorem highlightConstants_of_valid {cfg : Cfg} (hv : cfg.valid = true) :
    (0 ≤ (cfg.w3Highlight : ℝ) ∧ (cfg.w3Highlight : ℝ) < 1) ∧ (cfg.hlRampLo : ℝ) = 9 / 10 := by
  simp only [Cfg.valid, Bool.and_eq_true, decide_eq_true_eq] at hv
  have hw3 : 0 ≤ cfg.w3Highlight ∧ cfg.w3Highlight < 1 := by tauto
  have hramp : cfg.hlRampLo = 9 / 10 := by tauto
  refine ⟨by exact_mod_cast hw3, ?_⟩
  rw [hramp]
  norm_num

/-- R138 (a): so the width of the ramp, a tenth of the threshold, is positive. -/
theorem highlightTop_pos {cfg : Cfg} {tw : ℝ} (hv : cfg.valid = true) (h1 : tw ≤ 1) :
    0 < highlightTop cfg tw := by
  obtain ⟨⟨hw3, hw3'⟩, -⟩ := highlightConstants_of_valid hv
  exact sub_pos.mpr (mul_lt_one_of_nonneg_of_lt_one_left hw3 hw3' h1)

theorem highlightRamp_start (t : ℝ) : highlightRamp t (9 / 10 * t) = 0 := by simp [highlightRamp]

section
variable {t v : ℝ} (ht : 0 < t)
include ht

theorem highlightRamp_monotone : Monotone (highlightRamp t) := by
  intro u v huv
  unfold highlightRamp
  gcongr

theorem highlightRamp_nonneg (hlo : 9 / 10 * t ≤ v) : 0 ≤ highlightRamp t v :=
  (highlightRamp_start t).symm.trans_le (highlightRamp_monotone ht hlo)

theorem highlightRamp_nonpos (hlo : v ≤ 9 / 10 * t) : highlightRamp t v ≤ 0 :=
  (highlightRamp_monotone ht hlo).trans_eq (highlightRamp_start t)

theorem highlightRamp_end : highlightRamp t t = 1 := by
  unfold highlightRamp
  field_simp
  norm_num

theorem one_le_highlightRamp (htop : t ≤ v) : 1 ≤ highlightRamp t v :=
  (highlightRamp_end ht).symm.trans_le (highlightRamp_monotone ht htop)

theorem highlightRamp_le_one (htop : v ≤ t) : highlightRamp t v ≤ 1 :=
  (highlightRamp_monotone ht htop).trans_eq (highlightRamp_end ht)

/-- The three branches of R137 are the ramp cut to [0,1]. -/
theorem highlightRamp_cut (v : ℝ) :
    (if t ≤ v then 1 else if 9 / 10 * t ≤ v then highlightRamp t v else 0)
      = max 0 (min (highlightRamp t v) 1) := by
  split_ifs with htop hlo
  · rw [min_eq_right (one_le_highlightRamp ht htop), max_eq_right zero_le_one]
  · rw [min_eq_left (highlightRamp_le_one ht (not_le.mp htop).le),
      max_eq_right (highlightRamp_nonneg ht hlo)]
  · have hzero := highlightRamp_nonpos ht (not_le.mp hlo).le
    rw [max_eq_left ((min_le_left _ _).trans hzero)]

end

section
variable {cfg : Cfg} {tw : ℝ} (hv : cfg.valid = true) (h1 : tw ≤ 1)
include hv h1

/-- HMASK0 is its ramp, cut to [0,1]. -/
theorem exact_hmask0Px (v : ℝ) :
    hmask0Px (num := exactNumerics) cfg tw v
      = max 0 (min (highlightRamp (highlightTop cfg tw) v) 1) := by
  obtain ⟨-, hramp⟩ := highlightConstants_of_valid hv
  have hwidth : highlightTop cfg tw - 9 / 10 * highlightTop cfg tw = highlightTop cfg tw / 10 := by
    ring
  rw [← highlightRamp_cut (highlightTop_pos hv h1), highlightRamp, ← hwidth]
  unfold hmask0Px
  rw [exact_ifLe, exact_ifLe]
  simp only [exact_nat, exact_dec, exact_mul, exact_sub, exact_div, hramp, Nat.cast_one,
    Nat.cast_zero]
  rfl

theorem hmask0Px_mem_unit (v : ℝ) :
    0 ≤ hmask0Px (num := exactNumerics) cfg tw v ∧ hmask0Px (num := exactNumerics) cfg tw v ≤ 1 := by
  rw [exact_hmask0Px hv h1]
  exact ⟨le_max_left _ _, max_le zero_le_one (min_le_right _ _)⟩

theorem hmask0Px_monotone : Monotone (hmask0Px (num := exactNumerics) cfg tw) := by
  intro u v huv
  rw [exact_hmask0Px hv h1, exact_hmask0Px hv h1]
  exact max_le_max_left 0 (min_le_min_right 1 (highlightRamp_monotone (highlightTop_pos hv h1) huv))

end

/-- Settles O40: where the ramp is at least 1, at most 0, or between, cutting it gives the clauses. -/
theorem highlightThreshold : Obligations.HighlightThreshold := by
  intro cfg tw hv _ h1
  have ht := highlightTop_pos hv h1
  refine ⟨hmask0Px_mem_unit hv h1, fun u v huv => hmask0Px_monotone hv h1 huv, fun v => ?_⟩
  rw [exact_hmask0Px hv h1]
  refine ⟨fun htop => ?_, fun hlo => ?_, fun hlo htop => ?_⟩
  · rw [min_eq_right (one_le_highlightRamp ht htop), max_eq_right zero_le_one]
  · exact max_eq_left ((min_le_left _ _).trans (highlightRamp_nonpos ht hlo))
  · rw [min_eq_left (highlightRamp_le_one ht htop), max_eq_right (highlightRamp_nonneg ht hlo)]
    rfl

end Sys2Proof.Machine
end

section
/-!
The finish of both masks in EXACT (R140 to R143): the blur keeps a mask within its bounds, and RENORM
divides by the largest value, so a non-negative mask ends in [0,1] and is zero or reaches 1.
-/

namespace Sys2Proof.Machine

section
variable {w h : Nat} {m : Plane ℝ w h}

/-! ### RENORM (R141, R143) -/

theorem exact_planeMax (m : Plane ℝ w h) :
    planeMax (num := exactNumerics) m = m.px.max?.getD 0 := by
  have hmax : maxOf (num := exactNumerics) = max := funext₂ exact_maxOf
  unfold planeMax
  cases m.px with
  | nil => exact Nat.cast_zero
  | cons v vs =>
    rw [hmax, List.max?_cons']
    rfl

/-- The maximum of a mask with pixels occurs in it and bounds it. -/
theorem planeMax_isGreatest (m : Plane ℝ w h) (hw : 0 < w) (hh : 0 < h) :
    IsGreatest {v | v ∈ m.px} (planeMax (num := exactNumerics) m) := by
  have hne : m.px ≠ [] := List.ne_nil_of_length_pos (m.size ▸ Nat.mul_pos hw hh)
  obtain ⟨mx, hmx⟩ := Option.isSome_iff_exists.mp (List.isSome_max?_of_ne_nil hne)
  rw [exact_planeMax, hmx]
  exact List.max?_eq_some_iff.mp hmx

/-- R143 (b): a positive factor of the mask is a factor of its maximum. -/
theorem planeMax_mul {k : ℝ} (hk : 0 < k) (m : Plane ℝ w h) (hw : 0 < w) (hh : 0 < h) :
    planeMax (num := exactNumerics) (mapPlane (fun v => k * v) m)
      = k * planeMax (num := exactNumerics) m := by
  obtain ⟨hmem, hbound⟩ := planeMax_isGreatest m hw hh
  refine (planeMax_isGreatest _ hw hh).unique ⟨List.mem_map_of_mem hmem, fun u hu => ?_⟩
  obtain ⟨v, hv, rfl⟩ := List.mem_map.mp hu
  exact mul_le_mul_of_nonneg_left (hbound hv) hk.le

/-- RENORM in EXACT: division by the maximum where it is positive. -/
theorem exact_renorm (m : Plane ℝ w h) :
    renorm (num := exactNumerics) m
      = if 0 < planeMax (num := exactNumerics) m
        then mapPlane (fun v => v / planeMax (num := exactNumerics) m) m else m := by
  unfold renorm choosePlane
  rw [exact_nat, Nat.cast_zero, exact_choose_lt]

/-- A non-negative mask whose maximum is not positive is zero. -/
theorem eq_zero_of_planeMax_nonpos (hw : 0 < w) (hh : 0 < h) (hm : ∀ v ∈ m.px, 0 ≤ v)
    (hmax : ¬ 0 < planeMax (num := exactNumerics) m) : ∀ v ∈ m.px, v = 0 := by
  obtain ⟨-, hbound⟩ := planeMax_isGreatest m hw hh
  exact fun v hv => le_antisymm ((hbound hv).trans (not_lt.mp hmax)) (hm v hv)

theorem renorm_cases (hw : 0 < w) (hh : 0 < h) (hm : ∀ v ∈ m.px, 0 ≤ v) :
    (∀ v ∈ m.px, v = 0) ∧ renorm (num := exactNumerics) m = m ∨
      ∃ mx ∈ m.px, 0 < mx ∧ (∀ v ∈ m.px, v ≤ mx) ∧
        renorm (num := exactNumerics) m = mapPlane (fun v => v / mx) m := by
  rw [exact_renorm]
  by_cases hmax : 0 < planeMax (num := exactNumerics) m
  · obtain ⟨hmem, hbound⟩ := planeMax_isGreatest m hw hh
    exact .inr ⟨_, hmem, hmax, fun v hv => hbound hv, if_pos hmax⟩
  · exact .inl ⟨eq_zero_of_planeMax_nonpos hw hh hm hmax, if_neg hmax⟩

/-- R143 (b): RENORM does not see a positive factor. -/
theorem renorm_mul {k : ℝ} (hk : 0 < k) (hw : 0 < w) (hh : 0 < h) (hm : ∀ v ∈ m.px, 0 ≤ v) :
    renorm (num := exactNumerics) (mapPlane (fun v => k * v) m) = renorm (num := exactNumerics) m := by
  rw [exact_renorm, exact_renorm, planeMax_mul hk m hw hh]
  by_cases hmax : 0 < planeMax (num := exactNumerics) m
  · rw [if_pos hmax, if_pos (mul_pos hk hmax)]
    refine plane_ext (List.map_map.trans (List.map_congr_left fun v _ => ?_))
    exact mul_div_mul_left v _ hk.ne'
  · have hzero := eq_zero_of_planeMax_nonpos hw hh hm hmax
    rw [if_neg hmax, if_neg fun hpos => hmax (pos_of_mul_pos_right hpos hk.le)]
    exact mapPlane_eq_self fun v hv => by rw [hzero v hv, mul_zero]

/-- R142 for RENORM: the largest value becomes 1. -/
theorem renorm_within (hw : 0 < w) (hh : 0 < h) (hm : ∀ v ∈ m.px, 0 ≤ v) :
    planeWithin (renorm (num := exactNumerics) m) 0 1 ∧
      ((∀ v ∈ (renorm (num := exactNumerics) m).px, v = 0) ∨
        (1 : ℝ) ∈ (renorm (num := exactNumerics) m).px) := by
  rcases renorm_cases hw hh hm with ⟨hzero, hren⟩ | ⟨mx, hmx, hpos, hbound, hren⟩
  · rw [hren]
    exact ⟨fun v hv => by rw [hzero v hv]; exact ⟨le_rfl, zero_le_one⟩, .inl hzero⟩
  · rw [hren]
    refine ⟨fun u hu => ?_, .inr (List.mem_map.mpr ⟨mx, hmx, div_self hpos.ne'⟩)⟩
    obtain ⟨v, hv, rfl⟩ := List.mem_map.mp hu
    exact ⟨div_nonneg (hm v hv) hpos.le, div_le_one_of_le₀ (hbound v hv) hpos.le⟩

/-! ### MBLUR (R140) -/

theorem fblur_within (cfg : Cfg) (r : ℝ) {lo hi : ℝ} (hm : planeWithin m lo hi) :
    planeWithin (fblur (num := exactNumerics) cfg m r) lo hi := by
  rw [exact_fblur]
  split_ifs
  · exact gblur_within cfg _ hm
  · exact gblur_within cfg _ (gblur_within cfg _ hm)
  · exact gblur_within cfg _ (gblur_within cfg _ (gblur_within cfg _ hm))

theorem maskBlur_within (cfg : Cfg) (r : ℝ) {lo hi : ℝ} (hm : planeWithin m lo hi) :
    planeWithin (maskBlur (num := exactNumerics) cfg m r) lo hi := by
  unfold maskBlur
  split
  · exact fblur_within cfg r hm
  · exact gblur_within cfg r hm

theorem mblur_within (cfg : Cfg) (br : ℝ) {lo hi : ℝ} (hm : planeWithin m lo hi) :
    planeWithin (mblur (num := exactNumerics) cfg m br) lo hi := by
  rw [exact_mblur]
  split_ifs
  · exact maskBlur_within cfg _ hm
  · exact hm

/-- R142 for both masks: a threshold function with values in [0,1], blurred and renormalised. -/
theorem finishedMask_within (cfg : Cfg) (lum : Plane ℝ w h) {f : ℝ → ℝ}
    (hf : ∀ v, 0 ≤ f v ∧ f v ≤ 1) (br : ℝ) (hw : 0 < w) (hh : 0 < h) :
    let mask := renorm (num := exactNumerics) (mblur (num := exactNumerics) cfg (mapPlane f lum) br)
    planeWithin mask 0 1 ∧ ((∀ v ∈ mask.px, v = 0) ∨ (1 : ℝ) ∈ mask.px) := by
  have hthreshold : planeWithin (mapPlane f lum) 0 1 := by
    intro u hu
    obtain ⟨v, -, rfl⟩ := List.mem_map.mp hu
    exact hf v
  exact renorm_within hw hh fun v hv => (mblur_within cfg br hthreshold v hv).1

end

/-- Settles O41: RENORM divides by the maximum, of which a positive factor of the mask is a factor. -/
theorem renormByMaximum : Obligations.RenormByMaximum := fun _ _ _ hw hh hm =>
  ⟨renorm_cases hw hh hm, fun _ hk => renorm_mul hk hw hh hm⟩

/-- Settles O33: both threshold functions have values in [0,1], and both masks are finished alike. -/
theorem masksBounded : Obligations.MasksBounded := by
  intro cfg w h lum tw br hv hw hh h0 h1 _ _ m hm
  rcases List.mem_pair.mp hm with rfl | rfl
  · exact finishedMask_within cfg lum (smask0Px_mem_unit hv h0) br hw hh
  · exact finishedMask_within cfg lum (hmask0Px_mem_unit hv h1) br hw hh

end Sys2Proof.Machine
end

section
/-!
CORRECT in EXACT (R150 to R155): a luminance, raised by the shadow mask and lowered by the highlight mask,
then cut to its clamp interval; with K + C at most 1 the value lies inside that interval already.
-/

namespace Sys2Proof.Machine

/-- The value c of R150 before its clamp, for a raise `p` = sa·s and a drop `q` = ha·h. -/
noncomputable def unclampedLuma (k p q v : ℝ) : ℝ := v + p * (1 - v) * k - q * v * k

theorem unclampedLuma_zero (k v : ℝ) : unclampedLuma k 0 0 v = v := by simp [unclampedLuma]

/-- R155: a raise and a drop of at most 1 move the luminance by at most K of its distance to 1 and to 0. -/
theorem unclampedLuma_bounds {k p q v : ℝ} (hk : 0 ≤ k) (hp : p ∈ Set.Icc 0 1) (hq : q ∈ Set.Icc 0 1)
    (hv : v ∈ Set.Icc 0 1) :
    v * (1 - k) ≤ unclampedLuma k p q v ∧ unclampedLuma k p q v ≤ v + (1 - v) * k := by
  obtain ⟨hp0, hp1⟩ := hp
  obtain ⟨hq0, hq1⟩ := hq
  obtain ⟨hv0, hv1⟩ := hv
  have hup : 0 ≤ (1 - v) * k := mul_nonneg (by linarith) hk
  have hdown : 0 ≤ v * k := mul_nonneg hv0 hk
  have hraise0 : 0 ≤ p * ((1 - v) * k) := mul_nonneg hp0 hup
  have hraise1 : p * ((1 - v) * k) ≤ (1 - v) * k := mul_le_of_le_one_left hup hp1
  have hdrop0 : 0 ≤ q * (v * k) := mul_nonneg hq0 hdown
  have hdrop1 : q * (v * k) ≤ v * k := mul_le_of_le_one_left hdown hq1
  rw [unclampedLuma, mul_assoc p, mul_assoc q]
  constructor <;> linarith

section
variable {cfg : Cfg} (hvalid : cfg.valid = true)
include hvalid

/-- R14: the constants of the correction in a valid configuration. -/
theorem correctionConstants_of_valid :
    (0 ≤ (cfg.kDamp : ℝ) ∧ (cfg.kDamp : ℝ) ≤ 1) ∧
      (0 ≤ (cfg.cMargin : ℝ) ∧ (cfg.cMargin : ℝ) ≤ 1) := by
  simp only [Cfg.valid, Bool.and_eq_true, decide_eq_true_eq] at hvalid
  have hk : 0 ≤ cfg.kDamp ∧ cfg.kDamp ≤ 1 := ⟨le_of_lt (by tauto), by tauto⟩
  have hc : 0 ≤ cfg.cMargin ∧ cfg.cMargin ≤ 1 := by tauto
  exact_mod_cast And.intro hk hc

/-- R151: the ends of the clamp interval are in order, because C is at most 1. -/
theorem clampInterval_ordered (v : ℝ) : v * (cfg.cMargin : ℝ) ≤ 1 - (1 - v) * (cfg.cMargin : ℝ) := by
  obtain ⟨-, -, hc1⟩ := correctionConstants_of_valid hvalid
  linarith

/-- CORRECT in EXACT (R150). -/
theorem exact_correctPx (sa ha v s l : ℝ) :
    correctPx (num := exactNumerics) cfg sa ha v s l
      = max (v * (cfg.cMargin : ℝ))
          (min (unclampedLuma (cfg.kDamp : ℝ) (sa * s) (ha * l) v)
            (1 - (1 - v) * (cfg.cMargin : ℝ))) := by
  rw [← exact_clamp _ _ _ (clampInterval_ordered hvalid v)]
  unfold correctPx unclampedLuma
  simp only [exact_add, exact_sub, exact_mul, exact_nat, exact_dec, Nat.cast_one]

/-- R151: the result lies in the clamp interval. -/
theorem correctPx_mem_clampInterval (sa ha v s l : ℝ) :
    v * (cfg.cMargin : ℝ) ≤ correctPx (num := exactNumerics) cfg sa ha v s l ∧
      correctPx (num := exactNumerics) cfg sa ha v s l ≤ 1 - (1 - v) * (cfg.cMargin : ℝ) := by
  rw [exact_correctPx hvalid]
  exact ⟨le_max_left _ _, max_le (clampInterval_ordered hvalid v) (min_le_right _ _)⟩

/-- R152: with K + C at most 1 the clamp does not act. -/
theorem correctPx_eq_unclamped (hsum : cfg.kDamp + cfg.cMargin ≤ 1) {sa ha v s l : ℝ}
    (hraise : sa * s ∈ Set.Icc 0 1) (hdrop : ha * l ∈ Set.Icc 0 1) (hv : v ∈ Set.Icc 0 1) :
    correctPx (num := exactNumerics) cfg sa ha v s l
      = unclampedLuma (cfg.kDamp : ℝ) (sa * s) (ha * l) v := by
  obtain ⟨⟨hk, -⟩, -⟩ := correctionConstants_of_valid hvalid
  have hsum' : (cfg.kDamp : ℝ) + cfg.cMargin ≤ 1 := by exact_mod_cast hsum
  obtain ⟨hlo, hhi⟩ := unclampedLuma_bounds hk hraise hdrop hv
  obtain ⟨hv0, hv1⟩ := hv
  have hmargin : v * (cfg.cMargin : ℝ) ≤ v * (1 - cfg.kDamp) :=
    mul_le_mul_of_nonneg_left (by linarith) hv0
  have hmargin' : (1 - v) * (cfg.kDamp : ℝ) ≤ (1 - v) * (1 - cfg.cMargin) :=
    mul_le_mul_of_nonneg_left (by linarith) (by linarith)
  rw [exact_correctPx hvalid, min_eq_left (by linarith), max_eq_right (hmargin.trans hlo)]

/-- R153: nothing to raise and nothing to drop leaves the clamp alone. -/
theorem correctPx_of_no_change {sa ha s l : ℝ} (hzero : sa = 0 ∧ ha = 0 ∨ s = 0 ∧ l = 0) (v : ℝ) :
    correctPx (num := exactNumerics) cfg sa ha v s l
      = max (v * (cfg.cMargin : ℝ)) (min v (1 - (1 - v) * (cfg.cMargin : ℝ))) := by
  have hraise : sa * s = 0 := by rcases hzero with ⟨h, -⟩ | ⟨h, -⟩ <;> simp [h]
  have hdrop : ha * l = 0 := by rcases hzero with ⟨-, h⟩ | ⟨-, h⟩ <;> simp [h]
  rw [exact_correctPx hvalid, hraise, hdrop, unclampedLuma_zero]

end

/-- Settles O42: the clamp does not act, and the bounds are those of the value before it. -/
theorem correctionBounds : Obligations.CorrectionBounds := by
  intro cfg sa ha v s l hvalid hsum hunit k c
  simp only [List.forall_mem_cons, List.not_mem_nil, IsEmpty.forall_iff, implies_true,
    and_true] at hunit
  obtain ⟨hsa, hha, hv, hs, hl⟩ := hunit
  have hraise : sa * s ∈ Set.Icc 0 1 := ⟨mul_nonneg hsa.1 hs.1, mul_le_one₀ hsa.2 hs.1 hs.2⟩
  have hdrop : ha * l ∈ Set.Icc 0 1 := ⟨mul_nonneg hha.1 hl.1, mul_le_one₀ hha.2 hl.1 hl.2⟩
  obtain ⟨⟨hk0, hk1⟩, -⟩ := correctionConstants_of_valid hvalid
  have hc : c = unclampedLuma k (sa * s) (ha * l) v :=
    correctPx_eq_unclamped hvalid hsum hraise hdrop hv
  obtain ⟨hlo, hhi⟩ := unclampedLuma_bounds hk0 hraise hdrop hv
  rw [hc]
  refine ⟨rfl, hlo, hhi, (mul_nonneg hv.1 (sub_nonneg.mpr hk1)).trans hlo, hhi.trans ?_⟩
  linarith [mul_le_of_le_one_right (sub_nonneg.mpr hv.2) hk1]

/-- Settles O43: for v in [0,1] the clamp interval holds v; above 1 its upper end lies below v. -/
theorem correctionClamp : Obligations.CorrectionClamp := by
  intro cfg sa ha v s l hvalid k c
  refine ⟨exact_correctPx hvalid sa ha v s l, correctPx_mem_clampInterval hvalid sa ha v s l,
    fun hzero => ?_⟩
  obtain ⟨-, -, hc1⟩ := correctionConstants_of_valid hvalid
  rw [correctPx_of_no_change hvalid hzero]
  refine ⟨fun h0 h1 => ?_, fun h1 => ?_⟩
  · have hbelow : (1 - v) * (cfg.cMargin : ℝ) ≤ 1 - v :=
      mul_le_of_le_one_right (sub_nonneg.mpr h1) hc1
    rw [min_eq_left (by linarith), max_eq_right (mul_le_of_le_one_right h0 hc1)]
  · have habove : (v - 1) * (cfg.cMargin : ℝ) ≤ v - 1 :=
      mul_le_of_le_one_right (sub_nonneg.mpr h1.le) hc1
    rw [min_eq_right (by linarith), max_eq_right (clampInterval_ordered hvalid v)]
    ring

end Sys2Proof.Machine
end

section
/-!
The shadow lift of a dark grey image in EXACT (R154). The luminance of a uniform image is one value, so its
shadow mask is one value, which RENORM makes 1 whatever the radius; CORRECT then raises every pixel alike.
The rest is arithmetic: the lifted f(Y/YN) is enclosed between rationals, and so is every linear value.
-/

namespace Sys2Proof.Machine

/-! ### The shadow mask of a uniform image (R125, R141) -/

section
variable {w h : Nat}

theorem mapPlane_constPlane {α β : Type} (f : α → β) (v : α) :
    mapPlane f (constPlane w h v) = constPlane w h (f v) := plane_ext List.map_map

theorem zipPlane_constPlane {α β γ : Type} (f : α → β → γ) (u : α) (v : β) :
    zipPlane f (constPlane w h u) (constPlane w h v) = constPlane w h (f u v) := by
  refine plane_ext ?_
  simp [zipPlane, constPlane, tabulate]

theorem constPlane_px {α : Type} (v : α) {i : Nat} (hi : i < w * h) :
    (constPlane w h v).px[i]? = some v := by
  simp [constPlane, tabulate, hi]

theorem mblur_constPlane (cfg : Cfg) (br v : ℝ) :
    mblur (num := exactNumerics) cfg (constPlane w h v) br = constPlane w h v :=
  eq_constPlane_of_within (mblur_within cfg br (constPlane_within_self w h v))

theorem planeMax_constPlane (hw : 0 < w) (hh : 0 < h) (v : ℝ) :
    planeMax (num := exactNumerics) (constPlane w h v) = v := by
  obtain ⟨hlo, hhi⟩ := constPlane_within_self w h v _ (planeMax_isGreatest _ hw hh).1
  exact le_antisymm hhi hlo

theorem renorm_constPlane (hw : 0 < w) (hh : 0 < h) {v : ℝ} (hv : 0 < v) :
    renorm (num := exactNumerics) (constPlane w h v) = constPlane w h 1 := by
  rw [exact_renorm, planeMax_constPlane hw hh, if_pos hv, mapPlane_constPlane, div_self hv.ne']

/-- Below its threshold the shadow mask is positive (R135). -/
theorem smask0Px_pos {cfg : Cfg} {tw v : ℝ} (hvalid : cfg.valid = true)
    (hv : v < shadowTop cfg tw) : 0 < smask0Px (num := exactNumerics) cfg tw v := by
  obtain ⟨-, -, hpartial, -⟩ := shadowConstants_of_valid hvalid
  rw [exact_smask0Px]
  by_cases hlo : v ≤ shadowFull cfg tw
  · rw [if_pos hlo]
    exact one_pos
  · rw [not_le] at hlo
    rw [if_neg (not_le.mpr hlo), if_pos hv.le, shadowLine, sub_pos, div_lt_one (by linarith)]
    exact (mul_le_of_le_one_left (by linarith) (by linarith)).trans_lt (by linarith)

/-- The shadow mask of a uniform luminance below the threshold is 1, for every radius. -/
theorem shadowMask_constPlane {cfg : Cfg} {tw v : ℝ} (hvalid : cfg.valid = true)
    (hv : v < shadowTop cfg tw) (hw : 0 < w) (hh : 0 < h) (br : ℝ) :
    shadowMask (num := exactNumerics) cfg (constPlane w h v) tw br = constPlane w h 1 := by
  unfold shadowMask smask0
  rw [mapPlane_constPlane, mblur_constPlane, renorm_constPlane hw hh (smask0Px_pos hvalid hv)]

end

/-! ### The lift of a uniform image (R150) -/

/-- f(Y/YN) after a full shadow correction: K = 3/10 of its distance to 1, times the amount. -/
noncomputable def liftedF (sa y : ℝ) : ℝ := y + sa * (1 - y) * (3 / 10)

theorem liftedF_monotone {sa : ℝ} (hsa : sa ≤ 1) : Monotone (liftedF sa) := by
  intro y z hyz
  have hstep : sa * (z - y) ≤ z - y := mul_le_of_le_one_left (by linarith) hsa
  unfold liftedF
  linarith

/-- What CORRECT makes of a stored L value under a shadow mask of 1 and the highlight amount 0. -/
theorem correctPx_lift_luma {sa y : ℝ} (hsa : sa ∈ Set.Icc 0 1) (hy : 4 / 29 ≤ y) (hy1 : y ≤ 1)
    (hl : ℝ) :
    correctPx (num := exactNumerics) Config.defaults sa 0 (255 / 100 * (116 * y - 16) / 255) 1 hl * 255
      = 255 / 100 * (116 * liftedF sa y - 16) := by
  have hsum : Config.defaults.kDamp + Config.defaults.cMargin ≤ 1 := by norm_num [Config.defaults]
  have hdamp : ((Config.defaults.kDamp : ℚ) : ℝ) = 3 / 10 := by norm_num [Config.defaults]
  rw [correctPx_eq_unclamped Config.defaults_valid hsum (by rwa [mul_one]) (by simp)
    ⟨by linarith, by linarith⟩, hdamp, unclampedLuma, liftedF]
  ring

section
variable {w h : Nat} (hw : 0 < w) (hh : 0 < h) {sa tw : ℝ} (hsa : sa ∈ Set.Icc 0 1)
include hw hh hsa

/-- NORM to DENORM on a uniform luminance below the shadow threshold, the highlight amount 0: every pixel
is lifted alike, whatever the radius and the highlight mask. -/
theorem correctedLuma_constPlane {y : ℝ} (br : ℝ) (hy : 4 / 29 ≤ y) (hy1 : y ≤ 1)
    (htop : 255 / 100 * (116 * y - 16) / 255 < shadowTop Config.defaults tw) :
    correctedLuma (num := exactNumerics) Config.defaults ⟨sa, 0, tw, br⟩
        (constPlane w h (255 / 100 * (116 * y - 16)))
      = constPlane w h (255 / 100 * (116 * liftedF sa y - 16)) := by
  have hlum : normLum (num := exactNumerics) (constPlane w h (255 / 100 * (116 * y - 16)))
      = constPlane w h (255 / 100 * (116 * y - 16) / 255) := mapPlane_constPlane _ _
  refine plane_eq_of_px fun i hi => ?_
  obtain ⟨hl, hhl⟩ := exists_px_getElem? (highlightMask (num := exactNumerics) Config.defaults
    (constPlane w h (255 / 100 * (116 * y - 16) / 255)) tw br) hi
  have hs := constPlane_px (1 : ℝ) hi
  rw [← shadowMask_constPlane Config.defaults_valid htop hw hh br] at hs
  rw [correctedLuma_px (num := exactNumerics) Config.defaults ⟨sa, 0, tw, br⟩ hlum
    (constPlane_px _ hi) hs hhl, constPlane_px _ hi]
  exact congrArg some (correctPx_lift_luma hsa hy hy1 hl)

/-- APPLY on such an image: the pixel with the lifted luminance everywhere. -/
theorem exactOutput_constPlane {p : Triple Byte} {shadow highlight width : Pattern} (radius : Pattern)
    (hshadow : exactNumerics.pattern shadow = sa) (hhighlight : exactNumerics.pattern highlight = 0)
    (hwidth : exactNumerics.pattern width = tw) (hone : lumaF p ≤ 1)
    (htop : 255 / 100 * (116 * lumaF p - 16) / 255 < shadowTop Config.defaults tw) :
    exactOutput Config.defaults ⟨shadow, highlight, width, radius⟩ (constPlane w h p)
      = .ok (constPlane w h (tobgrPx (num := exactNumerics) Config.defaults
          (withLuma (255 / 100 * (116 * liftedF sa (lumaF p) - 16))
            (tolabPx (num := exactNumerics) Config.defaults p)))) := by
  have hlab : toLab (num := exactNumerics) Config.defaults (constPlane w h p)
      = constPlane w h (tolabPx (num := exactNumerics) Config.defaults p) := mapPlane_constPlane _ p
  unfold exactOutput paramValues
  rw [applyImage_eq (num := exactNumerics), hshadow, hhighlight, hwidth, hlab, mapPlane_constPlane,
    tolabPx_c0, correctedLuma_constPlane hw hh hsa _ (lumaF_ge p) hone htop, zipPlane_constPlane]
  exact congrArg Except.ok (mapPlane_constPlane _ _)

end

/-! ### Rational bounds on the curves (R101, R104, R162, R164) -/

/-- A power with the exponent `m/n`, raised to `n`. -/
theorem rpow_pow_of_mul_eq {z q : ℝ} {m n : Nat} (hz : 0 ≤ z) (hq : q * n = m) :
    (z ^ q) ^ n = z ^ m := by
  rw [← Real.rpow_natCast, ← Real.rpow_mul hz, hq, Real.rpow_natCast]

theorem lt_rpow_of_pow_lt {a z q : ℝ} {m n : Nat} (hz : 0 ≤ z) (hq : q * n = m)
    (hpow : a ^ n < z ^ m) : a < z ^ q :=
  lt_of_pow_lt_pow_left₀ n (Real.rpow_nonneg hz q) (rpow_pow_of_mul_eq hz hq ▸ hpow)

theorem rpow_lt_of_lt_pow {a z q : ℝ} {m n : Nat} (hz : 0 ≤ z) (ha : 0 ≤ a) (hq : q * n = m)
    (hpow : z ^ m < a ^ n) : z ^ q < a :=
  lt_of_pow_lt_pow_left₀ n ha (rpow_pow_of_mul_eq hz hq ▸ hpow)

/-- Above 6/29 the nonlinearity of Lab is compared through cubes (R104). -/
theorem labF_mem_of_cubes {lo hi t : ℝ} (hlo : 6 / 29 < lo) (hhi : 6 / 29 < hi)
    (ht : t ∈ Set.Icc (lo ^ 3) (hi ^ 3)) : labF (num := exactNumerics) t ∈ Set.Icc lo hi := by
  have hcube : ∀ {x : ℝ}, 6 / 29 < x → labF (num := exactNumerics) (x ^ 3) = x := fun hx => by
    rw [← labFinv_of_gt hx, labF_labFinv]
  rw [← hcube hlo, ← hcube hhi]
  exact ⟨labF_strictMono.monotone ht.1, labF_strictMono.monotone ht.2⟩

theorem labFinv_mem_cubes {lo hi x : ℝ} (hlo : 6 / 29 < lo) (hx : x ∈ Set.Icc lo hi) :
    labFinv (num := exactNumerics) x ∈ Set.Icc (lo ^ 3) (hi ^ 3) := by
  obtain ⟨hlox, hxhi⟩ := hx
  have hlo0 : 0 ≤ lo := le_trans (by norm_num) hlo.le
  rw [labFinv_of_gt (hlo.trans_le hlox)]
  exact ⟨pow_le_pow_left₀ hlo0 hlox 3, pow_le_pow_left₀ (hlo0.trans hlox) hxhi 3⟩

/-- The base of the power of R101 at the gamma-encoded level `u`, which R164 gives back. -/
noncomputable def gammaBase (u : ℝ) : ℝ := (u / 255 + 55 / 1000) / (1055 / 1000)

/-- Linear values from `lo` to `hi` have the byte `k`: they lie above the threshold of R164, and between
the linear values of `k - 1/2` and `k + 1/2`, which twelfth and fifth powers compare. -/
structure ByteBand (k : Nat) (lo hi : ℝ) : Prop where
  threshold : 31308 / 10000000 < lo
  lower : gammaBase (k - 1 / 2) ^ 12 < lo ^ 5
  upper : hi ^ 5 < gammaBase (k + 1 / 2) ^ 12

theorem toU8_gam_of_byteBand (cfg : Cfg) {k : Nat} {lo hi z : ℝ} (hk : k ≤ 255)
    (hband : ByteBand k lo hi) (hz : z ∈ Set.Icc lo hi) :
    toU8 (num := exactNumerics) cfg (gam (num := exactNumerics) z) = some (BitVec.ofNat 8 k) := by
  obtain ⟨hthreshold, hlower, hupper⟩ := hband
  obtain ⟨hloz, hzhi⟩ := hz
  have hlo0 : 0 ≤ lo := le_trans (by norm_num) hthreshold.le
  have hbase0 : 0 ≤ gammaBase (k + 1 / 2) := by unfold gammaBase; positivity
  have hbelow : gammaBase (k - 1 / 2) < z ^ (5 / 12 : ℝ) :=
    lt_rpow_of_pow_lt (m := 5) (n := 12) (hlo0.trans hloz) (by norm_num)
      (hlower.trans_le (pow_le_pow_left₀ hlo0 hloz 5))
  have habove : z ^ (5 / 12 : ℝ) < gammaBase (k + 1 / 2) :=
    rpow_lt_of_lt_pow (m := 5) (n := 12) (hlo0.trans hloz) hbase0 (by norm_num)
      ((pow_le_pow_left₀ (hlo0.trans hloz) hzhi 5).trans_lt hupper)
  unfold gammaBase at hbelow habove
  obtain ⟨hlo', hhi'⟩ := level_near (t := gam (num := exactNumerics) z) hk
    (by rw [exact_gam, if_pos (hthreshold.trans_le hloz)]; linarith)
    (by rw [exact_gam, if_pos (hthreshold.trans_le hloz)]; linarith)
  rw [exact_toU8, nearestByRule_of_near _ hlo' hhi']

/-! ### A grey pixel (R102, R163) -/

/-- A grey pixel in XYZ: a part of the reference white, up to the seventh decimal of Y. -/
theorem matVec_mFwd_grey (t : ℝ) :
    matVec (num := exactNumerics) Config.mFwd ⟨t, t, t⟩
      = ⟨t * (95047 / 100000), t * (10000001 / 10000000), t * (108883 / 100000)⟩ := by
  rw [exact_matVec]
  simp only [Config.mFwd, Triple.mk.injEq]
  push_cast
  refine ⟨?_, ?_, ?_⟩ <;> ring

section
variable (v : Byte)

theorem linearRgb_grey :
    linearRgb ⟨v, v, v⟩ = ⟨lin (num := exactNumerics) (normByte (num := exactNumerics) v),
      lin (num := exactNumerics) (normByte (num := exactNumerics) v),
      lin (num := exactNumerics) (normByte (num := exactNumerics) v)⟩ := rfl

theorem lumaF_grey :
    lumaF ⟨v, v, v⟩ = labF (num := exactNumerics)
      (lin (num := exactNumerics) (normByte (num := exactNumerics) v) * (10000001 / 10000000)) := by
  rw [lumaF, linearRgb_grey, matVec_mFwd_grey, defaults_yn, div_one]

/-- TOBGR's XYZ of a grey pixel whose f(Y/YN) has become `g`: X and Z see the same shift of `g`. -/
theorem labToXyz_grey (g : ℝ) :
    labToXyz (num := exactNumerics) Config.defaults (loadLab (num := exactNumerics)
        (withLuma (255 / 100 * (116 * g - 16))
          (tolabPx (num := exactNumerics) Config.defaults ⟨v, v, v⟩)))
      = let u := g + (labF (num := exactNumerics)
            (lin (num := exactNumerics) (normByte (num := exactNumerics) v)) - lumaF ⟨v, v, v⟩)
        ⟨(Config.defaults.xn : ℝ) * labFinv (num := exactNumerics) u,
          (Config.defaults.yn : ℝ) * labFinv (num := exactNumerics) g,
          (Config.defaults.zn : ℝ) * labFinv (num := exactNumerics) u⟩ := by
  have hX : ∀ t : ℝ, t * (95047 / 100000) / (Config.defaults.xn : ℝ) = t := fun t => by
    norm_num [Config.defaults]
  have hZ : ∀ t : ℝ, t * (108883 / 100000) / (Config.defaults.zn : ℝ) = t := fun t => by
    norm_num [Config.defaults]
  rw [tolabPx_eq, labToXyz_withLuma, linearRgb_grey, matVec_mFwd_grey]
  dsimp only
  rw [hX, hZ, defaults_yn, div_one, ← lumaF_grey]

end

/-- How far the matrix of R163 can leave the interval that holds a near-grey colour. -/
noncomputable def matrixSlack (lo hi : ℝ) : ℝ := 2 * (hi - lo) + 1 / 1000000

/-- The matrix of R163 at a colour near a part of the reference white: each channel is near that part. -/
theorem toRgb_mem {a b lo hi : ℝ} (ha : a ∈ Set.Icc lo hi) (hb : b ∈ Set.Icc lo hi)
    (h0 : 0 ≤ lo) (h1 : hi ≤ 1) :
    let rgb := toRgb (num := exactNumerics) Config.defaults
      ⟨(Config.defaults.xn : ℝ) * a, (Config.defaults.yn : ℝ) * b, (Config.defaults.zn : ℝ) * a⟩
    let band := Set.Icc (lo - matrixSlack lo hi) (hi + matrixSlack lo hi)
    rgb.c0 ∈ band ∧ rgb.c1 ∈ band ∧ rgb.c2 ∈ band := by
  obtain ⟨ha0, ha1⟩ := ha
  obtain ⟨hb0, hb1⟩ := hb
  unfold toRgb matrixSlack
  rw [exact_matVec]
  simp only [Config.mInv, Config.defaults]
  push_cast
  refine ⟨⟨?_, ?_⟩, ⟨?_, ?_⟩, ⟨?_, ?_⟩⟩ <;> linarith

/-! ### The pixel (30,30,30) -/

/-- The linear value of the byte 30 is a power with the exponent 12/5 (R101); fifth powers compare it. -/
theorem lin_thirty :
    lin (num := exactNumerics) (normByte (num := exactNumerics) 30)
      ∈ Set.Icc ((235030 / 1000000 : ℝ) ^ 3) ((2350315 / 10000000 : ℝ) ^ 3) := by
  have hbyte : (((30 : Byte).toNat : Nat) : ℝ) = 30 := Nat.cast_ofNat
  rw [exact_normByte, hbyte, exact_lin, if_pos (by norm_num)]
  exact ⟨(lt_rpow_of_pow_lt (m := 12) (n := 5) (by norm_num) (by norm_num) (by norm_num)).le,
    (rpow_lt_of_lt_pow (m := 12) (n := 5) (by norm_num) (by norm_num) (by norm_num)
      (by norm_num)).le⟩

theorem labF_lin_thirty :
    labF (num := exactNumerics) (lin (num := exactNumerics) (normByte (num := exactNumerics) 30))
      ∈ Set.Icc (235030 / 1000000) (235032 / 1000000) := by
  obtain ⟨hlo, hhi⟩ := lin_thirty
  exact labF_mem_of_cubes (by norm_num) (by norm_num) ⟨hlo, hhi.trans (by norm_num)⟩

theorem lumaF_thirty : lumaF ⟨30, 30, 30⟩ ∈ Set.Icc (235030 / 1000000 : ℝ) (235032 / 1000000) := by
  obtain ⟨hlo, hhi⟩ := lin_thirty
  rw [lumaF_grey]
  refine labF_mem_of_cubes (by norm_num) (by norm_num) ⟨by linarith, ?_⟩
  norm_num at hhi ⊢
  linarith

/-- Near-grey colours with f(X/XN), f(Y/YN) and f(Z/ZN) from `lo` to `hi` have the byte `k` in every
channel: all linear values the matrix can make of them have it. -/
structure GreyBand (k : Nat) (lo hi : ℝ) : Prop where
  cubic : 6 / 29 < lo
  unit : hi ≤ 1
  byte : k ≤ 255
  band : ByteBand k (lo ^ 3 - matrixSlack (lo ^ 3) (hi ^ 3)) (hi ^ 3 + matrixSlack (lo ^ 3) (hi ^ 3))

/-- The pixel (30,30,30) with f(Y/YN) lifted into a grey band becomes the grey pixel of its byte. -/
theorem tobgrPx_lifted_thirty {k : Nat} {g lo hi : ℝ} (hgrey : GreyBand k lo hi)
    (hg : g ∈ Set.Icc (lo + 2 / 1000000) (hi - 2 / 1000000)) :
    tobgrPx (num := exactNumerics) Config.defaults
        (withLuma (255 / 100 * (116 * g - 16))
          (tolabPx (num := exactNumerics) Config.defaults ⟨30, 30, 30⟩))
      = ⟨some (BitVec.ofNat 8 k), some (BitVec.ofNat 8 k), some (BitVec.ofNat 8 k)⟩ := by
  obtain ⟨hlo, hhi, hk, hband⟩ := hgrey
  obtain ⟨hf0, hf1⟩ := labF_lin_thirty
  obtain ⟨hy0, hy1⟩ := lumaF_thirty
  obtain ⟨hg0, hg1⟩ := hg
  have hlo0 : 0 ≤ lo := le_trans (by norm_num) hlo.le
  have hhi0 : 0 ≤ hi := by linarith
  obtain ⟨u, hu⟩ : ∃ u, u = g + (labF (num := exactNumerics)
    (lin (num := exactNumerics) (normByte (num := exactNumerics) 30)) - lumaF ⟨30, 30, 30⟩) := ⟨_, rfl⟩
  have hxyz := labToXyz_grey 30 g
  dsimp only at hxyz
  rw [← hu] at hxyz
  obtain ⟨hred, hgreen, hblue⟩ := toRgb_mem
    (labFinv_mem_cubes (x := u) hlo ⟨by linarith, by linarith⟩)
    (labFinv_mem_cubes (x := g) hlo ⟨by linarith, by linarith⟩)
    (pow_nonneg hlo0 3) (pow_le_one₀ hhi0 hhi)
  rw [← hxyz] at hred hgreen hblue
  simp only [tobgrPx, tobgrLevels, toU8_gam_of_byteBand _ hk hband hblue,
    toU8_gam_of_byteBand _ hk hband hgreen, toU8_gam_of_byteBand _ hk hband hred]

/-- R154 for one shadow amount: the lift carries the enclosure of f(Y/YN) into a grey band. -/
theorem exactOutput_dark_grey {w h : Nat} (hw : 0 < w) (hh : 0 < h) (radius : Pattern)
    {shadow : Pattern} {q : ℚ} (hval : val shadow = .num q) (hq : (q : ℝ) ∈ Set.Icc 0 1)
    {k : Nat} {lo hi : ℝ} (hgrey : GreyBand k lo hi)
    (hlo : lo + 2 / 1000000 ≤ liftedF q (235030 / 1000000))
    (hhi : liftedF q (235032 / 1000000) ≤ hi - 2 / 1000000) :
    exactOutput Config.defaults ⟨shadow, 0, 0x3F000000, radius⟩ (constPlane w h ⟨30, 30, 30⟩)
      = .ok (constPlane w h
          ⟨some (BitVec.ofNat 8 k), some (BitVec.ofNat 8 k), some (BitVec.ofNat 8 k)⟩) := by
  have hhalf : val 0x3F000000 = .num (1 / 2) := by decide +kernel
  have hhighlight : exactNumerics.pattern 0 = 0 := by
    rw [exact_pattern ((val_zero_iff _).mpr (.inl rfl)), Rat.cast_zero]
  have htop : shadowTop Config.defaults ((1 / 2 : ℚ) : ℝ) = 1 / 4 := by
    norm_num [shadowTop, Config.defaults]
  have hmono := liftedF_monotone hq.2
  obtain ⟨hy0, hy1⟩ := lumaF_thirty
  rw [exactOutput_constPlane hw hh hq radius (exact_pattern hval) hhighlight (exact_pattern hhalf)
    (by linarith) (by rw [htop]; linarith), tobgrPx_lifted_thirty hgrey
      ⟨hlo.trans (hmono hy0), (hmono hy1).trans hhi⟩]

theorem greyBand_thirtyFive : GreyBand 35 (25797 / 100000) (25799 / 100000) where
  cubic := by norm_num
  unit := by norm_num
  byte := by norm_num
  band := by constructor <;> norm_num [gammaBase, matrixSlack]

theorem greyBand_seventy : GreyBand 70 (39566 / 100000) (39569 / 100000) where
  cubic := by norm_num
  unit := by norm_num
  byte := by norm_num
  band := by constructor <;> norm_num [gammaBase, matrixSlack]

/-- Settles O32: at each of the two amounts the lifted value lies in the grey band of its byte. -/
theorem shadowLiftOfDarkGrey : Obligations.ShadowLiftOfDarkGrey := by
  intro w h radius hw hh _
  have htenth : val 0x3DCCCCCD = .num (13421773 / 134217728) := by decide +kernel
  have hseven : val 0x3F333333 = .num (11744051 / 16777216) := by decide +kernel
  refine ⟨exactOutput_dark_grey hw hh radius htenth ?_ greyBand_thirtyFive ?_ ?_,
    exactOutput_dark_grey hw hh radius hseven ?_ greyBand_seventy ?_ ?_⟩
  · constructor <;> norm_num
  · norm_num [liftedF]
  · norm_num [liftedF]
  · constructor <;> norm_num
  · norm_num [liftedF]
  · norm_num [liftedF]

end Sys2Proof.Machine
end

section
/-!
The 8-bit round trip (R168): XYZ survives TOLAB and TOBGR exactly, and the two matrices, inverse up to
their seven decimals, bring each linear value back well within half an 8-bit step.
-/

namespace Sys2Proof.Machine

/-- Settles O30: the round trip of each pixel, from `labToXyz_storeLab` and `near_mInv_mFwd`. -/
theorem roundTripIdentity : Obligations.RoundTripIdentity :=
  tobgrPx_tolabPx

end Sys2Proof.Machine
end

section
/-!
The command port and reset (R173, R190, R192, R195): what each host move does to an idle and to a
busy engine, the state after reset, and the test vectors of the encoding (V-ENC).
-/

namespace Sys2Proof.Machine

/-! ### Bytes of the buffers -/

/-- Where the host wrote nothing, IBUF reads as its draw (R193, I16). -/
theorem readIbuf_of_ibuf_nil {s : State} (h : s.ibuf = []) (a : Nat) :
    readIbuf s a = Config.ibufDraw a := by
  rw [readIbuf, h]
  rfl

/-- Where no APPLY wrote, OBUF reads as the draw in force (R190, I16). -/
theorem readObuf_of_obuf_nil {s : State} (h : s.obuf = []) (a : Nat) :
    readObuf s a = Config.obufDraw s.obufEpoch a := by
  rw [readObuf, h]
  rfl

theorem readIbuf_hostWrite (s : State) (a c : Nat) (b : Byte) :
    readIbuf (hostWrite a b s) c = if c = a then b else readIbuf s c := by
  rw [readIbuf, hostWrite_ibuf, memLookup_memWrite]
  split <;> rfl

/-- A reset between commands keeps OBUF (I23, log entry 8). -/
theorem readObuf_hostReset_of_idle {s : State} (hs : s.status.busy = false) (a : Nat) :
    readObuf (hostReset s) a = readObuf s a := by
  simp [readObuf, hostReset, hs]

/-- A reset that abandons a command leaves OBUF to a fresh draw (R192, I17). -/
theorem readObuf_hostReset_of_busy {s : State} (hs : s.status.busy = true) (a : Nat) :
    readObuf (hostReset s) a = Config.obufDraw (s.obufEpoch + 1) a := by
  rw [readObuf_of_obuf_nil (by simp [hostReset, hs])]
  simp [hostReset, hs]

/-- After a reset all ten bits of STATUS are 0 (R25, R190). -/
theorem statusWord_hostReset (s : State) : statusWord (hostReset s).status = 0 := by
  rw [hostReset_status]
  decide

/-! ### Host moves -/

section
variable {s : State} {rest : List HostMove}

/-- A step takes the first move from the port (R48). -/
theorem step_of_port_cons {m : HostMove} (hp : s.port = m :: rest) :
    step s = hostMove Config.defaults exec m { s with port := rest } := by
  simp only [step, nextMove, hp]

/-- A busy engine takes no move but a reset (R192, R195, I1, I2). -/
theorem step_of_busy {m : HostMove} (hs : s.status.busy = true) (hp : s.port = m :: rest)
    (hm : m ≠ .reset) : step s = .refused .engineBusy := by
  rw [step_of_port_cons hp]
  cases m with
  | command w => exact if_pos hs
  | writeIbuf a b => exact if_pos hs
  | reset => exact absurd rfl hm

/-- An idle engine accepts the command word next on the port (R195). -/
theorem step_of_command {w : CommandWord} (hs : s.status.busy = false)
    (hp : s.port = .command w :: rest) :
    step s = runCommand Config.defaults exec w { s with port := rest } :=
  (step_of_port_cons hp).trans (if_neg (by simp [hs]))

theorem step_of_writeIbuf {a : Nat} {b : Byte} (hs : s.status.busy = false)
    (hp : s.port = .writeIbuf a b :: rest) :
    step s = .next (hostWrite a b { s with port := rest }) :=
  (step_of_port_cons hp).trans (if_neg (by simp [hs]))

/-- A reset is taken by an idle and by a busy engine (R190, R192). -/
theorem step_of_reset (hp : s.port = .reset :: rest) :
    step s = .next (hostReset { s with port := rest }) :=
  step_of_port_cons hp

end

theorem runCommand_of_ok {cfg : Cfg} {w : CommandWord} {i : Instr} (hd : decodeAt cfg w = .ok i)
    (run : Executor) (s : State) : runCommand cfg run w s = run i (accept s) := by
  simp only [runCommand, hd]

/-- A word the decoder refuses is an illegal command, whatever the reason (R173). -/
theorem runCommand_of_error {cfg : Cfg} {w : CommandWord} {e : DecodeError}
    (hd : decodeAt cfg w = .error e) (run : Executor) (s : State) :
    runCommand cfg run w s = raise .illegalCommand false (accept s) := by
  simp only [runCommand, hd]

/-! ### The obligations about the port -/

/-- Settles O7: the decoder's refusal raises code 4 on the accepted state. -/
theorem stepIllegalWord : Obligations.StepIllegalWord := by
  intro s w rest e hs hp hd
  calc step s = runCommand Config.defaults exec w { s with port := rest } := step_of_command hs hp
    _ = raise .illegalCommand false (accept { s with port := rest }) := runCommand_of_error hd _ _
    _ = _ := raise_eq .illegalCommand false _

/-- Settles O6: an idle engine accepts the word and runs what it decodes to. -/
theorem stepRunsDecodedCommand : Obligations.StepRunsDecodedCommand :=
  fun _ _ _ _ hs hp hd => (step_of_command hs hp).trans (runCommand_of_ok hd _ _)

/-- Settles O8: one clause for each move and each state of BUSY. -/
theorem stepHostMoves : Obligations.StepHostMoves := by
  intro s rest
  refine ⟨fun hp => ?_, fun a b hp hs => ?_, fun hp => ?_, fun a b hp hs => ?_, fun w hp hs => ?_,
    fun a hs => if_pos hs, fun a hs => if_neg (by simp [hs])⟩
  · exact (stepAt_referenceHardware s).symm.trans (stepAt_of_port_nil referenceHardware hp)
  · refine ⟨_, step_of_writeIbuf hs hp, ?_, fun c hc => ?_, rfl⟩
    · rw [readIbuf_hostWrite, if_pos rfl]
    · rw [readIbuf_hostWrite, if_neg hc]
      rfl
  · exact ⟨_, step_of_reset hp, rfl, statusWord_hostReset _, rfl, rfl, rfl, rfl, rfl,
      fun hs => readObuf_hostReset_of_idle (s := { s with port := rest }) hs,
      fun hs => readObuf_hostReset_of_busy (s := { s with port := rest }) hs⟩
  · exact step_of_busy hs hp nofun
  · exact step_of_busy hs hp nofun

/-! ### Reset -/

/-- Settles O10: the reset values, and two buffers in which nothing is written. -/
theorem resetState : Obligations.ResetState :=
  ⟨rfl, rfl, rfl, rfl, rfl, rfl, rfl, readIbuf_of_ibuf_nil rfl, readObuf_of_obuf_nil rfl⟩

/-- The state after reset is what the reset input leaves of it (R190). -/
theorem hostReset_reset : hostReset State.reset = State.reset := rfl

/-- Settles O21: reset meets the invariant wherever the buffers are in canonical form. -/
theorem resetMeetsInvariant : Obligations.ResetMeetsInvariant := by
  obtain ⟨hibuf, hobuf⟩ := reset_memory_wf
  have hinv : Inv (hostReset State.reset) := inv_hostReset hibuf hobuf
  rwa [hostReset_reset] at hinv

/-! ### The test vectors of the encoding -/

/-- A word is read as the well-formed instruction it encodes. -/
theorem decode_of_encode_eq {w : CommandWord} {i : Instr} (hw : encode i = w)
    (hwf : i.wellFormed = true) : decode w = .ok i :=
  hw ▸ decodeOfEncode.1 i hwf

/-- Settles O4: each word is the encoding of its instruction, and the decoder reads that back. -/
theorem decodeSampleWords : Obligations.DecodeSampleWords :=
  ⟨decode_of_encode_eq (by decide) rfl, decode_of_encode_eq (by decide) rfl,
    decode_of_encode_eq (by decide) (by decide), decode_of_encode_eq (by decide) (by decide),
    decode_of_encode_eq (by decide) (by decide), decode_of_encode_eq (by decide) (by decide),
    decode_of_encode_eq (by decide) rfl⟩

end Sys2Proof.Machine
end
